-- ==== Sys2Proof/Word.lean ====
section
/-! DEFINITION. The words of LCDSEQ-1: the 32-bit host command word (30 R70) and the controller-side values of
30 R84, a lone nibble or a byte. -/

namespace Sys2Proof

/-- One host command word, "accepted whole on the host port" (R70). -/
abbrev CmdWord := BitVec 32

/-- A nibble, "4-bit half of a byte" (R16). -/
abbrev Nibble := BitVec 4

/-- A byte, or a character code (R73). -/
abbrev Byte := BitVec 8

/-- A duration operand in microseconds, 0 to 65535 (R72). -/
abbrev Micros := BitVec 16

/-- A controller-side value as the init ROM holds it: formats LCD4 and LCD8 (R84). -/
inductive LcdWord
  | nibble (n : Nibble)
  | byte (b : Byte)
deriving DecidableEq, Repr

/-- An encoded instruction of the opcode table: a host command, or a controller-side value, "distinct from host
commands" (R84). -/
inductive Encoded
  | cmd (w : CmdWord)
  | lcd (l : LcdWord)
deriving DecidableEq, Repr

end Sys2Proof
end

