-- ==== Sys2Proof/Config.lean ====
section
/-! DEFINITION. The block's parameters (00 R9), the input ports (10 R20), and the one free value of the model: what the
outside world does at the input ports. -/

namespace Sys2Proof

/-- `BUS_WIDTH`, 3 or 4 data lines (R9, R53). -/
inductive BusWidth
  | three
  | four
deriving DecidableEq, Repr

/-- The number of data lines of the Multi-Line Bus (R53). -/
def BusWidth.lines : BusWidth → Nat
  | .three => 3
  | .four => 4

/-- `BF_READBACK`: "true exactly when `BUS_WIDTH = 3`" (R9, R53). -/
def BusWidth.busyReadback : BusWidth → Bool
  | .three => true
  | .four => false

/-- `NONASCII_POLICY` (R9, R173 to R175). -/
inductive NonAsciiPolicy
  | skip
  | substitute
  | fail
deriving DecidableEq, Repr

/-- The parameters of R9, fixed for the lifetime of a block. "A model takes each parameter as an argument of its step
relation": State carries this record, and no step changes it. DESIGN CHOICE (log entry 1). -/
structure Config where
  busWidth : BusWidth
  fClk : Nat
  holdCycles : Nat
  setupCycles : Nat
  powerOnUs : Micros
  policy : NonAsciiPolicy
  /-- A 7-bit code, so that `SUB_CHAR` is 0x00 to 0x7F by its type. -/
  subChar : BitVec 7
deriving DecidableEq, Repr

/-- The legal values of R9 that the types do not already say: `F_CLK >= 1` and `HOLD_CYCLES >= 1` (log entry 19). -/
abbrev Config.Legal (c : Config) : Prop := 1 ≤ c.fClk ∧ 1 ≤ c.holdCycles

/-- The parameters State.reset carries: the spec's defaults, and for the OPEN ones the values of 95_test_vectors.md's
conventions. DESIGN CHOICE, unsafe (log entry 1): no statement rests on them. -/
def Config.chosen : Config where
  busWidth := .three
  fClk := 1000000
  holdCycles := 1
  setupCycles := 0
  powerOnUs := 0#16
  policy := .skip
  subChar := 0x3F#7

/-- The input ports of R20 in one clock cycle, as sampled at the rising edge that ends it. -/
structure PortInput where
  rst : Bool
  cmdValid : Bool
  cmdData : CmdWord
  respValid : Bool
  respErr : Bool
  respVal : Bool
deriving DecidableEq, Repr, Inhabited

/-- A cycle in which nothing is presented at any input. -/
def PortInput.quiet : PortInput where
  rst := false
  cmdValid := false
  cmdData := 0#32
  respValid := false
  respErr := false
  respVal := false

/-- FREE VALUE (log entry 3): the input ports in a cycle that State's own list of inputs does not name. Nothing
constrains it: the host's commands, `rst`, the answer cycle, OK or ERR and each GET value are draws (92 D3, D23). -/
opaque Config.freeInput : Nat → PortInput

end Sys2Proof
end

