-- ==== Sys2Proof/Syntax.lean ====
section
/-! DEFINITION. The instructions: one constructor per row of spec/opcode_table.json, the seven host commands of 30 R75
and the seven controller-side values of 30 R84. -/

namespace Sys2Proof

/-- Field `S` (R71): the source's "SyncStrategy (variant: FixedDelay(duration) | BusyPoll)". -/
inductive Sync
  | fixedDelay
  | busyPoll
deriving DecidableEq, Repr

/-- One constructor per row of spec/opcode_table.json. -/
inductive Instr
  /-- INIT (R151). -/
  | init
  /-- SEL_IR (R100). -/
  | selIr
  /-- SEL_DR (R101). -/
  | selDr
  /-- STROBE (R111): `dly` is the hold in microseconds, 0 for HOLD_CYCLES. -/
  | strobe (dly : Micros)
  /-- SEND_NIBBLE (R130). -/
  | sendNibble (sync : Sync) (dly : Micros) (n : Nibble)
  /-- SEND_BYTE (R140). -/
  | sendByte (sync : Sync) (dly : Micros) (b : Byte)
  /-- WRITE_CHAR (R172). -/
  | writeChar (sync : Sync) (dly : Micros) (c : Byte)
  /-- The lone nibble 0011, "force 8-bit-mode interpretation regardless of prior state" (R84). -/
  | lcdFunctionSet8bitNibble
  /-- The lone nibble 0010, "Switch interface width to 4-bit" (R84). -/
  | lcdFunctionSet4bitNibble
  /-- The byte 0x28, "Function Set: 4-bit, 2 lines, 5×8 font" (R84). -/
  | lcdFunctionSet4bit2line5x8
  /-- The byte 0x0C, "Display ON, cursor OFF, blink OFF" (R84). -/
  | lcdDisplayOnCursorOffBlinkOff
  /-- The byte 0x01, "Clear display" (R84). -/
  | lcdClearDisplay
  /-- The byte 0x02, "Return cursor to home position" (R84). -/
  | lcdReturnHome
  /-- The byte 0x06, "Entry mode: auto-increment, no shift" (R84). -/
  | lcdEntryModeIncNoshift
deriving DecidableEq, Repr

end Sys2Proof
end

