-- ==== Sys2Proof/WellFormed.lean ====
section
/-! DEFINITION. The value conditions on an instruction that no field width expresses (30 R79). -/

namespace Sys2Proof

/-- R79 condition (1): BusyPoll needs the busy readback, so `S = 1` is refused when `BUS_WIDTH = 4`. -/
def Sync.availableOn (bw : BusWidth) : Sync → Bool
  | .fixedDelay => true
  | .busyPoll => bw.busyReadback

/-- R79 condition (2): a single-nibble busy poll has no fixed wait to take, so its `DLY` is 0. -/
def Sync.nibbleDelayOk (dly : Micros) : Sync → Bool
  | .fixedDelay => true
  | .busyPoll => dly == 0#16

/-- The instruction is one the block with this bus width can be asked to run (R79). -/
def Instr.wellFormed (bw : BusWidth) : Instr → Bool
  | .init => true
  | .selIr => true
  | .selDr => true
  | .strobe _ => true
  | .sendNibble sync dly _ => sync.availableOn bw && sync.nibbleDelayOk dly
  | .sendByte sync _ _ => sync.availableOn bw
  | .writeChar sync _ _ => sync.availableOn bw
  | .lcdFunctionSet8bitNibble => true
  | .lcdFunctionSet4bitNibble => true
  | .lcdFunctionSet4bit2line5x8 => true
  | .lcdDisplayOnCursorOffBlinkOff => true
  | .lcdClearDisplay => true
  | .lcdReturnHome => true
  | .lcdEntryModeIncNoshift => true

end Sys2Proof
end

