-- ==== Sys2Proof/Decode.lean ====
section
/-! DEFINITION. The decoder, total on every word, written from 30 R80, and the encoder, written from 30 R70 and R76. -/

namespace Sys2Proof

/-! ### Fields of the command word (R70) -/

def CmdWord.op (w : CmdWord) : BitVec 4 := w.extractLsb' 28 4
def CmdWord.s (w : CmdWord) : BitVec 1 := w.extractLsb' 27 1
def CmdWord.dly (w : CmdWord) : Micros := w.extractLsb' 8 16
def CmdWord.data (w : CmdWord) : Byte := w.extractLsb' 0 8
def CmdWord.nibble (w : CmdWord) : Nibble := w.extractLsb' 0 4

/-- Field `S` as a strategy: 0 = FixedDelay, 1 = BusyPoll (R71). -/
def Sync.ofBit (b : BitVec 1) : Sync := if b = 1#1 then .busyPoll else .fixedDelay

/-- The bit of field `S` (R71). -/
def Sync.bit : Sync → BitVec 1
  | .fixedDelay => 0#1
  | .busyPoll => 1#1

/-! ### The opcode map (R75, R76) -/

/-- One row of R76: "A word `w` matches a row when `w & mask = match`." -/
structure CmdRow where
  pattern : CmdWord
  mask : CmdWord
deriving DecidableEq, Repr

def CmdRow.matches (r : CmdRow) (w : CmdWord) : Bool := (w &&& r.mask) == r.pattern

def CmdRow.init : CmdRow := ⟨0x10000000#32, 0xFFFFFFFF#32⟩
def CmdRow.selIr : CmdRow := ⟨0x20000000#32, 0xFFFFFFFF#32⟩
def CmdRow.selDr : CmdRow := ⟨0x30000000#32, 0xFFFFFFFF#32⟩
def CmdRow.strobe : CmdRow := ⟨0x40000000#32, 0xFF0000FF#32⟩
def CmdRow.sendNibble : CmdRow := ⟨0x50000000#32, 0xF70000F0#32⟩
def CmdRow.sendByte : CmdRow := ⟨0x60000000#32, 0xF7000000#32⟩
def CmdRow.writeChar : CmdRow := ⟨0x70000000#32, 0xF7000000#32⟩

/-- The seven rows of R76. -/
def CmdRow.table : List CmdRow :=
  [.init, .selIr, .selDr, .strobe, .sendNibble, .sendByte, .writeChar]

/-- Why a word is no instruction. On the host port each of the first four is ILLEGAL_COMMAND (R192). -/
inductive Reject
  /-- Opcode 0x0 or 0x8 to 0xF (R77). -/
  | reservedOpcode
  /-- A reserved bit of the opcode's row is 1 (R74). -/
  | reservedBit
  /-- `S = 1` with `BUS_WIDTH = 4` (R79). -/
  | busyPollWithoutReadback
  /-- SEND_NIBBLE with `S = 1` and `DLY != 0` (R79). -/
  | busyNibbleWithDelay
  /-- A controller-side value that R84 does not list. -/
  | notAControllerValue
deriving DecidableEq, Repr

/-- The opcodes of R75 that spell a command. -/
def CmdWord.opAssigned (w : CmdWord) : Bool := w.op != 0#4 && w.op.ult 8#4

/-- Decode one host command word (R80). -/
def decodeCmd (bw : BusWidth) (w : CmdWord) : Except Reject Instr :=
  let sync := Sync.ofBit w.s
  if CmdRow.init.matches w then .ok .init
  else if CmdRow.selIr.matches w then .ok .selIr
  else if CmdRow.selDr.matches w then .ok .selDr
  else if CmdRow.strobe.matches w then .ok (.strobe w.dly)
  else if CmdRow.sendNibble.matches w then
    if !sync.availableOn bw then .error .busyPollWithoutReadback
    else if !sync.nibbleDelayOk w.dly then .error .busyNibbleWithDelay
    else .ok (.sendNibble sync w.dly w.nibble)
  else if CmdRow.sendByte.matches w then
    if !sync.availableOn bw then .error .busyPollWithoutReadback
    else .ok (.sendByte sync w.dly w.data)
  else if CmdRow.writeChar.matches w then
    if !sync.availableOn bw then .error .busyPollWithoutReadback
    else .ok (.writeChar sync w.dly w.data)
  else if w.opAssigned then .error .reservedBit
  else .error .reservedOpcode

/-- Decode one controller-side value: the seven of R84, nothing else. -/
def decodeLcd : LcdWord → Except Reject Instr
  | .nibble n =>
    if n = 0x3#4 then .ok .lcdFunctionSet8bitNibble
    else if n = 0x2#4 then .ok .lcdFunctionSet4bitNibble
    else .error .notAControllerValue
  | .byte b =>
    if b = 0x28#8 then .ok .lcdFunctionSet4bit2line5x8
    else if b = 0x0C#8 then .ok .lcdDisplayOnCursorOffBlinkOff
    else if b = 0x01#8 then .ok .lcdClearDisplay
    else if b = 0x02#8 then .ok .lcdReturnHome
    else if b = 0x06#8 then .ok .lcdEntryModeIncNoshift
    else .error .notAControllerValue

/-- The decoder on any encoded word. -/
def decode (bw : BusWidth) : Encoded → Except Reject Instr
  | .cmd w => decodeCmd bw w
  | .lcd l => decodeLcd l

/-! ### The encoder -/

/-- The one format of R70: `OP`, `S`, `RSV = 0`, `DLY`, `DATA`. -/
def cmdWord (op : BitVec 4) (s : BitVec 1) (dly : Micros) (data : Byte) : CmdWord :=
  op ++ (s ++ (0#3 ++ (dly ++ data)))

/-- The word of a host command, or the controller-side value (R70, R76, R84). -/
def encode : Instr → Encoded
  | .init => .cmd (cmdWord 0x1#4 0#1 0#16 0#8)
  | .selIr => .cmd (cmdWord 0x2#4 0#1 0#16 0#8)
  | .selDr => .cmd (cmdWord 0x3#4 0#1 0#16 0#8)
  | .strobe dly => .cmd (cmdWord 0x4#4 0#1 dly 0#8)
  | .sendNibble sync dly n => .cmd (cmdWord 0x5#4 sync.bit dly (0#4 ++ n))
  | .sendByte sync dly b => .cmd (cmdWord 0x6#4 sync.bit dly b)
  | .writeChar sync dly c => .cmd (cmdWord 0x7#4 sync.bit dly c)
  | .lcdFunctionSet8bitNibble => .lcd (.nibble 0x3#4)
  | .lcdFunctionSet4bitNibble => .lcd (.nibble 0x2#4)
  | .lcdFunctionSet4bit2line5x8 => .lcd (.byte 0x28#8)
  | .lcdDisplayOnCursorOffBlinkOff => .lcd (.byte 0x0C#8)
  | .lcdClearDisplay => .lcd (.byte 0x01#8)
  | .lcdReturnHome => .lcd (.byte 0x02#8)
  | .lcdEntryModeIncNoshift => .lcd (.byte 0x06#8)

/-! ### The opcode table's own numbering of words -/

/-- The instruction word that `nbits` and `w` stand for (log entry 8): up to 4 bits the LCD4 format, up to 8 bits the
LCD8 format, where a byte that is no LCD8 row of R84 but equals the LCD4 row 0011 is that lone nibble, and above 8 bits
the host command word. -/
def tableWord (nbits w : Nat) : Encoded :=
  if nbits ≤ 4 then .lcd (.nibble (BitVec.ofNat 4 w))
  else if nbits ≤ 8 then
    if BitVec.ofNat 8 w = 0x03#8 then .lcd (.nibble 0x3#4) else .lcd (.byte (BitVec.ofNat 8 w))
  else .cmd (BitVec.ofNat 32 w)

/-- The instruction this decoder reads from an opcode-table word, under the bus width State.reset carries. -/
def decodeTableWord (nbits w : Nat) : Option Instr :=
  match decode Config.chosen.busWidth (tableWord nbits w) with
  | .ok i => some i
  | .error _ => none

end Sys2Proof
end

