-- ==== Sys2Proof/Machine/State.lean ====
section
/-! DEFINITION. The state of the block: every field of 10 R36, the parameters of 00 R9, and three fields of the model's
own (an index and a wait in hand, the values at the input ports, a cycle counter). -/

namespace Sys2Proof.Machine

/-- `S.st` (R25). -/
inductive SeqState
  | idle
  | busy
  | failed
deriving DecidableEq, Repr

/-- `S.mode`, the register-mode mirror (R26). -/
inductive RegMode
  | unknown
  | instruction
  | data
deriving DecidableEq, Repr

/-- `S.phase`, the nibble-phase mirror (R27). -/
inductive Phase
  | unknown
  | even
  | odd
deriving DecidableEq, Repr

/-- A line shadow `S.e_sh` or `S.rs_sh`: 0, 1 or X (R32). -/
inductive Shadow
  | low
  | high
  | x
deriving DecidableEq, Repr

/-- `S.d7dir`, the direction of the D7 line: OUT, IN or X (R32). -/
inductive LineDir
  | output
  | input
  | x
deriving DecidableEq, Repr

/-- `S.err` (R190). -/
inductive ErrCode
  | none
  | ioError
  | illegalCommand
  | modeError
  | phaseError
  | unsupportedInput
deriving DecidableEq, Repr

/-- The kind of a line op, `S.err_op` (R30). -/
inductive OpKind
  | set
  | setv
  | get
  | dir
deriving DecidableEq, Repr

/-- The line identifiers of R52. -/
inductive LineId
  | e
  | rs
  | d4
  | d5
  | d6
  | d7
  | bus
deriving DecidableEq, Repr

/-- A line-port request (R51): `SET(l, v)`, `SETV(vec)`, `GET(l)`, `DIR(l, IN)`, `DIR(l, OUT, v)`. -/
inductive LineReq
  | set (l : LineId) (v : Bool)
  | setv (vec : List Bool)
  | get (l : LineId)
  | dirIn (l : LineId)
  | dirOut (l : LineId) (v : Bool)
deriving DecidableEq, Repr

/-- The pseudocode statements between line ops and waits that write a field of their own; they take no cycle (log
entry 9). -/
inductive Note
  /-- "if S.phase = EVEN: S.phase <- ODD elif S.phase = ODD: S.phase <- EVEN" (R120). -/
  | togglePhase
  /-- "S.polls <- 0" at the start of a POLL_SEQ (R125). -/
  | clearPolls
  /-- "S.phase <- EVEN; S.init_done <- 1" at the end of INIT (R151). -/
  | initDone
deriving DecidableEq, Repr

/-- One line of the init script as the ROM holds it: the controller-side value, the index `k` of its first nibble, and
`wait_us` (R150). -/
structure RomRow where
  word : LcdWord
  nib : BitVec 4
  waitUs : Micros
deriving DecidableEq, Repr

/-- An index and a wait: what a controller-side value that is executed by itself is sent with. The model's own field (log
entry 7). -/
structure RowTag where
  nib : BitVec 4
  waitUs : Micros
deriving DecidableEq, Repr

/-- An element of `S.seq` (R15, R23). -/
inductive MicroOp
  /-- A line op, and the index of the nibble transmission it belongs to, 15 for none (R120). -/
  | req (r : LineReq) (nib : BitVec 4)
  /-- `WAIT(n)` (R15). -/
  | wait (n : Nat)
  /-- RESTORE_D7 of R125: one `DIR(D7, OUT, 0)`, after which the first error, of this kind on line D7, is raised. -/
  | restore (first : OpKind) (nib : BitVec 4)
  /-- A statement that takes no cycle. -/
  | note (b : Note)
  /-- A controller-side value that is to be executed by itself, with its index and its wait. No command's list holds one:
  INIT's holds the transmissions. State.withFetchWord places one (log entry 5). -/
  | rom (row : RomRow)
deriving DecidableEq, Repr

/-- The block's state. The names in backquotes are those of 10_state.md. -/
structure State where
  /-- The parameters (R9); no step changes them. -/
  cfg : Config
  /-- `S.st` (R25). -/
  st : SeqState
  /-- `S.cmd` (R21). -/
  cmd : CmdWord
  /-- `S.seq` (R23). -/
  seq : List MicroOp
  /-- `S.tmr` (R23, R204). -/
  tmr : Nat
  /-- `S.pending` (R24). -/
  pending : Option LineReq
  /-- `S.mode` (R26). -/
  mode : RegMode
  /-- `S.phase` (R27). -/
  phase : Phase
  /-- `S.init_done` (R28). -/
  initDone : Bool
  /-- `S.skipped` (R29). -/
  skipped : Bool
  /-- `S.err` (R30). -/
  err : ErrCode
  /-- `S.err_op` (R30). -/
  errOp : OpKind
  /-- `S.err_line` (R30); `none` is the identifier 7. -/
  errLine : Option LineId
  /-- `S.err_nib` (R30); 15 is none. -/
  errNib : BitVec 4
  /-- `S.polls` (R31). -/
  polls : BitVec 32
  /-- `S.e_sh` (R32). -/
  eSh : Shadow
  /-- `S.rs_sh` (R32). -/
  rsSh : Shadow
  /-- `S.d7dir` (R32). -/
  d7dir : LineDir
  /-- The index and the wait in hand for a controller-side value executed by itself. The model's own (log entry 7). -/
  row : RowTag
  /-- The input ports in this cycle and those that follow. The model's own (log entry 3). -/
  inputs : List PortInput
  /-- Clock cycles so far. The model's own (log entry 3). -/
  cycle : Nat
deriving DecidableEq, Repr

/-- The faults that stop the machine: none. Every error of the block is a next state, FAILED (R190, R197, R198), so
this type has no constructor. -/
inductive Fault
deriving DecidableEq, Repr

/-- The reasons for which a step has no meaning. -/
inductive Refusal
  /-- Raised by exec for an instruction that has no meaning yet. Safe. -/
  | notModelled (mnemonic : String)
  /-- Raised where a list holds a controller-side value to be executed by itself that is none of the seven of R84. No
  command's list holds a value by itself, so no run from reset meets it. Safe (log entry 11). -/
  | scriptValueUnlisted
deriving DecidableEq, Repr

/-- Every field at its reset value (R36), for a block with the given parameters. `cmd` is unspecified there and 0 here:
DESIGN CHOICE, unsafe (log entry 2). `row`, `inputs` and `cycle` are the model's own (log entries 4 and 7). -/
def State.resetWith (c : Config) : State where
  cfg := c
  st := .idle
  cmd := 0#32
  seq := []
  tmr := 0
  pending := none
  mode := .unknown
  phase := .unknown
  initDone := false
  skipped := false
  err := .none
  errOp := .set
  errLine := none
  errNib := 15#4
  polls := 0#32
  eSh := .x
  rsSh := .x
  d7dir := .x
  row := ⟨15#4, 0#16⟩
  inputs := []
  cycle := 0

/-- The machine right after reset (R36, R221), with the parameters of Config.chosen (log entry 1). -/
def State.reset : State := State.resetWith Config.chosen

end Sys2Proof.Machine
end

