-- ==== Sys2Proof/Machine/Operands.lean ====
section
/-! DEFINITION. What the operands of a command become: cycle counts (00 R10), nibbles (30 R82), characters (44 R170),
and the micro-operation lists of a nibble transmission (41 R110, 42 R120, R125). -/

namespace Sys2Proof.Machine

/-! ### Durations -/

/-- `N(t_us)`, "computed exactly over the integers as `(t_us * F_CLK + 999999) div 1000000`" (R10). -/
def cyclesOf (c : Config) (us : Micros) : Nat := (us.toNat * c.fClk + 999999) / 1000000

/-- STROBE's hold: "`HOLD_CYCLES` when `DLY = 0` and `N(DLY)` otherwise" (R81, R111). -/
def strobeHold (c : Config) (dly : Micros) : Nat := if dly = 0#16 then c.holdCycles else cyclesOf c dly

/-! ### Nibbles and characters -/

/-- `b[7:4]`, sent first (R61, R82). -/
def highNibble (b : Byte) : Nibble := b.extractLsb' 4 4

/-- `b[3:0]`, sent second (R61, R82). -/
def lowNibble (b : Byte) : Nibble := b.extractLsb' 0 4

/-- The character encoder (R170): `NONE` above 0x7F. -/
def encodeChar (c : Byte) : Option (Nibble × Nibble) :=
  if c.ule 0x7F#8 then some (highNibble c, lowNibble c) else none

/-- The nibbles WRITE_CHAR sends for a code (R172): those of the code; above 0x7F none under SKIP (R173), those of
`SUB_CHAR` under SUBSTITUTE (R174). Under FAIL such a code was refused at the checks (R175). -/
def charNibbles (c : Config) (ch : Byte) : Option (Nibble × Nibble) :=
  match encodeChar ch with
  | some p => some p
  | none =>
    match c.policy with
    | .skip => none
    | .substitute => encodeChar (c.subChar.setWidth 8)
    | .fail => none

/-! ### Micro-operation lists -/

/-- The data-line writes of a nibble, bit 3 on the most significant line: one 4-element SETV with width 4, SET(D7) and
then a 3-element SETV with width 3 (R53, R60, R120). -/
def dataOps (bw : BusWidth) (n : Nibble) (k : BitVec 4) : List MicroOp :=
  match bw with
  | .four => [.req (.setv [n[3], n[2], n[1], n[0]]) k]
  | .three => [.req (.set .d7 n[3]) k, .req (.setv [n[2], n[1], n[0]]) k]

/-- `STROBE_SEQ(h)` (R110). -/
def strobeSeq (h : Nat) (k : BitVec 4) : List MicroOp :=
  [.req (.set .e true) k, .wait h, .req (.set .e false) k]

/-- `POLL_SEQ(k)` (R125). Its GET repeats while it reads 1. -/
def pollSeq (k : BitVec 4) : List MicroOp :=
  [.note .clearPolls, .req (.dirIn .d7) k, .req (.get .d7) k, .req (.dirOut .d7 false) k]

/-- The synchronisation of one transmission: `FIXED(w)` or `BUSY` (R120, R122). -/
inductive TxSync
  | fixed (w : Nat)
  | busy
deriving DecidableEq, Repr

def syncOps (sync : TxSync) (k : BitVec 4) : List MicroOp :=
  match sync with
  | .fixed w => [.wait w]
  | .busy => pollSeq k

/-- The phase statement of R120, absent when TX is called from INIT. -/
def phaseOps (init : Bool) : List MicroOp := if init then [] else [.note .togglePhase]

/-- `TX(n, sync, k, init)` (R120). -/
def tx (c : Config) (n : Nibble) (sync : TxSync) (k : BitVec 4) (init : Bool) : List MicroOp :=
  dataOps c.busWidth n k ++ [.wait c.setupCycles] ++ strobeSeq c.holdCycles k ++ phaseOps init ++ syncOps sync k

/-- The synchronisation of a command's last nibble: `(S = 0) ? FIXED(N(DLY)) : BUSY` (R130, R140, R172). -/
def lastSync (c : Config) (sync : Sync) (dly : Micros) : TxSync :=
  match sync with
  | .fixedDelay => .fixed (cyclesOf c dly)
  | .busyPoll => .busy

/-- A byte as two transmissions, high nibble first with the fixed wait `N(DLY)`, indices 0 and 1 (R140, R172). -/
def byteOps (c : Config) (h l : Nibble) (sync : Sync) (dly : Micros) : List MicroOp :=
  tx c h (.fixed (cyclesOf c dly)) 0#4 false ++ tx c l (lastSync c sync dly) 1#4 false

/-! ### The init ROM -/

/-- The init script, one row per line of the source's table: rows 0 to 3 of R150 are lone nibbles, and each later row is
a byte whose high and low nibbles are the pairs k = 4, 5 to k = 12, 13. -/
def initRom : List RomRow :=
  [⟨.nibble 0x3#4, 0#4, 4100#16⟩,
   ⟨.nibble 0x3#4, 1#4, 100#16⟩,
   ⟨.nibble 0x3#4, 2#4, 40000#16⟩,
   ⟨.nibble 0x2#4, 3#4, 40000#16⟩,
   ⟨.byte 0x28#8, 4#4, 40000#16⟩,
   ⟨.byte 0x0C#8, 6#4, 40000#16⟩,
   ⟨.byte 0x01#8, 8#4, 40000#16⟩,
   ⟨.byte 0x02#8, 10#4, 40000#16⟩,
   ⟨.byte 0x06#8, 12#4, 40000#16⟩]

/-- The nibbles of a controller-side value in the order they are sent (R61, R84). -/
def lcdNibbles : LcdWord → List Nibble
  | .nibble n => [n]
  | .byte b => [highNibble b, lowNibble b]

/-- The transmissions of a list of nibbles as INIT makes them: index rising from `k`, the row's wait after each, no
phase statement (R151). -/
def scriptOps (c : Config) (waitUs : Micros) : BitVec 4 → List Nibble → List MicroOp
  | _, [] => []
  | k, n :: ns => tx c n (.fixed (cyclesOf c waitUs)) k true ++ scriptOps c waitUs (k + 1#4) ns

/-- The micro-operations of one row of the init script, as INIT's list holds them. -/
def rowOps (c : Config) (r : RomRow) : List MicroOp := scriptOps c r.waitUs r.nib (lcdNibbles r.word)

/-- The micro-operation list of INIT, loaded whole at acceptance (R23, R151). -/
def initOps (c : Config) : List MicroOp :=
  [.wait (cyclesOf c c.powerOnUs), .req (.set .rs false) 15#4] ++ initRom.flatMap (rowOps c) ++ [.note .initDone]

end Sys2Proof.Machine
end

