-- ==== Sys2Proof/Machine/Flags.lean ====
section
/-! DEFINITION. The status word and the other outputs (10 R20, R33), the encodings of the fields, the checks on the
mirrors (60 R193 to R196), and the request a state presents on the line port (20 R51 to R53). -/

namespace Sys2Proof.Machine

/-! ### Field encodings -/

/-- R25. -/
def SeqState.code : SeqState → BitVec 2
  | .idle => 0#2
  | .busy => 1#2
  | .failed => 2#2

/-- R190. -/
def ErrCode.code : ErrCode → BitVec 3
  | .none => 0#3
  | .ioError => 1#3
  | .illegalCommand => 2#3
  | .modeError => 3#3
  | .phaseError => 4#3
  | .unsupportedInput => 5#3

/-- R26. -/
def RegMode.code : RegMode → BitVec 2
  | .unknown => 0#2
  | .instruction => 1#2
  | .data => 2#2

/-- R27. -/
def Phase.code : Phase → BitVec 2
  | .unknown => 0#2
  | .even => 1#2
  | .odd => 2#2

/-- R30. -/
def OpKind.code : OpKind → BitVec 2
  | .set => 0#2
  | .setv => 1#2
  | .get => 2#2
  | .dir => 3#2

/-- R52. -/
def LineId.code : LineId → BitVec 3
  | .e => 0#3
  | .rs => 1#3
  | .d4 => 2#3
  | .d5 => 3#3
  | .d6 => 4#3
  | .d7 => 5#3
  | .bus => 6#3

/-- `ERR_LINE`: a line identifier, 7 for none (R33, R52). -/
def errLineCode : Option LineId → BitVec 3
  | some l => l.code
  | none => 7#3

/-- R32. -/
def Shadow.code : Shadow → BitVec 2
  | .low => 0#2
  | .high => 1#2
  | .x => 2#2

/-- R32. -/
def LineDir.code : LineDir → BitVec 2
  | .output => 0#2
  | .input => 1#2
  | .x => 2#2

/-- The shadow of a line that was made to hold `v` (R32). -/
def Shadow.ofBool : Bool → Shadow
  | false => .low
  | true => .high

/-- The mode an RS value selects: "Instruction register = RS line value 0, Data register = RS line value 1" (R11). -/
def RegMode.ofRs : Bool → RegMode
  | false => .instruction
  | true => .data

/-- The effect of one strobe outside INIT on the phase mirror; UNKNOWN stays UNKNOWN (R120). -/
def Phase.toggle : Phase → Phase
  | .unknown => .unknown
  | .even => .odd
  | .odd => .even

/-- `sat_inc32` (R14). -/
def satInc32 (v : BitVec 32) : BitVec 32 := if v = BitVec.allOnes 32 then v else v + 1#32

/-! ### The status word -/

/-- The status word of R33, most significant field first. -/
def status (s : State) : BitVec 32 :=
  0#6 ++ (s.d7dir.code ++ (s.rsSh.code ++ (s.eSh.code ++ (s.errNib ++ (errLineCode s.errLine ++ (s.errOp.code ++
    (BitVec.ofBool s.skipped ++ (BitVec.ofBool s.initDone ++ (s.phase.code ++ (s.mode.code ++
      (s.err.code ++ s.st.code)))))))))))

/-- `cmd_ready`: "`1` exactly when `S.st = IDLE`" (R20). -/
def cmdReady (s : State) : Bool := s.st == .idle

/-! ### The line port -/

/-- The kind of a request (R51). -/
def LineReq.kind : LineReq → OpKind
  | .set _ _ => .set
  | .setv _ => .setv
  | .get _ => .get
  | .dirIn _ => .dir
  | .dirOut _ _ => .dir

/-- The line of a request (R51). -/
def LineReq.line : LineReq → LineId
  | .set l _ => l
  | .setv _ => .bus
  | .get l => l
  | .dirIn l => l
  | .dirOut l _ => l

/-- Packing of a SETV vector: the last element is bit 0 (R53). -/
def packVec : List Bool → BitVec 4 → BitVec 4
  | [], acc => acc
  | b :: bs, acc => packVec bs ((acc <<< 1) ||| (BitVec.ofBool b).setWidth 4)

/-- `lp_req_val` (R51). -/
def LineReq.val : LineReq → BitVec 4
  | .set _ v => (BitVec.ofBool v).setWidth 4
  | .setv vec => packVec vec 0#4
  | .get _ => 0#4
  | .dirIn _ => 1#4
  | .dirOut _ v => 0#2 ++ (BitVec.ofBool v ++ 0#1)

/-- The request a micro-operation issues, if it is one that issues a request (R15, R125). -/
def MicroOp.request : MicroOp → Option LineReq
  | .req r _ => some r
  | .restore _ _ => some (.dirOut .d7 false)
  | .wait _ => none
  | .note _ => none
  | .rom _ => none

/-- The request the block presents in this cycle, `lp_req_valid = 1` exactly when there is one: the next µop is a
request, it has not been issued, and no wait is running (R24, R51, R236). While there is none the request fields have no
value (log entry 14). -/
def lineRequest (s : State) : Option LineReq :=
  match s.st, s.pending, s.tmr with
  | .busy, none, 0 => s.seq.head?.bind MicroOp.request
  | _, _, _ => none

/-- The port encoding of a request: `lp_req_op`, `lp_req_line`, `lp_req_val` (R51). -/
structure LinePort where
  op : BitVec 2
  line : BitVec 3
  val : BitVec 4
deriving DecidableEq, Repr

def LineReq.port (r : LineReq) : LinePort := ⟨r.kind.code, r.line.code, r.val⟩

/-- The outputs of R20, all functions of the registered state. -/
structure PortOutput where
  cmdReady : Bool
  status : BitVec 32
  polls : BitVec 32
  lpReq : Option LinePort
deriving DecidableEq, Repr

/-- The outputs in a state; reading them changes nothing (R20, R245). -/
def outputs (s : State) : PortOutput :=
  ⟨Machine.cmdReady s, Machine.status s, s.polls, (lineRequest s).map LineReq.port⟩

/-! ### The checks at acceptance -/

/-- `mode_check_fails(c, S.mode)` (R193). -/
def modeCheckFails (m : RegMode) : Instr → Bool
  | .init => false
  | .selIr => false
  | .selDr => false
  | .strobe _ => m == .unknown
  | .sendNibble _ _ _ => m == .unknown
  | .sendByte _ _ _ => m == .unknown
  | .writeChar _ _ _ => m != .data
  | .lcdFunctionSet8bitNibble => false
  | .lcdFunctionSet4bitNibble => false
  | .lcdFunctionSet4bit2line5x8 => false
  | .lcdDisplayOnCursorOffBlinkOff => false
  | .lcdClearDisplay => false
  | .lcdReturnHome => false
  | .lcdEntryModeIncNoshift => false

/-- `phase_check_fails(c, S.phase)` (R194). -/
def phaseCheckFails (p : Phase) : Instr → Bool
  | .init => false
  | .selIr => p == .odd
  | .selDr => p == .odd
  | .strobe _ => false
  | .sendNibble sync _ _ => sync == .busyPoll && p != .odd
  | .sendByte _ _ _ => p == .odd
  | .writeChar _ _ _ => p == .odd
  | .lcdFunctionSet8bitNibble => false
  | .lcdFunctionSet4bitNibble => false
  | .lcdFunctionSet4bit2line5x8 => false
  | .lcdDisplayOnCursorOffBlinkOff => false
  | .lcdClearDisplay => false
  | .lcdReturnHome => false
  | .lcdEntryModeIncNoshift => false

/-- The character check of R195. -/
def unsupportedInput (c : Config) : Instr → Bool
  | .writeChar _ _ ch => c.policy == .fail && !ch.ule 0x7F#8
  | _ => false

/-- The error a command is refused with at acceptance, the first in the order `ILLEGAL_COMMAND`, `MODE_ERROR`,
`PHASE_ERROR`, `UNSUPPORTED_INPUT` (R196), or none. -/
def acceptError (i : Instr) (s : State) : Option ErrCode :=
  if !i.wellFormed s.cfg.busWidth then some .illegalCommand
  else if modeCheckFails s.mode i then some .modeError
  else if phaseCheckFails s.phase i then some .phaseError
  else if unsupportedInput s.cfg i then some .unsupportedInput
  else none

end Sys2Proof.Machine
end

