-- ==== Sys2Proof/Machine/Ops.lean ====
section
/-! DEFINITION. The named operations on the state: taking an error (60 R197), reset (70 R220), acceptance (60 R196),
issuing a line op and taking its answer (20 R51, 42 R125), and the cycle's inputs. -/

namespace Sys2Proof.Machine

/-! ### Errors and reset -/

/-- `raise Error(code, op, line, nib)` (R197): the block's one exception entry. The op, the line and the index are
recorded for IO_ERROR only. -/
def raiseError (code : ErrCode) (op : OpKind) (line : Option LineId) (nib : BitVec 4) (s : State) : State :=
  { s with
    err := code
    errOp := if code = .ioError then op else .set
    errLine := if code = .ioError then line else none
    errNib := if code = .ioError then nib else 15#4
    phase := if code = .ioError then .unknown else s.phase
    seq := []
    tmr := 0
    pending := none
    st := .failed }

/-- An error of the checks at acceptance: no line op, no nibble (R190, R196). -/
def refuse (code : ErrCode) (s : State) : State := raiseError code .set none 15#4 s

/-- Reset, the only way out of FAILED (R198, R220): every field takes its reset value (R36). The parameters, the inputs
to come and the cycle count are not the block's state and stay (log entry 4). -/
def resetBlock (s : State) : State := { State.resetWith s.cfg with inputs := s.inputs, cycle := s.cycle }

/-! ### Acceptance -/

/-- The first two lines of `accept(w)` (R196): every accepted command clears `S.skipped` (R29) and is latched (R21). -/
def latchCommand (w : CmdWord) (s : State) : State := { s with skipped := false, cmd := w }

/-- `S.seq <- expansion; S.st <- BUSY` (R196). -/
def startSeq (ops : List MicroOp) (s : State) : State := { s with seq := ops, st := .busy }

/-- Run the checks of R196 for a decoded command, then its effect. -/
def checkThen (i : Instr) (effect : State → State) (s : State) : State :=
  match acceptError i s with
  | some e => refuse e s
  | none => effect s

/-- Send a controller-side value as the init script does (log entry 6), with the index and the wait in hand (log entry 7): its
transmissions, those INIT's list holds for it (`rowOps`), come before whatever is left in `S.seq` (R84, R150, R151). -/
def sendScripted (word : LcdWord) (s : State) : State :=
  startSeq (scriptOps s.cfg s.row.waitUs s.row.nib (lcdNibbles word) ++ s.seq) s

/-- Take the index and the wait of a row in hand. -/
def latchRow (r : RomRow) (s : State) : State := { s with row := ⟨r.nib, r.waitUs⟩ }

/-! ### Statements that take no cycle -/

/-- The effect of a statement that takes no cycle (R120, R125, R151). -/
def applyNote (b : Note) (s : State) : State :=
  match b with
  | .togglePhase => { s with phase := s.phase.toggle }
  | .clearPolls => { s with polls := 0#32 }
  | .initDone => { s with phase := .even, initDone := true }

/-! ### Line ops -/

/-- Issue a request: it becomes the outstanding one (R24), and a GET counts as a poll (R31, R125). -/
def issue (r : LineReq) (s : State) : State :=
  match r with
  | .get _ => { s with pending := some r, polls := satInc32 s.polls }
  | _ => { s with pending := some r }

/-- What an `OK` answer (or a `VAL`) writes: the line's shadow (R32) and, for RS, the mode mirror (R100, R101). -/
def applyOk (r : LineReq) (s : State) : State :=
  match r with
  | .set .e v => { s with eSh := Shadow.ofBool v }
  | .set .rs v => { s with rsSh := Shadow.ofBool v, mode := RegMode.ofRs v }
  | .dirIn .d7 => { s with d7dir := .input }
  | .dirOut .d7 _ => { s with d7dir := .output }
  | _ => s

/-- What an `ERR` answer writes before the error is raised: the shadow is X (R32), and the mode mirror is UNKNOWN after
an RS write (R100, R101). -/
def applyErr (r : LineReq) (s : State) : State :=
  match r with
  | .set .e _ => { s with eSh := .x }
  | .set .rs _ => { s with rsSh := .x, mode := .unknown }
  | .dirIn .d7 => { s with d7dir := .x }
  | .dirOut .d7 _ => { s with d7dir := .x }
  | _ => s

/-- The failure lies inside a busy poll, where RESTORE_D7 is attempted once before the error is raised: the switch to
input, or a read (R125, R197). -/
def LineReq.restores : LineReq → Bool
  | .dirIn .d7 => true
  | .get .d7 => true
  | _ => false

/-- The failing op of nibble `k` was answered `ERR` (R191, R197). Inside a busy poll the restore attempt comes first and
the block stays BUSY until it is answered (R125, log entry 12). -/
def failRequest (r : LineReq) (k : BitVec 4) (s : State) : State :=
  if r.restores then { applyErr r s with seq := [.restore r.kind k], pending := none }
  else raiseError .ioError r.kind (some r.line) k (applyErr r s)

/-- RESTORE_D7 was answered: "S.d7dir <- (r = OK) ? OUT : X", and the first error is raised whatever the answer
(R125, R201). -/
def finishRestore (first : OpKind) (k : BitVec 4) (isErr : Bool) (s : State) : State :=
  raiseError .ioError first (some .d7) k { s with d7dir := if isErr then .x else .output }

/-- The poll reads the line again: a GET that answered 1, busy (R34, R125). -/
def pollsAgain (r : LineReq) (val : Bool) : Bool :=
  match r with
  | .get _ => val
  | _ => false

/-! ### The input ports -/

/-- The input ports in this cycle: the next of State's own list, a free draw when that is used up (log entry 3). -/
def portInput (s : State) : PortInput :=
  match s.inputs with
  | p :: _ => p
  | [] => Config.freeInput s.cycle

/-- One clock edge passes. -/
def nextCycle (s : State) : State := { s with inputs := s.inputs.tail, cycle := s.cycle + 1 }

end Sys2Proof.Machine
end

