-- ==== Sys2Proof/Machine/InitSequencer.lean ====
section
/-! DEFINITION. The init sequencer: INIT (43 R151), and the seven controller-side values it sends (30 R84). "No host
command" has these values; the init script holds them (43 R150), and to execute one is to transmit it (log entry 6). -/

namespace Sys2Proof.Machine

/-- INIT (R151): `S.init_done <- 0` and `S.phase <- UNKNOWN` at acceptance, and `S.seq` loaded with the whole expansion
(R23): the power-on wait, the RS write, the 14 nibbles of the ROM, and at the end `S.phase <- EVEN` and
`S.init_done <- 1`. -/
def execInit (s : State) : Host.Outcome State Fault Refusal :=
  .next (checkThen .init (fun t => startSeq (initOps t.cfg) { t with initDone := false, phase := .unknown }) s)

/-- The nibble 0011 (R84; ROM rows k = 0, 1, 2). -/
def execLcdFunctionSet8bitNibble (s : State) : Host.Outcome State Fault Refusal :=
  .next (sendScripted (.nibble 0x3#4) s)

/-- The nibble 0010 (R84; ROM row k = 3). -/
def execLcdFunctionSet4bitNibble (s : State) : Host.Outcome State Fault Refusal :=
  .next (sendScripted (.nibble 0x2#4) s)

/-- The byte 0x28 (R84; ROM rows k = 4, 5). -/
def execLcdFunctionSet4bit2line5x8 (s : State) : Host.Outcome State Fault Refusal :=
  .next (sendScripted (.byte 0x28#8) s)

/-- The byte 0x0C (R84; ROM rows k = 6, 7). -/
def execLcdDisplayOnCursorOffBlinkOff (s : State) : Host.Outcome State Fault Refusal :=
  .next (sendScripted (.byte 0x0C#8) s)

/-- The byte 0x01 (R84; ROM rows k = 8, 9). -/
def execLcdClearDisplay (s : State) : Host.Outcome State Fault Refusal :=
  .next (sendScripted (.byte 0x01#8) s)

/-- The byte 0x02 (R84; ROM rows k = 10, 11). -/
def execLcdReturnHome (s : State) : Host.Outcome State Fault Refusal :=
  .next (sendScripted (.byte 0x02#8) s)

/-- The byte 0x06 (R84; ROM rows k = 12, 13). -/
def execLcdEntryModeIncNoshift (s : State) : Host.Outcome State Fault Refusal :=
  .next (sendScripted (.byte 0x06#8) s)

end Sys2Proof.Machine
end

