-- ==== Sys2Proof/Machine/NibbleTransmitter.lean ====
section
/-! DEFINITION. The nibble transmitter: SEND_NIBBLE and SEND_BYTE (42 R130, R140). -/

namespace Sys2Proof.Machine

/-- SEND_NIBBLE (R130): one TX of index 0. -/
def execSendNibble (sync : Sync) (dly : Micros) (n : Nibble) (s : State) : Host.Outcome State Fault Refusal :=
  .next (checkThen (.sendNibble sync dly n) (startSeq (tx s.cfg n (lastSync s.cfg sync dly) 0#4 false)) s)

/-- SEND_BYTE (R140): two TX, high nibble first. -/
def execSendByte (sync : Sync) (dly : Micros) (b : Byte) (s : State) : Host.Outcome State Fault Refusal :=
  .next (checkThen (.sendByte sync dly b) (startSeq (byteOps s.cfg (highNibble b) (lowNibble b) sync dly)) s)

end Sys2Proof.Machine
end

