-- ==== Sys2Proof/Machine/PulseTimer.lean ====
section
/-! DEFINITION. The pulse timer: STROBE (41 R111). -/

namespace Sys2Proof.Machine

/-- STROBE (R111): one STROBE_SEQ with index 15, then a known phase toggles. -/
def execStrobe (dly : Micros) (s : State) : Host.Outcome State Fault Refusal :=
  .next (checkThen (.strobe dly) (startSeq (strobeSeq (strobeHold s.cfg dly) 15#4 ++ [.note .togglePhase])) s)

end Sys2Proof.Machine
end

