-- ==== Sys2Proof/Machine/RegisterSelect.lean ====
section
/-! DEFINITION. Register selection: SEL_IR and SEL_DR (40 R100, R101). A meaning is what acceptance does: the checks of
60 R196 and then the micro-operation list; the cycles that follow run the list (Machine/Cycle.lean). -/

namespace Sys2Proof.Machine

/-- SEL_IR (R100): `SET(RS, 0)`; its OK answer sets `S.mode` to INSTRUCTION. -/
def execSelIr (s : State) : Host.Outcome State Fault Refusal :=
  .next (checkThen .selIr (startSeq [.req (.set .rs false) 15#4]) s)

/-- SEL_DR (R101): `SET(RS, 1)`; its OK answer sets `S.mode` to DATA. -/
def execSelDr (s : State) : Host.Outcome State Fault Refusal :=
  .next (checkThen .selDr (startSeq [.req (.set .rs true) 15#4]) s)

end Sys2Proof.Machine
end

