-- ==== Sys2Proof/Machine/TextWriter.lean ====
section
/-! DEFINITION. The text writer: WRITE_CHAR (44 R172). -/

namespace Sys2Proof.Machine

/-- The effect of a WRITE_CHAR that passed its checks (R172): two TX, or, for a code the SKIP policy drops,
`S.skipped <- 1`, no line op, and the block stays IDLE (R173, R237). -/
def writeChar (sync : Sync) (dly : Micros) (c : Byte) (s : State) : State :=
  match charNibbles s.cfg c with
  | some (h, l) => startSeq (byteOps s.cfg h l sync dly) s
  | none => { s with skipped := true }

/-- WRITE_CHAR (R172). -/
def execWriteChar (sync : Sync) (dly : Micros) (c : Byte) (s : State) : Host.Outcome State Fault Refusal :=
  .next (checkThen (.writeChar sync dly c) (writeChar sync dly c) s)

end Sys2Proof.Machine
end

