-- ==== Sys2Proof/Machine/Dispatch.lean ====
section
/-! DEFINITION. One arm per row of spec/opcode_table.json. -/

namespace Sys2Proof.Machine

def exec (i : Instr) (s : State) : Host.Outcome State Fault Refusal :=
  match i with
  | .init => Sys2Proof.Machine.execInit s
  | .selIr => Sys2Proof.Machine.execSelIr s
  | .selDr => Sys2Proof.Machine.execSelDr s
  | .strobe dly => Sys2Proof.Machine.execStrobe dly s
  | .sendNibble sync dly n => Sys2Proof.Machine.execSendNibble sync dly n s
  | .sendByte sync dly b => Sys2Proof.Machine.execSendByte sync dly b s
  | .writeChar sync dly c => Sys2Proof.Machine.execWriteChar sync dly c s
  | .lcdFunctionSet8bitNibble => Sys2Proof.Machine.execLcdFunctionSet8bitNibble s
  | .lcdFunctionSet4bitNibble => Sys2Proof.Machine.execLcdFunctionSet4bitNibble s
  | .lcdFunctionSet4bit2line5x8 => Sys2Proof.Machine.execLcdFunctionSet4bit2line5x8 s
  | .lcdDisplayOnCursorOffBlinkOff => Sys2Proof.Machine.execLcdDisplayOnCursorOffBlinkOff s
  | .lcdClearDisplay => Sys2Proof.Machine.execLcdClearDisplay s
  | .lcdReturnHome => Sys2Proof.Machine.execLcdReturnHome s
  | .lcdEntryModeIncNoshift => Sys2Proof.Machine.execLcdEntryModeIncNoshift s

end Sys2Proof.Machine
end

