-- ==== Sys2Proof/Machine/Cycle.lean ====
section
/-! DEFINITION. One clock cycle of the block (70 R236): acceptance (60 R196), the micro-operation in progress, and what
happens at the end of a micro-operation. -/

namespace Sys2Proof.Machine

/-- Execute a controller-side value with the index and the wait of a row of the init script: decode it and run the
instruction (R84, R150; log entries 5 to 7). -/
def runRow (r : RomRow) (s : State) : Host.Outcome State Fault Refusal :=
  match decodeLcd r.word with
  | .ok i => exec i (latchRow r s)
  | .error _ => .refused .scriptValueUnlisted

/-- A micro-operation has ended and `ops` is left of the list (R23, R236): statements and `WAIT(0)` take no cycle, a
`WAIT(n)` loads the wait counter, a request waits to be presented in the next cycle, a controller-side value that
stands by itself is executed (log entry 5), and an empty list completes the command. -/
def settle : List MicroOp → State → Host.Outcome State Fault Refusal
  | [], s => .next { s with seq := [], st := .idle }
  | .note b :: ops, s => settle ops (applyNote b s)
  | .wait 0 :: ops, s => settle ops s
  | .wait (n + 1) :: ops, s => .next { s with seq := .wait (n + 1) :: ops, tmr := n + 1 }
  | .req r k :: ops, s => .next { s with seq := .req r k :: ops }
  | .restore op k :: ops, s => .next { s with seq := .restore op k :: ops }
  | .rom r :: ops, s => runRow r { s with seq := ops }

/-- Run a decoded instruction at the end of which the block is BUSY with a list, or not (R196, R237). -/
def execThenSettle (i : Instr) (s : State) : Host.Outcome State Fault Refusal :=
  match exec i s with
  | .next t => if t.st = .busy then settle t.seq t else .next t
  | .fault f => .fault f
  | .refused r => .refused r

/-- `accept(w)` (R196). -/
def accept (w : CmdWord) (s : State) : Host.Outcome State Fault Refusal :=
  match decodeCmd s.cfg.busWidth w with
  | .ok i => execThenSettle i (latchCommand w s)
  | .error _ => .next (refuse .illegalCommand (latchCommand w s))

/-- The outstanding request is answered in this cycle (R51, R58, R236). The port carries no tag, so whatever answer arrives is
taken for it, also one that answers a request which a reset abandoned earlier: DESIGN CHOICE, unsafe (log entry 21). -/
def answer (p : PortInput) (s : State) : Host.Outcome State Fault Refusal :=
  match s.seq with
  | .req r k :: ops =>
    if p.respErr then .next (failRequest r k s)
    else if pollsAgain r p.respVal then .next { s with pending := none }
    else settle ops (applyOk r { s with pending := none })
  | .restore op k :: _ => .next (finishRestore op k p.respErr s)
  | _ => .next { s with pending := none }

/-- The list without the wait that has just ended. -/
def dropWait : List MicroOp → List MicroOp
  | .wait _ :: ops => ops
  | ops => ops

/-- One cycle with `S.st = BUSY` (R204, R236): an outstanding request is answered or not (log entry 21 on whose answer it is),
a running wait counts down, or the next request is presented. -/
def busyCycle (p : PortInput) (s : State) : Host.Outcome State Fault Refusal :=
  match s.pending, s.tmr with
  | some _, _ => if p.respValid then answer p s else .next s
  | none, n + 2 => .next { s with tmr := n + 1 }
  | none, 1 => settle (dropWait s.seq) { s with tmr := 0 }
  | none, 0 =>
    match lineRequest s with
    | some r => .next (issue r s)
    | none => settle s.seq s

/-- One clock cycle with the given inputs: `rst` beats acceptance and answers (R196, R220); a command is accepted exactly
when it is presented and the block is IDLE (R21); FAILED does nothing (R198). -/
def clock (p : PortInput) (s : State) : Host.Outcome State Fault Refusal :=
  if p.rst then .next (resetBlock s)
  else
    match s.st with
    | .idle => if p.cmdValid then accept p.cmdData s else .next s
    | .busy => busyCycle p s
    | .failed => .next s

/-- The init-script row that sends a controller-side value: the first of the ROM that holds it, else a row with index 15
and no wait (log entry 8). -/
def scriptRowFor (l : LcdWord) : RomRow :=
  match initRom.find? (fun r => r.word == l) with
  | some r => r
  | none => ⟨l, 15#4, 0#16⟩

/-- The state in which the very next cycle takes this encoded instruction: a host command presented to an IDLE block, or
a controller-side value by itself in the list of a BUSY one (log entry 8). -/
def presentNext (e : Encoded) (s : State) : State :=
  match e with
  | .cmd w =>
    { s with
      st := .idle, seq := [], tmr := 0, pending := none
      inputs := { PortInput.quiet with cmdValid := true, cmdData := w } :: s.inputs }
  | .lcd l =>
    { s with
      st := .busy, seq := [.rom (scriptRowFor l)], tmr := 0, pending := none
      inputs := PortInput.quiet :: s.inputs }

end Sys2Proof.Machine
end

