-- ==== Sys2Proof/Machine/Step.lean ====
section
/-! DEFINITION. One step of the machine is one clock cycle (70 R236; log entry 3). -/

namespace Sys2Proof.Machine

/-- One clock cycle: the inputs of the cycle are sampled and the block takes one edge. -/
def step (s : State) : Host.Outcome State Fault Refusal := clock (portInput s) (nextCycle s)

/-- `s` with the opcode-table word stored where the next step takes its instruction from (log entry 8). -/
def State.withFetchWord (s : State) (nbits w : Nat) : State := presentNext (tableWord nbits w) s

end Sys2Proof.Machine
end

