-- ==== Sys2Proof/Machine/Assembler.lean ====
section
/-! DEFINITION. The assembler syntax and the pseudo-instructions of 30 R86 to R88: from the characters of one line to
the host commands it stands for. -/

namespace Sys2Proof.Machine

/-! ### Characters to tokens -/

inductive Token
  | word (cs : List Char)
  | comma
  | lpar
  | rpar
  | quoted (c : Char)
  | text (cs : List Char)
deriving DecidableEq, Repr

/-- Where the scanner stands: between tokens, in a word, after `'`, after `'c`, or in a string. -/
inductive ScanState
  | gap
  | inWord (rev : List Char)
  | quote
  | quoteChar (c : Char)
  | inText (rev : List Char)
deriving DecidableEq, Repr

def isWordChar (c : Char) : Bool := c.isAlphanum || c == '_' || c == '.'

/-- The token of a single mark, if the character is one. -/
def markToken (c : Char) : Option Token :=
  if c == ',' then some .comma
  else if c == '(' then some .lpar
  else if c == ')' then some .rpar
  else none

/-- Split a line into tokens; `;` begins a comment outside quotes (R86). R87 gives a string no escape: a string ends at the
first `"` after the one that opens it, so none holds a double quote, and `\` is a character like any other: DESIGN CHOICE
(log entry 16). -/
def scan : ScanState → List Char → Option (List Token)
  | .gap, [] => some []
  | .inWord rev, [] => some [.word rev.reverse]
  | .quote, [] => none
  | .quoteChar _, [] => none
  | .inText _, [] => none
  | .gap, c :: cs =>
    if c == ';' then some []
    else if c == ' ' || c == '\t' then scan .gap cs
    else if c == '\'' then scan .quote cs
    else if c == '"' then scan (.inText []) cs
    else if isWordChar c then scan (.inWord [c]) cs
    else (markToken c).bind fun t => (scan .gap cs).map (t :: ·)
  | .inWord rev, c :: cs =>
    if c == ';' then some [.word rev.reverse]
    else if c == ' ' || c == '\t' then (scan .gap cs).map (.word rev.reverse :: ·)
    else if isWordChar c then scan (.inWord (c :: rev)) cs
    else (markToken c).bind fun t => (scan .gap cs).map (fun ts => .word rev.reverse :: t :: ts)
  | .quote, c :: cs => scan (.quoteChar c) cs
  | .quoteChar q, c :: cs => if c == '\'' then (scan .gap cs).map (.quoted q :: ·) else none
  | .inText rev, c :: cs =>
    if c == '"' then (scan .gap cs).map (.text rev.reverse :: ·) else scan (.inText (c :: rev)) cs

/-! ### Numbers and durations -/

def digitValue (c : Char) : Option Nat :=
  if '0' ≤ c ∧ c ≤ '9' then some (c.toNat - '0'.toNat)
  else if 'a' ≤ c ∧ c ≤ 'f' then some (c.toNat - 'a'.toNat + 10)
  else if 'A' ≤ c ∧ c ≤ 'F' then some (c.toNat - 'A'.toNat + 10)
  else none

/-- The value of a digit list in a base, from the value of what stands before it. -/
def digitsValue (base : Nat) : Nat → List Char → Option Nat
  | acc, [] => some acc
  | acc, c :: cs =>
    (digitValue c).bind fun d => if d < base then digitsValue base (acc * base + d) cs else none

/-- "numbers are decimal, or hexadecimal with `0x`" (R86). -/
def number : List Char → Option Nat
  | [] => none
  | '0' :: 'x' :: c :: cs => digitsValue 16 0 (c :: cs)
  | cs => digitsValue 10 0 cs

/-- A number with a decimal part, as its digits' value and the number of decimals. -/
def decimalNumber (cs : List Char) : Option (Nat × Nat) :=
  match cs.span (· != '.') with
  | (whole, []) => (number whole).map (·, 0)
  | (whole, _ :: part) =>
    if whole.isEmpty || part.isEmpty then none
    else (digitsValue 10 0 (whole ++ part)).map (·, part.length)

/-- A duration in microseconds: "a unit suffix `us` or `ms` (1 ms = 1000 µs, and the value in µs must be an integer 0 to
65535)" (R86). A bare 0 is taken too, since the rule itself writes `FIXED(0)` and `BUSY(0)` (log entry 16). -/
def duration (cs : List Char) : Option Micros :=
  let scaled (digits : List Char) (unit : Nat) : Option Micros :=
    (decimalNumber digits).bind fun (v, decimals) =>
      if (v * unit) % 10 ^ decimals = 0 ∧ (v * unit) / 10 ^ decimals ≤ 65535 then
        some (BitVec.ofNat 16 ((v * unit) / 10 ^ decimals))
      else none
  match cs.reverse with
  | 's' :: 'u' :: rev => scaled rev.reverse 1
  | 's' :: 'm' :: rev => scaled rev.reverse 1000
  | ['0'] => some 0#16
  | _ => none

/-! ### Operands -/

def isWord (s : String) (cs : List Char) : Bool := cs == s.toList

/-- `, FIXED(<d>)`, nothing at all for `FIXED(0)`, `, BUSY(<d>)`, or `, BUSY` for `BUSY(0)` (R86). -/
def syncOperand : List Token → Option (Sync × Micros)
  | [] => some (.fixedDelay, 0#16)
  | [.comma, .word k] => if isWord "BUSY" k then some (.busyPoll, 0#16) else none
  | [.comma, .word k, .lpar, .word d, .rpar] =>
    if isWord "FIXED" k then (duration d).map (.fixedDelay, ·)
    else if isWord "BUSY" k then (duration d).map (.busyPoll, ·)
    else none
  | _ => none

/-- A number that fits in `w` bits. -/
def operand (w : Nat) (cs : List Char) : Option (BitVec w) :=
  (number cs).bind fun v => if v < 2 ^ w then some (BitVec.ofNat w v) else none

/-- "c is a code 0..255 or a quoted character", "legal only for code points 0 to 255" (R86). -/
def charOperand : Token → Option Byte
  | .word cs => operand 8 cs
  | .quoted c => if c.toNat ≤ 255 then some (BitVec.ofNat 8 c.toNat) else none
  | _ => none

/-- The code WRITE_TEXT writes for a character: 0x80 for a code point above 255 (R87). -/
def textCode (c : Char) : Byte := if c.toNat ≤ 255 then BitVec.ofNat 8 c.toNat else 0x80#8

/-- WRITE_TEXT: "`SEL_DR` followed by one `WRITE_CHAR <c>, <sync>` per character of the string, in order" (R87). -/
def writeText (text : List Char) (sync : Sync) (dly : Micros) : List Instr :=
  .selDr :: text.map fun c => .writeChar sync dly (textCode c)

/-- LCD_INSTR: "`SEL_IR` followed by `SEND_BYTE <b>, <sync>`" (R88). -/
def lcdInstr (b : Byte) (sync : Sync) (dly : Micros) : List Instr := [.selIr, .sendByte sync dly b]

/-! ### Lines -/

/-- The commands of a line's tokens (R86 to R88). `SEND_NIBBLE` takes `BUSY` only without a duration. -/
def assembleTokens : List Token → Option (List Instr)
  | [.word m] =>
    if isWord "INIT" m then some [.init]
    else if isWord "SEL_IR" m then some [.selIr]
    else if isWord "SEL_DR" m then some [.selDr]
    else if isWord "STROBE" m then some [.strobe 0#16]
    else none
  | .word m :: .word x :: ops =>
    if isWord "STROBE" m then
      if ops.isEmpty then (duration x).bind fun d => if d = 0#16 then none else some [.strobe d] else none
    else
      (syncOperand ops).bind fun (sync, d) =>
        if isWord "SEND_NIBBLE" m then
          if sync = .busyPoll ∧ ops.length ≠ 2 then none
          else (operand 4 x).map fun n => [.sendNibble sync d n]
        else if isWord "SEND_BYTE" m then (operand 8 x).map fun b => [.sendByte sync d b]
        else if isWord "WRITE_CHAR" m then (operand 8 x).map fun c => [.writeChar sync d c]
        else if isWord "LCD_INSTR" m then (operand 8 x).map fun b => lcdInstr b sync d
        else none
  | .word m :: .quoted q :: ops =>
    if isWord "WRITE_CHAR" m then
      (syncOperand ops).bind fun (sync, d) => (charOperand (.quoted q)).map fun c => [.writeChar sync d c]
    else none
  | .word m :: .text cs :: ops =>
    if isWord "WRITE_TEXT" m then (syncOperand ops).map fun (sync, d) => writeText cs sync d else none
  | _ => none

/-- The commands one line of assembly stands for, none where the line is not of the syntax of R86 to R88. -/
def assemble (line : List Char) : Option (List Instr) := (scan .gap line).bind assembleTokens

end Sys2Proof.Machine
end

