-- ==== Sys2Proof/Safety.lean ====
section
/-! DEFINITION. What counts as a legal state of the block, and the vocabulary claims about whole commands use: runs,
request traces, what the environment answers, and what the controller side of the lines latches. -/

namespace Sys2Proof.Machine

/-! ### Legal states -/

/-- A nibble index a command can have: 0 to 13, or 15 for none (R30). -/
def nibLegal (k : BitVec 4) : Bool := k != 14#4

/-- A row that the sequencer can send by itself: a listed value (R84) with legal indices. -/
def rowLegal (r : RomRow) : Bool :=
  (match decodeLcd r.word with
    | .ok _ => true
    | .error _ => false)
  && nibLegal r.nib
  && (match r.word with
    | .nibble _ => true
    | .byte _ => nibLegal (r.nib + 1#4))

/-- The list goes on with the switch of D7 to input that begins a poll (R125). -/
def startsPoll : List MicroOp → Bool
  | .req (.dirIn .d7) _ :: _ => true
  | _ => false

/-- The list of micro-operations respects the line contracts, given whether E is asserted and whether D7 is an input
before it: E is raised and lowered in pairs with only a wait between (R110, R113), D7 is an input only from `DIR(D7, IN)`
to `DIR(D7, OUT, 0)` with only GET between (R54, R128), every SETV has `BUS_WIDTH` elements (R55), only the requests of
R54 occur, `S.polls` is cleared right before `DIR(D7, IN)` (R125), and INIT's closing statements end the list (R151). -/
def planLegal (bw : BusWidth) : Bool → Bool → List MicroOp → Bool
  | e, d7in, [] => !e && !d7in
  | e, d7in, .note .togglePhase :: ops => !e && !d7in && planLegal bw e d7in ops
  | e, d7in, .note .clearPolls :: ops => !e && !d7in && startsPoll ops && planLegal bw e d7in ops
  | e, d7in, .note .initDone :: ops => !e && !d7in && ops.isEmpty
  | e, d7in, .wait _ :: ops => !d7in && planLegal bw e d7in ops
  | e, d7in, .rom r :: ops => !e && !d7in && rowLegal r && planLegal bw e d7in ops
  | e, _, .restore _ k :: ops => bw.busyReadback && !e && nibLegal k && ops.isEmpty
  | e, d7in, .req r k :: ops =>
    nibLegal k &&
    match r with
    | .set .e true => !e && !d7in && planLegal bw true false ops
    | .set .e false => e && !d7in && planLegal bw false false ops
    | .set .rs _ => !e && !d7in && planLegal bw false false ops
    | .set .d7 _ => bw.busyReadback && !e && !d7in && planLegal bw false false ops
    | .setv vec => vec.length == bw.lines && !e && !d7in && planLegal bw false false ops
    | .dirIn .d7 => bw.busyReadback && !e && !d7in && planLegal bw false true ops
    | .get .d7 => bw.busyReadback && !e && d7in && planLegal bw false true ops
    | .dirOut .d7 v => bw.busyReadback && !e && d7in && !v && planLegal bw false false ops
    | _ => false

/-- Where a BUSY block stands in its list (R23, R24, R236): at a running wait, or at a request that is outstanding or
about to be presented. -/
def positionLegal (s : State) : Bool :=
  match s.seq with
  | .wait n :: _ => decide (1 ≤ s.tmr) && decide (s.tmr ≤ n) && s.pending == none
  | .req r _ :: _ => s.tmr == 0 && (s.pending == none || s.pending == some r)
  | .restore _ _ :: _ => s.tmr == 0 && (s.pending == none || s.pending == some (.dirOut .d7 false))
  | _ => false

/-- "`S.seq` is empty and `S.tmr = 0` whenever `S.st` is not `BUSY`" (R23), and then no request is outstanding. -/
def restLegal (s : State) : Bool := s.seq == [] && s.tmr == 0 && s.pending == none

/-- The error fields (R30, R190): an error is recorded exactly in FAILED, and op, line and index only for IO_ERROR. -/
def errLegal (s : State) : Bool :=
  ((s.st == .failed) == (s.err != .none))
  && (s.err == .ioError || (s.errOp == .set && s.errLine == none && s.errNib == 15#4))
  && (s.err != .ioError || (s.errLine != none && nibLegal s.errNib && s.phase == .unknown))

/-- The invariant of the block. Every conjunct is a promise of the spec's prose that every step has to keep. -/
def inv (s : State) : Bool :=
  planLegal s.cfg.busWidth (s.eSh == .high) (s.d7dir == .input) s.seq
  && (if s.st = .busy then positionLegal s else restLegal s)
  && errLegal s
  && (s.cfg.busWidth == .three || s.d7dir == .x)

/-- `S.mode` "records the register the block last selected on the RS line with a successful line op" (R26): it and the
RS shadow say the same. -/
def modeMirrorsRs (s : State) : Bool :=
  match s.rsSh with
  | .low => s.mode == .instruction
  | .high => s.mode == .data
  | .x => s.mode == .unknown

/-- A known phase comes from an INIT that completed with no reset and no later INIT since (R27, R28). -/
def phaseFromInit (s : State) : Bool := s.phase == .unknown || s.initDone

/-- `S.seq` holds the expansion itself (R23): no controller-side value stands in it that is still to be executed (log entry
5). -/
def seqExpanded (s : State) : Bool :=
  s.seq.all fun o =>
    match o with
    | .rom _ => false
    | _ => true

/-! ### Illegal words, from R192's own list -/

/-- "the opcode is 0x0 or 0x8 to 0xF; a reserved bit of the opcode's row in 30_encoding.md rule R76 is 1 (for SEND_NIBBLE
this includes `DATA[7:4] != 0`); `S = 1` with `BUS_WIDTH = 4` on SEND_NIBBLE, SEND_BYTE or WRITE_CHAR; or `S = 1` with
`DLY != 0` on SEND_NIBBLE" (R192). -/
abbrev illegalWord (bw : BusWidth) (w : CmdWord) : Prop :=
  let op := w.extractLsb' 28 4
  let s := w.extractLsb' 27 1
  let rsv := w.extractLsb' 24 3
  let dly := w.extractLsb' 8 16
  let data := w.extractLsb' 0 8
  (op = 0#4 ∨ 8 ≤ op.toNat)
  ∨ ((op = 1#4 ∨ op = 2#4 ∨ op = 3#4) ∧ (s ≠ 0#1 ∨ rsv ≠ 0#3 ∨ dly ≠ 0#16 ∨ data ≠ 0#8))
  ∨ (op = 4#4 ∧ (s ≠ 0#1 ∨ rsv ≠ 0#3 ∨ data ≠ 0#8))
  ∨ (op = 5#4 ∧ (rsv ≠ 0#3 ∨ w.extractLsb' 4 4 ≠ 0#4))
  ∨ ((op = 6#4 ∨ op = 7#4) ∧ rsv ≠ 0#3)
  ∨ ((op = 5#4 ∨ op = 6#4 ∨ op = 7#4) ∧ s = 1#1 ∧ bw = .four)
  ∨ (op = 5#4 ∧ s = 1#1 ∧ dly ≠ 0#16)

/-- A host command, not a controller-side value (R84). -/
def hostCommand : Instr → Bool
  | .init => true
  | .selIr => true
  | .selDr => true
  | .strobe _ => true
  | .sendNibble _ _ _ => true
  | .sendByte _ _ _ => true
  | .writeChar _ _ _ => true
  | .lcdFunctionSet8bitNibble => false
  | .lcdFunctionSet4bitNibble => false
  | .lcdFunctionSet4bit2line5x8 => false
  | .lcdDisplayOnCursorOffBlinkOff => false
  | .lcdClearDisplay => false
  | .lcdReturnHome => false
  | .lcdEntryModeIncNoshift => false

/-- What `S.err` holds after an outcome, if it is a next state. -/
def errAfter : Host.Outcome State Fault Refusal → Option ErrCode
  | .next t => some t.err
  | .fault _ => none
  | .refused _ => none

/-! ### Runs and traces -/

/-- `k` clock cycles from a state. -/
def run (k : Nat) (s : State) : Host.Outcome State Fault Refusal := Host.Core.run core k s

/-- What stands at the ports in each of the next `k` cycles: `ST` and the request presented, if one is. -/
def portLog : Nat → State → List (SeqState × Option LineReq)
  | 0, _ => []
  | k + 1, s =>
    (s.st, lineRequest s) ::
      (match step s with
        | .next t => portLog k t
        | .fault _ => []
        | .refused _ => [])

/-- The line-port requests presented in the next `k` cycles, in order: the trace a test harness asserts (R207). -/
def trace (k : Nat) (s : State) : List LineReq := (portLog k s).filterMap (·.2)

/-! ### What the environment does -/

/-- The host presents a command word. -/
def presents (w : CmdWord) : PortInput := { PortInput.quiet with cmdValid := true, cmdData := w }

/-- An answer `OK`. -/
def answersOk : PortInput := { PortInput.quiet with respValid := true }

/-- An answer `VAL(b)`. -/
def answersVal (b : Bool) : PortInput := { PortInput.quiet with respValid := true, respVal := b }

/-- An answer `ERR`. -/
def answersErr : PortInput := { PortInput.quiet with respValid := true, respErr := true }

/-- The cycles of one request: it is presented, `late` more cycles pass, and the answer comes (R236: in some cycle
`r >= c + 1`). -/
def answered (late : Nat) (a : PortInput) : List PortInput :=
  PortInput.quiet :: (List.replicate late PortInput.quiet ++ [a])

/-- The input cycles in which an environment answers every line op of a list without error: `late` gives the extra
cycles of each op in turn (0 when it runs out), and a poll reads busy once for each element of `busy`, that many cycles
late, before it reads not busy. -/
def okInputs (busy : List Nat) : List MicroOp → List Nat → List PortInput
  | [], _ => []
  | .wait n :: ops, late => List.replicate n PortInput.quiet ++ okInputs busy ops late
  | .req (.get _) _ :: ops, late =>
    busy.flatMap (fun d => answered d (answersVal true)) ++
      (answered (late.headD 0) (answersVal false) ++ okInputs busy ops late.tail)
  | .req _ _ :: ops, late => answered (late.headD 0) answersOk ++ okInputs busy ops late.tail
  | .restore _ _ :: ops, late => okInputs busy ops late
  | .note _ :: ops, late => okInputs busy ops late
  | .rom _ :: ops, late => okInputs busy ops late

/-- The ports of a BUSY block through one request that is answered `late` cycles later than the first possible: it is
presented in the first cycle only (R236). -/
def asked (late : Nat) (r : LineReq) : List (SeqState × Option LineReq) :=
  (.busy, some r) :: List.replicate (late + 1) (.busy, none)

/-- The ports of a BUSY block through a running wait of `n` cycles (R236). -/
def waiting (n : Nat) : List (SeqState × Option LineReq) := List.replicate n (.busy, none)

/-- The ports through the cycles of okInputs, cycle by cycle, as R236 times the requests and waits of the list. -/
def okSchedule (busy : List Nat) : List MicroOp → List Nat → List (SeqState × Option LineReq)
  | [], _ => []
  | .wait n :: ops, late => waiting n ++ okSchedule busy ops late
  | .req (.get l) _ :: ops, late =>
    busy.flatMap (fun d => asked d (.get l)) ++ (asked (late.headD 0) (.get l) ++ okSchedule busy ops late.tail)
  | .req r _ :: ops, late => asked (late.headD 0) r ++ okSchedule busy ops late.tail
  | .restore _ _ :: ops, late => okSchedule busy ops late
  | .note _ :: ops, late => okSchedule busy ops late
  | .rom _ :: ops, late => okSchedule busy ops late

/-- The requests of a list when no line op fails and each poll reads busy `n` times. -/
def okRequests (n : Nat) : List MicroOp → List LineReq
  | [] => []
  | .req (.get l) _ :: ops => List.replicate (n + 1) (.get l) ++ okRequests n ops
  | .req r _ :: ops => r :: okRequests n ops
  | .wait _ :: ops => okRequests n ops
  | .restore _ _ :: ops => okRequests n ops
  | .note _ :: ops => okRequests n ops
  | .rom _ :: ops => okRequests n ops

/-- `n` more reads on a poll counter that saturates at `2^32 - 1` (R14, R31). -/
def addPolls (n : Nat) (v : BitVec 32) : BitVec 32 := BitVec.ofNat 32 (min (v.toNat + n) (2 ^ 32 - 1))

/-- The reads of a poll that is busy `n` times (R126). -/
def countReads (r : LineReq) (n : Nat) (s : State) : State :=
  match r with
  | .get _ => { s with polls := addPolls (n + 1) s.polls }
  | _ => s

/-- What a list leaves behind when no line op fails and each poll reads busy `n` times. -/
def okEffect (n : Nat) : List MicroOp → State → State
  | [], s => s
  | .req r _ :: ops, s => okEffect n ops (applyOk r (countReads r n s))
  | .note b :: ops, s => okEffect n ops (applyNote b s)
  | .wait _ :: ops, s => okEffect n ops s
  | .restore _ _ :: ops, s => okEffect n ops s
  | .rom _ :: ops, s => okEffect n ops s

/-! ### Requests of whole transmissions, from R120 and R125 -/

/-- The line ops of one nibble up to the end of its strobe: the data lines, bit 3 first, then E up and down (R120). -/
def nibbleRequests (bw : BusWidth) (n : Nibble) : List LineReq :=
  (match bw with
    | .four => [.setv [n[3], n[2], n[1], n[0]]]
    | .three => [.set .d7 n[3], .setv [n[2], n[1], n[0]]])
  ++ [.set .e true, .set .e false]

/-- The line ops of a busy poll that reads busy `n` times (R125, R126). -/
def pollRequests (n : Nat) : List LineReq :=
  .dirIn .d7 :: (List.replicate (n + 1) (.get .d7) ++ [.dirOut .d7 false])

/-- The data-line writes of one nibble (R53, R60). -/
def dataLineOps : BusWidth → Nat
  | .four => 1
  | .three => 2

/-- `2 L + W` of two nibbles in the table of R238, for a poll of `reads` GETs. -/
def byteCost (c : Config) (reads : Nat) (sync : Sync) (dly : Micros) : Nat :=
  match sync with
  | .fixedDelay =>
    2 * (2 * (dataLineOps c.busWidth + 2)) + 2 * (c.setupCycles + c.holdCycles + cyclesOf c dly)
  | .busyPoll =>
    2 * (2 * (dataLineOps c.busWidth + 2) + 2 + reads) + (2 * (c.setupCycles + c.holdCycles) + cyclesOf c dly)

/-- The cycles for which a command that passed its checks keeps the block BUSY when every answer comes one cycle after its
request: `2 L + W` of the table of R238. A controller-side value is no command and has no row there. -/
def commandCost (c : Config) (reads : Nat) : Instr → Nat
  | .init =>
    2 * (1 + 14 * (dataLineOps c.busWidth + 2)) +
      (cyclesOf c c.powerOnUs + cyclesOf c 4100#16 + cyclesOf c 100#16 + 12 * cyclesOf c 40000#16
        + 14 * (c.setupCycles + c.holdCycles))
  | .selIr => 2 * 1
  | .selDr => 2 * 1
  | .strobe dly => 2 * 2 + (if dly = 0#16 then c.holdCycles else cyclesOf c dly)
  | .sendNibble .fixedDelay dly _ =>
    2 * (dataLineOps c.busWidth + 2) + (c.setupCycles + c.holdCycles + cyclesOf c dly)
  | .sendNibble .busyPoll _ _ => 2 * (dataLineOps c.busWidth + 2 + 2 + reads) + (c.setupCycles + c.holdCycles)
  | .sendByte sync dly _ => byteCost c reads sync dly
  | .writeChar sync dly ch => if 0x7F < ch.toNat ∧ c.policy = .skip then 0 else byteCost c reads sync dly
  | .lcdFunctionSet8bitNibble => 0
  | .lcdFunctionSet4bitNibble => 0
  | .lcdFunctionSet4bit2line5x8 => 0
  | .lcdDisplayOnCursorOffBlinkOff => 0
  | .lcdClearDisplay => 0
  | .lcdReturnHome => 0
  | .lcdEntryModeIncNoshift => 0

/-- The 14 (nibble, wait in microseconds) rows of the ROM's table, in order (R150). -/
def romTable : List (Nibble × Micros) :=
  [(0b0011#4, 4100#16), (0b0011#4, 100#16), (0b0011#4, 40000#16), (0b0010#4, 40000#16),
   (0b0010#4, 40000#16), (0b1000#4, 40000#16), (0b0000#4, 40000#16), (0b1100#4, 40000#16),
   (0b0000#4, 40000#16), (0b0001#4, 40000#16), (0b0000#4, 40000#16), (0b0010#4, 40000#16),
   (0b0000#4, 40000#16), (0b0110#4, 40000#16)]

/-- Execute the values of some rows of the init script as instructions, the last row first, each with its row's index and
wait and in front of what the rows after it left in the list. -/
def execRows : List RomRow → State → Host.Outcome State Fault Refusal
  | [], s => .next s
  | r :: rows, s =>
    match execRows rows s with
    | .next t => runRow r t
    | .fault f => .fault f
    | .refused x => .refused x

/-- The state with a command word presented in this cycle and the given inputs after it. -/
def offered (w : CmdWord) (ps : List PortInput) (s : State) : State := { s with inputs := presents w :: ps }

/-! ### The controller side of the lines -/

/-- The levels the requests have made the lines hold, as far as the block makes them (R56, R58). -/
structure Lines where
  e : Bool
  rs : Bool
  d7 : Bool
  d6 : Bool
  d5 : Bool
  d4 : Bool
deriving DecidableEq, Repr

/-- The effect of an applied request on the levels (R51, R53, R83). -/
def Lines.apply (l : Lines) : LineReq → Lines
  | .set .e v => { l with e := v }
  | .set .rs v => { l with rs := v }
  | .set .d7 v => { l with d7 := v }
  | .setv [a, b, c, d] => { l with d7 := a, d6 := b, d5 := c, d4 := d }
  | .setv [b, c, d] => { l with d6 := b, d5 := c, d4 := d }
  | .dirOut .d7 v => { l with d7 := v }
  | _ => l

/-- The nibble on the data lines (R83). -/
def Lines.nibble (l : Lines) : Nibble :=
  BitVec.ofBool l.d7 ++ (BitVec.ofBool l.d6 ++ (BitVec.ofBool l.d5 ++ BitVec.ofBool l.d4))

/-- The nibbles the strobes of a request list make the controller latch, each with the RS level: "A `SET(E, 1)` followed
by `SET(E, 0)` is the strobe" (R57). -/
def latched : Lines → List LineReq → List (Bool × Nibble)
  | _, [] => []
  | l, .set .e false :: rs =>
    (if l.e then [(l.rs, l.nibble)] else []) ++ latched (l.apply (.set .e false)) rs
  | l, r :: rs => latched (l.apply r) rs

end Sys2Proof.Machine
end

