-- ==== Sys2Proof/Certificates/Slice0/Obligations.lean ====
section
/-! DEFINITION. The statements for the provers, from the numbered rules of spec/. `offered w ps s` is the state `s` with
the word `w` presented in this cycle and the inputs `ps` in the cycles that follow. -/

open Sys2Proof Sys2Proof.Machine

/-! ### Encoding -/

/-- R70, R76, R84: the decoder reads every well-formed instruction's own word back as it, with every operand. -/
def Obligations.DecodeOfEncodeIsTheInstruction : Prop :=
  ∀ (bw : BusWidth) (i : Instr), i.wellFormed bw = true → decode bw (encode i) = .ok i

/-- R74, R76, R78: a word that decodes is the word of the instruction it decodes to, which is well-formed: no bit of it is
ignored and no two words spell one instruction. -/
def Obligations.EncodeOfDecodeIsTheWord : Prop :=
  ∀ (bw : BusWidth) (e : Encoded) (i : Instr), decode bw e = .ok i → encode i = e ∧ i.wellFormed bw = true

/-- R78: every word is one of the seven commands or is rejected, and no word matches two rows of R76. -/
def Obligations.NoWordMatchesTwoRows : Prop :=
  (∀ (bw : BusWidth) (w : CmdWord),
    (∃ i, decodeCmd bw w = .ok i ∧ hostCommand i = true) ∨ (∃ e, decodeCmd bw w = .error e)) ∧
  CmdRow.table.length = 7 ∧
  ∀ (w : CmdWord), CmdRow.table.Pairwise fun a b => ¬ (a.matches w = true ∧ b.matches w = true)

/-- R89: the listed words decode to the listed commands (with width 3, where every one of them is legal). -/
def Obligations.ListedWordsDecode : Prop :=
  decodeCmd .three 0x10000000#32 = .ok .init ∧
  decodeCmd .three 0x20000000#32 = .ok .selIr ∧
  decodeCmd .three 0x30000000#32 = .ok .selDr ∧
  decodeCmd .three 0x40000000#32 = .ok (.strobe 0#16) ∧
  decodeCmd .three 0x40000500#32 = .ok (.strobe 5#16) ∧
  decodeCmd .three 0x50100403#32 = .ok (.sendNibble .fixedDelay 4100#16 3#4) ∧
  decodeCmd .three 0x58000008#32 = .ok (.sendNibble .busyPoll 0#16 8#4) ∧
  decodeCmd .three 0x609C4028#32 = .ok (.sendByte .fixedDelay 40000#16 0x28#8) ∧
  decodeCmd .three 0x68003201#32 = .ok (.sendByte .busyPoll 50#16 0x01#8) ∧
  decodeCmd .three 0x70003248#32 = .ok (.writeChar .fixedDelay 50#16 0x48#8) ∧
  decodeCmd .three 0x70003269#32 = .ok (.writeChar .fixedDelay 50#16 0x69#8) ∧
  decodeCmd .three 0x78000041#32 = .ok (.writeChar .busyPoll 0#16 0x41#8) ∧
  decodeCmd .three 0x700032E9#32 = .ok (.writeChar .fixedDelay 50#16 0xE9#8)

/-- R86 to R89: lines of assembly and the words they stand for. -/
def Obligations.AssemblyLinesEncode : Prop :=
  let words (line : String) := (assemble line.toList).map fun is => is.map encode
  words "STROBE 5us" = some [.cmd 0x40000500#32] ∧
  words "SEND_NIBBLE 3, FIXED(4100us)" = some [.cmd 0x50100403#32] ∧
  words "SEND_NIBBLE 8, BUSY" = some [.cmd 0x58000008#32] ∧
  words "SEND_BYTE 0x28, FIXED(40ms)" = some [.cmd 0x609C4028#32] ∧
  words "WRITE_CHAR 'A', BUSY" = some [.cmd 0x78000041#32] ∧
  words "LCD_INSTR 0x01, BUSY(50us)" = some [.cmd 0x20000000#32, .cmd 0x68003201#32] ∧
  words "WRITE_TEXT \"Hi\", FIXED(50us)" = some [.cmd 0x30000000#32, .cmd 0x70003248#32, .cmd 0x70003269#32]

/-! ### Operands -/

/-- R10: `N(t)` is the least whole number of cycles that lasts at least `t` µs, and `N(0) = 0`. -/
def Obligations.DurationRoundsUp : Prop :=
  ∀ (c : Config) (us : Micros),
    us.toNat * c.fClk ≤ cyclesOf c us * 1000000 ∧
    (∀ n : Nat, us.toNat * c.fClk ≤ n * 1000000 → cyclesOf c us ≤ n) ∧
    cyclesOf c us = (us.toNat * c.fClk + 999999) / 1000000 ∧
    cyclesOf c 0#16 = 0

/-- R171: the encoder's laws. -/
def Obligations.EncoderSplitsAscii : Prop :=
  (∀ c : Byte, c.toNat ≤ 0x7F → ∃ h l : Nibble, encodeChar c = some (h, l) ∧ 16 * h.toNat + l.toNat = c.toNat ∧
    h.toNat ≤ 7 ∧ l.toNat ≤ 15 ∧ (h.setWidth 8 <<< 4) ||| l.setWidth 8 = c) ∧
  (∀ c : Byte, 0x7F < c.toNat → encodeChar c = none)

/-! ### The outputs -/

/-- R33: each field of the status word, and its reserved bits. -/
def Obligations.StatusWordFields : Prop :=
  ∀ s : State,
    (status s).extractLsb' 0 2 = (match s.st with | .idle => 0#2 | .busy => 1#2 | .failed => 2#2) ∧
    (status s).extractLsb' 2 3 = (match s.err with
      | .none => 0#3 | .ioError => 1#3 | .illegalCommand => 2#3 | .modeError => 3#3 | .phaseError => 4#3
      | .unsupportedInput => 5#3) ∧
    (status s).extractLsb' 5 2 = (match s.mode with | .unknown => 0#2 | .instruction => 1#2 | .data => 2#2) ∧
    (status s).extractLsb' 7 2 = (match s.phase with | .unknown => 0#2 | .even => 1#2 | .odd => 2#2) ∧
    (status s).extractLsb' 9 1 = BitVec.ofBool s.initDone ∧
    (status s).extractLsb' 10 1 = BitVec.ofBool s.skipped ∧
    (status s).extractLsb' 11 2 = (match s.errOp with | .set => 0#2 | .setv => 1#2 | .get => 2#2 | .dir => 3#2) ∧
    (status s).extractLsb' 13 3 = (match s.errLine with
      | some .e => 0#3 | some .rs => 1#3 | some .d4 => 2#3 | some .d5 => 3#3 | some .d6 => 4#3 | some .d7 => 5#3
      | some .bus => 6#3 | none => 7#3) ∧
    (status s).extractLsb' 16 4 = s.errNib ∧
    (status s).extractLsb' 20 2 = (match s.eSh with | .low => 0#2 | .high => 1#2 | .x => 2#2) ∧
    (status s).extractLsb' 22 2 = (match s.rsSh with | .low => 0#2 | .high => 1#2 | .x => 2#2) ∧
    (status s).extractLsb' 24 2 = (match s.d7dir with | .output => 0#2 | .input => 1#2 | .x => 2#2) ∧
    (status s).extractLsb' 26 6 = 0#6

/-- R51 to R53: the port encoding of every request the block can issue. -/
def Obligations.RequestPortEncoding : Prop :=
  (∀ v : Bool, (LineReq.set .e v).port = ⟨0#2, 0#3, 0#3 ++ BitVec.ofBool v⟩) ∧
  (∀ v : Bool, (LineReq.set .rs v).port = ⟨0#2, 1#3, 0#3 ++ BitVec.ofBool v⟩) ∧
  (∀ v : Bool, (LineReq.set .d7 v).port = ⟨0#2, 5#3, 0#3 ++ BitVec.ofBool v⟩) ∧
  (∀ a b c d : Bool, (LineReq.setv [a, b, c, d]).port =
    ⟨1#2, 6#3, BitVec.ofBool a ++ (BitVec.ofBool b ++ (BitVec.ofBool c ++ BitVec.ofBool d))⟩) ∧
  (∀ b c d : Bool, (LineReq.setv [b, c, d]).port =
    ⟨1#2, 6#3, 0#1 ++ (BitVec.ofBool b ++ (BitVec.ofBool c ++ BitVec.ofBool d))⟩) ∧
  (LineReq.get .d7).port = ⟨2#2, 5#3, 0#4⟩ ∧
  (LineReq.dirIn .d7).port = ⟨3#2, 5#3, 0b0001#4⟩ ∧
  (∀ v : Bool, (LineReq.dirOut .d7 v).port = ⟨3#2, 5#3, 0#2 ++ (BitVec.ofBool v ++ 0#1)⟩)

/-! ### Reset -/

/-- R37, R221: after reset, whatever the parameters, the status word is 0x02AFE000, the block is ready, and it issues no
request. -/
def Obligations.StatusWordAfterReset : Prop :=
  ∀ c : Config, status (State.resetWith c) = 0x02AFE000#32 ∧ cmdReady (State.resetWith c) = true ∧
    (State.resetWith c).st = .idle ∧ lineRequest (State.resetWith c) = none

/-- R220 with R36: a cycle with `rst = 1`, whatever else is presented and wherever the block stands, sets every field to
its reset value. `S.cmd`, whose value R36 leaves unspecified, is not spoken of; that the parameters and the later inputs
stay is the model's choice (log entry 4). -/
def Obligations.ResetSetsEveryField : Prop :=
  ∀ (s : State) (p : PortInput) (ps : List PortInput), p.rst = true →
    ∃ t, step { s with inputs := p :: ps } = .next t ∧
      t.st = .idle ∧ t.seq = [] ∧ t.tmr = 0 ∧ t.pending = none ∧ t.mode = .unknown ∧ t.phase = .unknown ∧
      t.initDone = false ∧ t.skipped = false ∧ t.err = .none ∧ t.errOp = .set ∧ t.errLine = none ∧ t.errNib = 15#4 ∧
      t.polls = 0#32 ∧ t.eSh = .x ∧ t.rsSh = .x ∧ t.d7dir = .x ∧ t.cfg = s.cfg ∧ t.inputs = ps

/-! ### Errors -/

/-- R197: what `raise Error(code, op, line, nib)` writes, and that it writes nothing else. -/
def Obligations.ErrorEntryWrites : Prop :=
  ∀ (code : ErrCode) (op : OpKind) (line : LineId) (nib : BitVec 4) (s : State),
    raiseError .ioError op (some line) nib s =
      { s with
        err := .ioError, errOp := op, errLine := some line, errNib := nib, phase := .unknown
        seq := [], tmr := 0, pending := none, st := .failed } ∧
    (code ≠ .ioError → raiseError code op (some line) nib s =
      { s with
        err := code, errOp := .set, errLine := none, errNib := 15#4
        seq := [], tmr := 0, pending := none, st := .failed })

/-- R192: ILLEGAL_COMMAND is raised at acceptance exactly for the words R192 lists. -/
def Obligations.IllegalCommandRaisedExactly : Prop :=
  ∀ (s : State) (w : CmdWord) (ps : List PortInput), s.st = .idle → s.err = .none →
    ∃ t, step (offered w ps s) = .next t ∧ (t.err = .illegalCommand ↔ illegalWord s.cfg.busWidth w)

/-- R193: MODE_ERROR is raised at acceptance exactly in the modes R193 names, by the commands it names. -/
def Obligations.ModeErrorRaisedExactly : Prop :=
  ∀ (s : State), s.err = .none →
    (∀ dly, errAfter (exec (.strobe dly) s) = some .modeError ↔ s.mode = .unknown) ∧
    (∀ sync dly n, (Instr.sendNibble sync dly n).wellFormed s.cfg.busWidth = true →
      (errAfter (exec (.sendNibble sync dly n) s) = some .modeError ↔ s.mode = .unknown)) ∧
    (∀ sync dly b, (Instr.sendByte sync dly b).wellFormed s.cfg.busWidth = true →
      (errAfter (exec (.sendByte sync dly b) s) = some .modeError ↔ s.mode = .unknown)) ∧
    (∀ sync dly c, (Instr.writeChar sync dly c).wellFormed s.cfg.busWidth = true →
      (errAfter (exec (.writeChar sync dly c) s) = some .modeError ↔ s.mode ≠ .data)) ∧
    errAfter (exec .init s) ≠ some .modeError ∧ errAfter (exec .selIr s) ≠ some .modeError ∧
    errAfter (exec .selDr s) ≠ some .modeError

/-- R194: PHASE_ERROR is raised at acceptance exactly in the phases R194 names, by the commands it names, once the checks
that come before it pass. -/
def Obligations.PhaseErrorRaisedExactly : Prop :=
  ∀ (s : State), s.err = .none →
    (errAfter (exec .selIr s) = some .phaseError ↔ s.phase = .odd) ∧
    (errAfter (exec .selDr s) = some .phaseError ↔ s.phase = .odd) ∧
    (∀ sync dly b, (Instr.sendByte sync dly b).wellFormed s.cfg.busWidth = true → s.mode ≠ .unknown →
      (errAfter (exec (.sendByte sync dly b) s) = some .phaseError ↔ s.phase = .odd)) ∧
    (∀ sync dly c, (Instr.writeChar sync dly c).wellFormed s.cfg.busWidth = true → s.mode = .data →
      (errAfter (exec (.writeChar sync dly c) s) = some .phaseError ↔ s.phase = .odd)) ∧
    (∀ dly n, (Instr.sendNibble .busyPoll dly n).wellFormed s.cfg.busWidth = true → s.mode ≠ .unknown →
      (errAfter (exec (.sendNibble .busyPoll dly n) s) = some .phaseError ↔ s.phase ≠ .odd)) ∧
    (∀ dly n, errAfter (exec (.sendNibble .fixedDelay dly n) s) ≠ some .phaseError) ∧
    (∀ dly, errAfter (exec (.strobe dly) s) ≠ some .phaseError) ∧
    errAfter (exec .init s) ≠ some .phaseError

/-- R195: UNSUPPORTED_INPUT is raised exactly by a WRITE_CHAR above 0x7F under policy FAIL, once the checks that come
before it pass; under the other policies, and by the other commands, it is never raised. -/
def Obligations.UnsupportedInputRaisedExactly : Prop :=
  ∀ (s : State), s.err = .none →
    (∀ sync dly c, (Instr.writeChar sync dly c).wellFormed s.cfg.busWidth = true → s.mode = .data → s.phase ≠ .odd →
      (errAfter (exec (.writeChar sync dly c) s) = some .unsupportedInput ↔ 0x7F < c.toNat ∧ s.cfg.policy = .fail)) ∧
    (∀ i : Instr, errAfter (exec i s) = some .unsupportedInput →
      s.cfg.policy = .fail ∧ ∃ sync dly c, i = .writeChar sync dly c)

/-- R196: the checks run in the order ILLEGAL_COMMAND, MODE_ERROR, PHASE_ERROR, UNSUPPORTED_INPUT, the first that fails is
raised, and a refused command does nothing but raise it. -/
def Obligations.ChecksReportTheFirstError : Prop :=
  ∀ (i : Instr) (s : State), hostCommand i = true →
    (i.wellFormed s.cfg.busWidth = false → exec i s = .next (refuse .illegalCommand s)) ∧
    (i.wellFormed s.cfg.busWidth = true → modeCheckFails s.mode i = true → exec i s = .next (refuse .modeError s)) ∧
    (i.wellFormed s.cfg.busWidth = true → modeCheckFails s.mode i = false → phaseCheckFails s.phase i = true →
      exec i s = .next (refuse .phaseError s)) ∧
    (i.wellFormed s.cfg.busWidth = true → modeCheckFails s.mode i = false → phaseCheckFails s.phase i = false →
      unsupportedInput s.cfg i = true → exec i s = .next (refuse .unsupportedInput s)) ∧
    (i.wellFormed s.cfg.busWidth = true → modeCheckFails s.mode i = false → phaseCheckFails s.phase i = false →
      unsupportedInput s.cfg i = false → ∃ t, exec i s = .next t ∧ t.err = s.err)

/-- R237: a command refused in its acceptance cycle issues nothing, then or later, and the block shows FAILED and not
ready from the next cycle on. -/
def Obligations.RefusedCommandIssuesNothing : Prop :=
  ∀ (s t : State) (w : CmdWord) (ps : List PortInput), s.st = .idle →
    step (offered w ps s) = .next t → t.err ≠ .none → s.err = .none →
    t.st = .failed ∧ cmdReady t = false ∧ trace 1 (offered w ps s) = [] ∧ lineRequest t = none ∧
    t = { refuse t.err s with cmd := w, skipped := false, inputs := ps, cycle := s.cycle + 1 }

/-- R198: FAILED is final until reset: for any number of cycles without `rst`, whatever is presented, no command is
accepted, no request is issued, and the status word holds its value. -/
def Obligations.FailedIsFinalUntilReset : Prop :=
  ∀ (s : State) (ps rest : List PortInput), s.st = .failed → (∀ p ∈ ps, p.rst = false) →
    ∃ t, run ps.length { s with inputs := ps ++ rest } = .next t ∧ t.st = .failed ∧ cmdReady t = false ∧
      trace ps.length { s with inputs := ps ++ rest } = [] ∧ lineRequest t = none ∧ status t = status s ∧
      t = { s with inputs := rest, cycle := s.cycle + ps.length }

/-- R191, R197, R199: outside a busy poll an `ERR` answer ends the command at once: the error is recorded with the failing
op, line and index, the failing line's shadow is X, the mode mirror is UNKNOWN after an RS write, the phase is UNKNOWN,
nothing of the list is left, and every other field keeps its value. -/
def Obligations.ErrorAnswerAborts : Prop :=
  ∀ (s : State) (r : LineReq) (k : BitVec 4) (ops : List MicroOp) (p : PortInput) (ps : List PortInput),
    s.st = .busy → s.pending = some r → s.seq = .req r k :: ops → r ≠ .dirIn .d7 → r ≠ .get .d7 →
    p.rst = false → p.respValid = true → p.respErr = true →
    step { s with inputs := p :: ps } = .next
      { s with
        st := .failed, seq := [], tmr := 0, pending := none
        err := .ioError, errOp := r.kind, errLine := some r.line, errNib := k, phase := .unknown
        eSh := if r.line = .e ∧ r.kind = .set then .x else s.eSh
        rsSh := if r.line = .rs ∧ r.kind = .set then .x else s.rsSh
        mode := if r.line = .rs ∧ r.kind = .set then .unknown else s.mode
        d7dir := if r.line = .d7 ∧ r.kind = .dir then .x else s.d7dir
        inputs := ps, cycle := s.cycle + 1 }

/-- R125, R201: a failure of `DIR(D7, IN)` or `GET(D7)` inside a poll makes exactly one restore attempt
`DIR(D7, OUT, 0)`; whatever its answer, the error raised is the first one, and D7 is OUT or X after it. -/
def Obligations.PollFailureRestoresOnce : Prop :=
  ∀ (s : State) (r : LineReq) (k : BitVec 4) (ops : List MicroOp) (late : Nat) (restoreFails : Bool)
    (rest : List PortInput),
    s.st = .busy → s.pending = some r → s.tmr = 0 → s.seq = .req r k :: ops → (r = .dirIn .d7 ∨ r = .get .d7) →
    let answer := if restoreFails then answersErr else answersOk
    let s' := { s with inputs := answersErr :: (answered late answer ++ rest) }
    trace (late + 3) s' = [.dirOut .d7 false] ∧
    run (late + 3) s' = .next
      { s with
        st := .failed, seq := [], tmr := 0, pending := none
        err := .ioError, errOp := r.kind, errLine := some .d7, errNib := k, phase := .unknown
        d7dir := if restoreFails then .x else .output
        inputs := rest, cycle := s.cycle + (late + 3) }

/-! ### Each instruction answers a next state, and what it is -/

/-- R100, R101: SEL_IR and SEL_DR, wherever the phase is not ODD, start the one RS write. -/
def Obligations.SelectStartsTheRsWrite : Prop :=
  ∀ s : State, s.phase ≠ .odd →
    exec .selIr s = .next { s with st := .busy, seq := [.req (.set .rs false) 15#4] } ∧
    exec .selDr s = .next { s with st := .busy, seq := [.req (.set .rs true) 15#4] }

/-- R111: STROBE, wherever the mode is known, starts one strobe of index 15, held HOLD_CYCLES cycles when DLY is 0 and N(DLY)
otherwise, then the phase toggles. -/
def Obligations.StrobeStartsOnePulse : Prop :=
  ∀ (s : State) (dly : Micros), s.mode ≠ .unknown →
    exec (.strobe dly) s = .next
      { s with
        st := .busy
        seq := [.req (.set .e true) 15#4, .wait (if dly = 0#16 then s.cfg.holdCycles else cyclesOf s.cfg dly),
          .req (.set .e false) 15#4, .note .togglePhase] }

/-- R120, R130: SEND_NIBBLE, where its checks pass, starts the transmission R120 writes out: data lines, setup wait, strobe,
phase, and the fixed wait or the poll. -/
def Obligations.SendNibbleStartsOneTransmission : Prop :=
  ∀ (s : State) (sync : Sync) (dly : Micros) (n : Nibble),
    (Instr.sendNibble sync dly n).wellFormed s.cfg.busWidth = true → s.mode ≠ .unknown →
    (sync = .busyPoll → s.phase = .odd) →
    exec (.sendNibble sync dly n) s = .next
      { s with
        st := .busy
        seq := (match s.cfg.busWidth with
            | .four => [.req (.setv [n[3], n[2], n[1], n[0]]) 0#4]
            | .three => [.req (.set .d7 n[3]) 0#4, .req (.setv [n[2], n[1], n[0]]) 0#4])
          ++ [.wait s.cfg.setupCycles, .req (.set .e true) 0#4, .wait s.cfg.holdCycles, .req (.set .e false) 0#4,
            .note .togglePhase]
          ++ (match sync with
            | .fixedDelay => [.wait (cyclesOf s.cfg dly)]
            | .busyPoll => [.note .clearPolls, .req (.dirIn .d7) 0#4, .req (.get .d7) 0#4, .req (.dirOut .d7 false) 0#4]) }

/-- R140: SEND_BYTE, where its checks pass, starts two transmissions, the high nibble with index 0 and the fixed wait, the low
nibble with index 1 and the command's synchronisation. -/
def Obligations.SendByteStartsTwoTransmissions : Prop :=
  ∀ (s : State) (sync : Sync) (dly : Micros) (b : Byte),
    (Instr.sendByte sync dly b).wellFormed s.cfg.busWidth = true → s.mode ≠ .unknown → s.phase ≠ .odd →
    exec (.sendByte sync dly b) s = .next
      { s with
        st := .busy
        seq := tx s.cfg (b.extractLsb' 4 4) (.fixed (cyclesOf s.cfg dly)) 0#4 false
          ++ tx s.cfg (b.extractLsb' 0 4)
              (match sync with | .fixedDelay => .fixed (cyclesOf s.cfg dly) | .busyPoll => .busy) 1#4 false }

/-- R172 to R174: WRITE_CHAR, where its checks pass, sends the code's nibbles; above 0x7F it sends those of SUB_CHAR under
SUBSTITUTE, and under SKIP it only sets SKIPPED and the block stays as it is. -/
def Obligations.WriteCharSendsOrSkips : Prop :=
  ∀ (s : State) (sync : Sync) (dly : Micros) (c : Byte),
    (Instr.writeChar sync dly c).wellFormed s.cfg.busWidth = true → s.mode = .data → s.phase ≠ .odd →
    let sent (code : Byte) : State :=
      { s with
        st := .busy
        seq := tx s.cfg (code.extractLsb' 4 4) (.fixed (cyclesOf s.cfg dly)) 0#4 false
          ++ tx s.cfg (code.extractLsb' 0 4)
              (match sync with | .fixedDelay => .fixed (cyclesOf s.cfg dly) | .busyPoll => .busy) 1#4 false }
    (c.toNat ≤ 0x7F → exec (.writeChar sync dly c) s = .next (sent c)) ∧
    (0x7F < c.toNat → s.cfg.policy = .skip → exec (.writeChar sync dly c) s = .next { s with skipped := true }) ∧
    (0x7F < c.toNat → s.cfg.policy = .substitute →
      exec (.writeChar sync dly c) s = .next (sent (s.cfg.subChar.setWidth 8)))

/-- R23, R150, R151: INIT, in every state, clears the flag and the phase and loads its whole expansion: the power-on wait, the
RS write, the 14 transmissions of the ROM's table, each with its own index and wait, and the closing statements. -/
def Obligations.InitStartsTheScript : Prop :=
  ∀ s : State,
    exec .init s = .next
      { s with
        initDone := false, phase := .unknown, st := .busy
        seq := [.wait (cyclesOf s.cfg s.cfg.powerOnUs), .req (.set .rs false) 15#4]
          ++ romTable.zipIdx.flatMap
              (fun x => tx s.cfg x.1.1 (.fixed (cyclesOf s.cfg x.1.2)) (BitVec.ofNat 4 x.2) true)
          ++ [.note .initDone] }

/-- Each controller-side value (the values are R84's), in every state, is sent in front of what is left of the list, with the
index and the wait in hand, high nibble first and without a phase statement. That such a value has a
meaning of its own, namely its transmission by the block, in any state, is DEDUCED (log entry 6); that it takes its index
and wait from the model's field `row` is the model's choice (log entry 7). -/
def Obligations.ControllerValuesAreSent : Prop :=
  ∀ s : State,
    let nibbleOp (n : Nibble) (k : BitVec 4) := tx s.cfg n (.fixed (cyclesOf s.cfg s.row.waitUs)) k true
    let lone (n : Nibble) : State := { s with st := .busy, seq := nibbleOp n s.row.nib ++ s.seq }
    let pair (h l : Nibble) : State :=
      { s with st := .busy, seq := nibbleOp h s.row.nib ++ (nibbleOp l (s.row.nib + 1#4) ++ s.seq) }
    exec .lcdFunctionSet8bitNibble s = .next (lone 0b0011#4) ∧
    exec .lcdFunctionSet4bitNibble s = .next (lone 0b0010#4) ∧
    exec .lcdFunctionSet4bit2line5x8 s = .next (pair 0b0010#4 0b1000#4) ∧
    exec .lcdDisplayOnCursorOffBlinkOff s = .next (pair 0b0000#4 0b1100#4) ∧
    exec .lcdClearDisplay s = .next (pair 0b0000#4 0b0001#4) ∧
    exec .lcdReturnHome s = .next (pair 0b0000#4 0b0010#4) ∧
    exec .lcdEntryModeIncNoshift s = .next (pair 0b0000#4 0b0110#4)

/-- The frame of exec, for every instruction that answers a next state: what acceptance leaves unchanged. -/
def Obligations.ExecFrame : Prop :=
  ∀ (i : Instr) (s t : State), exec i s = .next t →
    t.cfg = s.cfg ∧ t.cmd = s.cmd ∧ t.mode = s.mode ∧ t.polls = s.polls ∧ t.eSh = s.eSh ∧ t.rsSh = s.rsSh ∧
    t.d7dir = s.d7dir ∧ t.row = s.row ∧ t.inputs = s.inputs ∧ t.cycle = s.cycle ∧
    (i ≠ .init → t.phase = s.phase ∧ t.initDone = s.initDone) ∧
    ((∀ sync dly c, i ≠ .writeChar sync dly c) → t.skipped = s.skipped) ∧
    (t.st ≠ .failed → t.err = s.err ∧ t.errOp = s.errOp ∧ t.errLine = s.errLine ∧ t.errNib = s.errNib ∧
      t.tmr = s.tmr ∧ t.pending = s.pending)

/-- R102: no host command but SEL_IR, SEL_DR and INIT puts an RS write into the list, and no controller-side value does. -/
def Obligations.OnlySelectAndInitWriteRs : Prop :=
  ∀ (i : Instr) (s t : State) (v : Bool) (k : BitVec 4), i ≠ .init → i ≠ .selIr → i ≠ .selDr → exec i s = .next t →
    .req (.set .rs v) k ∈ t.seq → .req (.set .rs v) k ∈ s.seq

/-! ### Steps -/

/-- A cycle in which the host presents a word that decodes, to an IDLE block and without `rst`, runs the decoded instruction
with the word latched and SKIPPED cleared (R21, R196), and then settles the list it has started (R236). -/
def Obligations.StepRunsTheDecodedCommand : Prop :=
  ∀ (s : State) (p : PortInput) (ps : List PortInput) (i : Instr), s.st = .idle → p.rst = false → p.cmdValid = true →
    decodeCmd s.cfg.busWidth p.cmdData = .ok i →
    step { s with inputs := p :: ps } =
      execThenSettle i { s with cmd := p.cmdData, skipped := false, inputs := ps, cycle := s.cycle + 1 }

/-- How steps come to run the controller-side values. First, as the block does (R23, R84, R150, R151): from a legal state, the
step that accepts INIT loads the list which exec of the instructions of the script's rows, the last row first, each
with its index and wait in hand, leaves in front of the closing statements, after the RS write and, unless it takes no
cycle, the power-on wait. Second, for a value by itself in the list, which no command puts there (log entry 5; log entry 8
says who does): from a legal state, in the cycle in which the micro-operation before it ends, a request answered `OK` or
a wait in its last cycle, step is exec of the instruction it decodes to, with the value taken from the list and its
index and wait in hand. That a value is an instruction with a meaning is log entry 6, that its index and wait stand in
the field `row` log entry 7. -/
def Obligations.StepRunsTheScriptRow : Prop :=
  ∀ (s : State) (p : PortInput) (ps : List PortInput), inv s = true → p.rst = false →
    (s.st = .idle → p.cmdValid = true → decodeCmd s.cfg.busWidth p.cmdData = .ok .init →
      ∃ u t, execRows initRom { s with seq := [.note .initDone] } = .next u ∧
        step { s with inputs := p :: ps } = .next t ∧ t.st = .busy ∧ t.tmr = cyclesOf s.cfg s.cfg.powerOnUs ∧
        t.seq = (if t.tmr = 0 then [] else [.wait t.tmr]) ++ .req (.set .rs false) 15#4 :: u.seq) ∧
    ∀ (row : RomRow) (ops : List MicroOp) (i : Instr), decodeLcd row.word = .ok i →
      (∀ r k, s.pending = some r → s.seq = .req r k :: .rom row :: ops →
        p.respValid = true → p.respErr = false → p.respVal = false →
        step { s with inputs := p :: ps } =
          exec i
            { applyOk r s with
              pending := none, seq := ops, row := ⟨row.nib, row.waitUs⟩, inputs := ps, cycle := s.cycle + 1 }) ∧
      (∀ m, s.tmr = 1 → s.seq = .wait m :: .rom row :: ops →
        step { s with inputs := p :: ps } =
          exec i
            { s with tmr := 0, seq := ops, row := ⟨row.nib, row.waitUs⟩, inputs := ps, cycle := s.cycle + 1 })

/-- R21, R68: while the block is not IDLE, what stands on the command port has no effect. -/
def Obligations.CommandPortIgnoredWhileNotReady : Prop :=
  ∀ (s : State) (p q : PortInput) (ps : List PortInput), cmdReady s = false →
    p.rst = q.rst → p.respValid = q.respValid → p.respErr = q.respErr → p.respVal = q.respVal →
    step { s with inputs := p :: ps } = step { s with inputs := q :: ps }

/-- R58: while no request is outstanding, what stands on the answer port has no effect. -/
def Obligations.AnswerIgnoredWhileNothingPending : Prop :=
  ∀ (s : State) (p q : PortInput) (ps : List PortInput), s.pending = none →
    p.rst = q.rst → p.cmdValid = q.cmdValid → p.cmdData = q.cmdData →
    step { s with inputs := p :: ps } = step { s with inputs := q :: ps }

/-- R236, R123, R150, R153: a `WAIT(n)` lasts exactly `n` cycles, in each of which the block is BUSY and presents nothing,
whatever stands at the inputs but `rst`. It begins when a request is answered `OK`, when a wait before it ends, or, for
INIT, when the command is accepted, with statements that take no cycle in between; after it, with such statements in
between again, the next request is presented, or the first request of a controller-side value that stands in the list by
itself (log entry 5), or the command is complete. -/
def Obligations.WaitLeavesExactlyNIdleCycles : Prop :=
  ∀ (s : State) (p : PortInput) (during rest : List PortInput) (n : Nat) (before after : List Note) (tail : List MicroOp),
    let ops := before.map .note ++ .wait n :: (after.map .note ++ tail)
    let s' := { s with inputs := p :: (during ++ rest) }
    during.length = n → (∀ d ∈ during, d.rst = false) → p.rst = false →
    ((∃ r k, s.st = .busy ∧ s.tmr = 0 ∧ s.pending = some r ∧ s.seq = .req r k :: ops ∧
        p.respValid = true ∧ p.respErr = false ∧ p.respVal = false) ∨
      (∃ m, s.st = .busy ∧ s.tmr = 1 ∧ s.pending = none ∧ s.seq = .wait m :: ops) ∨
      (s.st = .idle ∧ restLegal s = true ∧ p.cmdValid = true ∧ decodeCmd s.cfg.busWidth p.cmdData = .ok .init ∧
        initOps s.cfg = ops)) →
    portLog (n + 1) s' = (s.st, none) :: waiting n ∧
    (∀ q j ops', tail = .req q j :: ops' →
      ∃ t, run (n + 1) s' = .next t ∧ t.st = .busy ∧ lineRequest t = some q ∧ t.inputs = rest) ∧
    (∀ row ops', tail = .rom row :: ops' → rowLegal row = true →
      ∃ t, run (n + 1) s' = .next t ∧ t.st = .busy ∧
        lineRequest t = (rowOps s.cfg row).head?.bind MicroOp.request ∧ t.inputs = rest) ∧
    (tail = [] → ∃ t, run (n + 1) s' = .next t ∧ t.st = .idle ∧ t.inputs = rest)

/-! ### Whole commands -/

/-- R23, R65, R236, R244: a command that passes its checks, in an environment that answers every line op without error, each
after any number of cycles, and lets each poll read busy any number of times, presents exactly the requests of its list,
in order, each in the cycle in which okSchedule has it, is BUSY in every cycle of its ops and waits, and ends IDLE with
the effect of its list in the cycle after them. -/
def Obligations.CommandRunsItsListToTheEnd : Prop :=
  ∀ (s t : State) (w : CmdWord) (i : Instr) (busy late : List Nat) (rest : List PortInput),
    s.st = .idle → restLegal s = true → decodeCmd s.cfg.busWidth w = .ok i →
    exec i (latchCommand w s) = .next t → t.st ≠ .failed →
    let ops := t.seq
    let env := okInputs busy ops late
    run (env.length + 1) (offered w (env ++ rest) s) = .next
      { okEffect busy.length ops t with
        st := .idle, seq := [], inputs := rest, cycle := s.cycle + (env.length + 1) } ∧
    trace (env.length + 1) (offered w (env ++ rest) s) = okRequests busy.length ops ∧
    portLog (env.length + 1) (offered w (env ++ rest) s) = (.idle, none) :: okSchedule busy ops late

/-- R100, R101: the whole of SEL_IR and SEL_DR, with what stands at the ports in each cycle. -/
def Obligations.SelectRunsToTheEnd : Prop :=
  ∀ (s : State) (v : Bool) (late : Nat) (rest : List PortInput), s.st = .idle → restLegal s = true → s.phase ≠ .odd →
    let w : CmdWord := if v then 0x30000000#32 else 0x20000000#32
    let s' := offered w (answered late answersOk ++ rest) s
    trace (late + 3) s' = [.set .rs v] ∧
    portLog (late + 3) s' = (.idle, none) :: asked late (.set .rs v) ∧
    run (late + 3) s' = .next
      { s with
        cmd := w, skipped := false, mode := if v then .data else .instruction, rsSh := if v then .high else .low
        inputs := rest, cycle := s.cycle + (late + 3) }

/-- R111: the whole of STROBE: between the answer to `SET(E, 1)` and the cycle that presents `SET(E, 0)` lie exactly the cycles
of the hold, E_SH ends 0, and a known phase toggles. -/
def Obligations.StrobeRunsToTheEnd : Prop :=
  ∀ (s : State) (dly : Micros) (up down : Nat) (rest : List PortInput), s.st = .idle → restLegal s = true →
    s.mode ≠ .unknown →
    let w := cmdWord 0x4#4 0#1 dly 0#8
    let h := if dly = 0#16 then s.cfg.holdCycles else cyclesOf s.cfg dly
    let s' := offered w
      (answered up answersOk ++ (List.replicate h PortInput.quiet ++ (answered down answersOk ++ rest))) s
    trace (up + h + down + 5) s' = [.set .e true, .set .e false] ∧
    portLog (up + h + down + 5) s' =
      (.idle, none) :: (asked up (.set .e true) ++ (waiting h ++ asked down (.set .e false))) ∧
    run (up + h + down + 5) s' = .next
      { s with
        cmd := w, skipped := false, eSh := .low
        phase := if s.phase = .even then .odd else if s.phase = .odd then .even else .unknown
        inputs := rest, cycle := s.cycle + (up + h + down + 5) }

/-- R130, R126, R236: the whole of SEND_NIBBLE, for both widths and both strategies, with what stands at the ports in each
cycle; a poll that reads busy N times leaves `POLLS = min(N + 1, 2^32 - 1)` and D7 an output. -/
def Obligations.SendNibbleRunsToTheEnd : Prop :=
  ∀ (s : State) (sync : Sync) (dly : Micros) (n : Nibble) (busy late : List Nat) (rest : List PortInput),
    s.st = .idle → restLegal s = true → (Instr.sendNibble sync dly n).wellFormed s.cfg.busWidth = true →
    s.mode ≠ .unknown → (sync = .busyPoll → s.phase = .odd) →
    let w := cmdWord 0x5#4 sync.bit dly (0#4 ++ n)
    let env := okInputs busy (tx s.cfg n (lastSync s.cfg sync dly) 0#4 false) late
    let s' := offered w (env ++ rest) s
    trace (env.length + 1) s' =
      nibbleRequests s.cfg.busWidth n ++ (if sync = .busyPoll then pollRequests busy.length else []) ∧
    portLog (env.length + 1) s' =
      (.idle, none) :: okSchedule busy (tx s.cfg n (lastSync s.cfg sync dly) 0#4 false) late ∧
    run (env.length + 1) s' = .next
      { s with
        cmd := w, skipped := false, eSh := .low
        phase := if s.phase = .even then .odd else if s.phase = .odd then .even else .unknown
        polls := if sync = .busyPoll then BitVec.ofNat 32 (min (busy.length + 1) (2 ^ 32 - 1)) else s.polls
        d7dir := if sync = .busyPoll then .output else s.d7dir
        inputs := rest, cycle := s.cycle + (env.length + 1) }

/-- R140, R236: the whole of SEND_BYTE, with what stands at the ports in each cycle: two strobes, high nibble first, the phase
as it was. -/
def Obligations.SendByteRunsToTheEnd : Prop :=
  ∀ (s : State) (sync : Sync) (dly : Micros) (b : Byte) (busy late : List Nat) (rest : List PortInput),
    s.st = .idle → restLegal s = true → (Instr.sendByte sync dly b).wellFormed s.cfg.busWidth = true →
    s.mode ≠ .unknown → s.phase ≠ .odd →
    let w := cmdWord 0x6#4 sync.bit dly b
    let env := okInputs busy (byteOps s.cfg (b.extractLsb' 4 4) (b.extractLsb' 0 4) sync dly) late
    let s' := offered w (env ++ rest) s
    trace (env.length + 1) s' =
      nibbleRequests s.cfg.busWidth (b.extractLsb' 4 4) ++ nibbleRequests s.cfg.busWidth (b.extractLsb' 0 4)
        ++ (if sync = .busyPoll then pollRequests busy.length else []) ∧
    portLog (env.length + 1) s' =
      (.idle, none) :: okSchedule busy (byteOps s.cfg (b.extractLsb' 4 4) (b.extractLsb' 0 4) sync dly) late ∧
    run (env.length + 1) s' = .next
      { s with
        cmd := w, skipped := false, eSh := .low
        polls := if sync = .busyPoll then BitVec.ofNat 32 (min (busy.length + 1) (2 ^ 32 - 1)) else s.polls
        d7dir := if sync = .busyPoll then .output else s.d7dir
        inputs := rest, cycle := s.cycle + (env.length + 1) }

/-- R172 to R174, R236, R237: the whole of WRITE_CHAR, with what stands at the ports in each cycle: the code's nibbles, or
SUB_CHAR's, or, for a skipped code, no line op, one cycle, and SKIPPED. -/
def Obligations.WriteCharRunsToTheEnd : Prop :=
  ∀ (s : State) (sync : Sync) (dly : Micros) (c : Byte) (busy late : List Nat) (rest : List PortInput),
    s.st = .idle → restLegal s = true → (Instr.writeChar sync dly c).wellFormed s.cfg.busWidth = true →
    s.mode = .data → s.phase ≠ .odd →
    let w := cmdWord 0x7#4 sync.bit dly c
    (∀ code : Byte, (c.toNat ≤ 0x7F ∧ code = c) ∨
        (0x7F < c.toNat ∧ s.cfg.policy = .substitute ∧ code = s.cfg.subChar.setWidth 8) →
      let env := okInputs busy (byteOps s.cfg (code.extractLsb' 4 4) (code.extractLsb' 0 4) sync dly) late
      let s' := offered w (env ++ rest) s
      trace (env.length + 1) s' =
        nibbleRequests s.cfg.busWidth (code.extractLsb' 4 4) ++ nibbleRequests s.cfg.busWidth (code.extractLsb' 0 4)
          ++ (if sync = .busyPoll then pollRequests busy.length else []) ∧
      portLog (env.length + 1) s' =
        (.idle, none) :: okSchedule busy (byteOps s.cfg (code.extractLsb' 4 4) (code.extractLsb' 0 4) sync dly) late ∧
      run (env.length + 1) s' = .next
        { s with
          cmd := w, skipped := false, eSh := .low
          polls := if sync = .busyPoll then BitVec.ofNat 32 (min (busy.length + 1) (2 ^ 32 - 1)) else s.polls
          d7dir := if sync = .busyPoll then .output else s.d7dir
          inputs := rest, cycle := s.cycle + (env.length + 1) }) ∧
    (0x7F < c.toNat → s.cfg.policy = .skip →
      trace 1 (offered w rest s) = [] ∧
      portLog 1 (offered w rest s) = [(.idle, none)] ∧
      run 1 (offered w rest s) = .next
        { s with cmd := w, skipped := true, inputs := rest, cycle := s.cycle + 1 })

/-- R151, R152, R236: the whole of INIT: the RS write and then exactly the 14 nibbles of the ROM in order, each request in its
cycle after the waits of the script, ending in mode INSTRUCTION, phase EVEN, INIT_DONE, with POLLS and D7DIR as they
were. -/
def Obligations.InitRunsToTheEnd : Prop :=
  ∀ (s : State) (late : List Nat) (rest : List PortInput), s.st = .idle → restLegal s = true →
    let env := okInputs [] (initOps s.cfg) late
    let s' := offered 0x10000000#32 (env ++ rest) s
    trace (env.length + 1) s' =
      .set .rs false :: romTable.flatMap (fun row => nibbleRequests s.cfg.busWidth row.1) ∧
    portLog (env.length + 1) s' = (.idle, none) :: okSchedule [] (initOps s.cfg) late ∧
    run (env.length + 1) s' = .next
      { s with
        cmd := 0x10000000#32, skipped := false, mode := .instruction, rsSh := .low, eSh := .low, phase := .even
        initDone := true, inputs := rest, cycle := s.cycle + (env.length + 1) }

/-- R150, R151: what INIT's list is: the power-on wait, the RS write, the 14 transmissions of the ROM's table, each
with its own index and wait, and the closing statements. -/
def Obligations.InitScriptIsTheRomTable : Prop :=
  ∀ c : Config, initOps c =
    [.wait (cyclesOf c c.powerOnUs), .req (.set .rs false) 15#4]
    ++ romTable.zipIdx.flatMap (fun x => tx c x.1.1 (.fixed (cyclesOf c x.1.2)) (BitVec.ofNat 4 x.2) true)
    ++ [.note .initDone]

/-- The line-op and wait counts of R156 and R238, for the lists of SEND_NIBBLE, SEND_BYTE, a sent WRITE_CHAR and INIT: the input
cycles okInputs lays out for them, when every answer comes one cycle after its request, are two per line op plus the
waits. `P` reads of a poll are `busy.length + 1`. What the machine does in these cycles, for every command,
CommandIsBusyForItsCost says. -/
def Obligations.CommandCost : Prop :=
  ∀ (c : Config) (dly : Micros) (h l : Nibble) (busy : List Nat), (∀ d ∈ busy, d = 0) →
    let N := cyclesOf c
    let strobeWait := c.setupCycles + c.holdCycles
    let data := match c.busWidth with | .four => 1 | .three => 2
    let reads := busy.length + 1
    let cost (ops : List MicroOp) := (okInputs busy ops []).length
    cost (tx c h (lastSync c .fixedDelay dly) 0#4 false) = 2 * (data + 2) + (strobeWait + N dly) ∧
    cost (tx c h (lastSync c .busyPoll dly) 0#4 false) = 2 * (data + 2 + 2 + reads) + strobeWait ∧
    cost (byteOps c h l .fixedDelay dly) = 2 * (2 * (data + 2)) + 2 * (strobeWait + N dly) ∧
    cost (byteOps c h l .busyPoll dly) = 2 * (2 * (data + 2) + 2 + reads) + (2 * strobeWait + N dly) ∧
    cost (initOps c) = 2 * (1 + 14 * (data + 2))
      + (N c.powerOnUs + N 4100#16 + N 100#16 + 12 * N 40000#16 + 14 * strobeWait)

/-- R127: a poll that is answered busy every time never ends: in every cycle of any number of reads the block is BUSY, not
ready, and stands at the same read, and what it presents is reads of D7 only. -/
def Obligations.BusyPollNeverEnds : Prop :=
  ∀ (s : State) (k : BitVec 4) (ops : List MicroOp) (busy : List Nat) (rest : List PortInput),
    s.st = .busy → s.pending = none → s.tmr = 0 → s.seq = .req (.get .d7) k :: ops →
    let env := busy.flatMap fun d => answered d (answersVal true)
    (∀ n : Nat, n ≤ env.length →
      ∃ t, run n { s with inputs := env ++ rest } = .next t ∧ t.st = .busy ∧ cmdReady t = false ∧ t.seq = s.seq) ∧
    trace env.length { s with inputs := env ++ rest } = List.replicate busy.length (.get .d7)

/-- R126: a POLL_SEQ whose line is busy for N reads and then not issues exactly N + 1 GETs, then `DIR(D7, OUT, 0)`, and
leaves `POLLS = min(N + 1, 2^32 - 1)` and D7 an output. The poll follows, as R120 has it, the `OK` answer to `SET(E, 0)` and
the phase statement of the transmission; every line op of it is answered after any number of cycles, and what stands at
the ports is given for each cycle. -/
def Obligations.PollReadsExactlyNPlusOneTimes : Prop :=
  ∀ (s : State) (k : BitVec 4) (busy late : List Nat) (rest : List PortInput),
    s.st = .busy → s.pending = some (.set .e false) → s.tmr = 0 →
    s.seq = .req (.set .e false) k :: .note .togglePhase :: pollSeq k →
    let env := okInputs busy (pollSeq k) late
    let s' := { s with inputs := answersOk :: (env ++ rest) }
    trace (env.length + 1) s' =
      .dirIn .d7 :: (List.replicate (busy.length + 1) (.get .d7) ++ [.dirOut .d7 false]) ∧
    portLog (env.length + 1) s' = (.busy, none) :: okSchedule busy (pollSeq k) late ∧
    run (env.length + 1) s' = .next
      { s with
        st := .idle, seq := [], pending := none, eSh := .low
        phase := if s.phase = .even then .odd else if s.phase = .odd then .even else .unknown
        polls := BitVec.ofNat 32 (min (busy.length + 1) (2 ^ 32 - 1)), d7dir := .output
        inputs := rest, cycle := s.cycle + (env.length + 1) }

/-- R209: an environment that never answers leaves the block BUSY with the request outstanding for any number of cycles. -/
def Obligations.UnansweredRequestWaitsForever : Prop :=
  ∀ (s : State) (r : LineReq) (ps rest : List PortInput), s.st = .busy → s.pending = some r →
    (∀ p ∈ ps, p.rst = false ∧ p.respValid = false) →
    run ps.length { s with inputs := ps ++ rest } = .next { s with inputs := rest, cycle := s.cycle + ps.length } ∧
    trace ps.length { s with inputs := ps ++ rest } = []

/-! ### What the controller latches -/

/-- R61, R62, R141: the requests of a whole SEND_BYTE make the controller latch its high nibble and then its low nibble under
the RS level, with two strobes; with fixed waits they are the requests of two whole SEND_NIBBLEs, high nibble first,
with one strobe each. -/
def Obligations.ByteLatchesHighThenLow : Prop :=
  ∀ (s : State) (sync : Sync) (dly : Micros) (b : Byte) (busy late : List Nat) (rest : List PortInput) (l : Lines),
    s.st = .idle → restLegal s = true → (Instr.sendByte sync dly b).wellFormed s.cfg.busWidth = true →
    s.mode ≠ .unknown → s.phase ≠ .odd → l.e = false →
    let high : Nibble := b.extractLsb' 4 4
    let low : Nibble := b.extractLsb' 0 4
    let env := okInputs busy (byteOps s.cfg high low sync dly) late
    let byteTrace := trace (env.length + 1) (offered (cmdWord 0x6#4 sync.bit dly b) (env ++ rest) s)
    let nibbleTrace (n : Nibble) : List LineReq :=
      let envN := okInputs [] (tx s.cfg n (.fixed (cyclesOf s.cfg dly)) 0#4 false) []
      trace (envN.length + 1) (offered (cmdWord 0x5#4 0#1 dly (0#4 ++ n)) (envN ++ rest) s)
    high ++ low = b ∧
    latched l byteTrace = [(l.rs, high), (l.rs, low)] ∧
    byteTrace.count (.set .e true) = 2 ∧ (∀ n : Nibble, (nibbleTrace n).count (.set .e true) = 1) ∧
    (sync = .fixedDelay → byteTrace = nibbleTrace high ++ nibbleTrace low)

/-- R152: INIT strobes E 14 times and latches the ROM's nibbles in order, all in the instruction register. -/
def Obligations.InitLatchesFourteenNibbles : Prop :=
  ∀ (c : Config) (l : Lines), l.e = false →
    let reqs := okRequests 0 (initOps c)
    reqs.count (.set .e true) = 14 ∧ latched l reqs = romTable.map fun row => (false, row.1)

/-- R178: `WRITE_TEXT "Hi", FIXED(d)` is three commands; presented one after another, each as soon as the block is ready, to an
environment that answers every line op without error, they make one RS write, to 1, and then exactly four nibble
transmissions, which the controller latches as data: 0100, 1000, 0110, 1001. -/
def Obligations.HiIsFourDataNibbles : Prop :=
  ∀ (s : State) (d : Micros) (late : Nat) (lateH lateI : List Nat) (rest : List PortInput),
    s.st = .idle → restLegal s = true → s.phase ≠ .odd →
    let bw := s.cfg.busWidth
    let envH := okInputs [] (byteOps s.cfg 0b0100#4 0b1000#4 .fixedDelay d) lateH
    let envI := okInputs [] (byteOps s.cfg 0b0110#4 0b1001#4 .fixedDelay d) lateI
    let ps := presents 0x30000000#32 :: (answered late answersOk ++
      (presents (cmdWord 0x7#4 0#1 d 0x48#8) :: (envH ++ (presents (cmdWord 0x7#4 0#1 d 0x69#8) :: envI))))
    let s' := { s with inputs := ps ++ rest }
    writeText ['H', 'i'] .fixedDelay d =
      [.selDr, .writeChar .fixedDelay d 0x48#8, .writeChar .fixedDelay d 0x69#8] ∧
    trace ps.length s' =
      .set .rs true :: (nibbleRequests bw 0b0100#4 ++ (nibbleRequests bw 0b1000#4 ++
        (nibbleRequests bw 0b0110#4 ++ nibbleRequests bw 0b1001#4))) ∧
    (∀ l : Lines, l.e = false → latched l (trace ps.length s') =
      [(true, 0b0100#4), (true, 0b1000#4), (true, 0b0110#4), (true, 0b1001#4)]) ∧
    ∃ t, run ps.length s' = .next t ∧ t.st = .idle ∧ t.mode = .data ∧ t.phase = s.phase ∧ t.inputs = rest

/-! ### Invariants and whole-machine rules -/

/-- The block's invariant holds right after reset, whatever the parameters. -/
def Obligations.InvariantHoldsAfterReset : Prop :=
  (∀ c : Config, inv (State.resetWith c) = true ∧ modeMirrorsRs (State.resetWith c) = true ∧
    phaseFromInit (State.resetWith c) = true ∧ seqExpanded (State.resetWith c) = true) ∧ inv State.reset = true

/-- From every state that meets the invariant, whatever the inputs, a step answers a next state, and that state meets it, with
the parameters as they were (R9); and where S.seq holds no controller-side value by itself, it goes on holding none (R23,
log entry 5). -/
def Obligations.EveryStepKeepsTheInvariant : Prop :=
  ∀ s : State, inv s = true → ∃ t, step s = .next t ∧ inv t = true ∧ t.cfg = s.cfg ∧
    (seqExpanded s = true → seqExpanded t = true)

/-- R26 to R28: in every step the mode mirror and the RS shadow go on saying the same, and a known phase goes on coming
from an INIT that completed. -/
def Obligations.EveryStepKeepsTheMirrors : Prop :=
  ∀ s t : State, step s = .next t →
    (modeMirrorsRs s = true → modeMirrorsRs t = true) ∧ (phaseFromInit s = true → phaseFromInit t = true)

/-- R54, R55, R112, R128: the requests a legal state presents are those of the configuration: a SETV has BUS_WIDTH elements;
D7 alone, its direction and its reading are requested with width 3 only; GET is presented only while `D7DIR` is IN; and
while it is IN only GET and the switch back to output are presented (R128 read with R54 and R125: log entry 20). In a
legal state that is not BUSY the shadows say neither that E is asserted nor that D7 is an input, and nothing is
presented; after a failure or a reset they may be X, and the pins unknown (R112, R241, R242). -/
def Obligations.RequestsAreThoseOfTheConfiguration : Prop :=
  ∀ s : State, inv s = true →
    (∀ r : LineReq, lineRequest s = some r →
      ((∃ v, r = .set .e v) ∨ (∃ v, r = .set .rs v) ∨ (∃ vec, r = .setv vec ∧ vec.length = s.cfg.busWidth.lines) ∨
        (s.cfg.busWidth = .three ∧ ((∃ v, r = .set .d7 v) ∨ r = .dirIn .d7 ∨ r = .dirOut .d7 false ∨ r = .get .d7))) ∧
      (r = .get .d7 → s.d7dir = .input) ∧
      (s.d7dir = .input → r = .get .d7 ∨ r = .dirOut .d7 false)) ∧
    (s.st ≠ .busy → s.eSh ≠ .high ∧ s.d7dir ≠ .input ∧ lineRequest s = none)

/-- R26, R103: a step changes the mode mirror only at reset or when an RS write is answered; no read of a line and no
other command changes it. -/
def Obligations.ModeChangesOnlyAtAnRsWrite : Prop :=
  ∀ (s t : State) (p : PortInput) (ps : List PortInput), s.inputs = p :: ps → step s = .next t → t.mode ≠ s.mode →
    p.rst = true ∨ (p.respValid = true ∧ s.pending ≠ none ∧ ∃ v k ops, s.seq = .req (.set .rs v) k :: ops)

/-- R28, R155: a step sets INIT_DONE only by reaching the end of the init script: the closing statement is in the list before
the step, and from a legal state the block is IDLE with an empty list and phase EVEN after it. A step clears it only at
reset or by accepting an INIT. -/
def Obligations.InitDoneWrittenOnlyByInit : Prop :=
  ∀ (s t : State) (p : PortInput) (ps : List PortInput), s.inputs = p :: ps → step s = .next t →
    (t.initDone = true → s.initDone = false → s.st = .busy ∧ .note .initDone ∈ s.seq ∧
      (inv s = true → t.st = .idle ∧ t.seq = [] ∧ t.phase = .even)) ∧
    (t.initDone = false → s.initDone = true →
      p.rst = true ∨ (s.st = .idle ∧ p.cmdValid = true ∧ decodeCmd s.cfg.busWidth p.cmdData = .ok .init))

/-- R29: an accepted command leaves SKIPPED set exactly when it is a WRITE_CHAR that passes its checks and whose character
the SKIP policy drops; a cycle that accepts nothing and does not reset leaves SKIPPED as it is. -/
def Obligations.SkippedSaysTheLastCommandWasDropped : Prop :=
  ∀ (s t : State) (p : PortInput) (ps : List PortInput), s.inputs = p :: ps → p.rst = false → step s = .next t →
    (s.st = .idle → p.cmdValid = true → (t.skipped = true ↔
      ∃ sync dly c, decodeCmd s.cfg.busWidth p.cmdData = .ok (.writeChar sync dly c) ∧ s.mode = .data ∧ s.phase ≠ .odd ∧
        0x7F < c.toNat ∧ s.cfg.policy = .skip)) ∧
    ((s.st ≠ .idle ∨ p.cmdValid = false) → t.skipped = s.skipped)

/-- R30: the error fields are written by error entry and by reset only, so a step that ends in another state than FAILED
leaves them. -/
def Obligations.ErrorFieldsWrittenOnlyByErrorEntry : Prop :=
  ∀ (s t : State) (p : PortInput) (ps : List PortInput), s.inputs = p :: ps → p.rst = false → step s = .next t →
    (t.st ≠ .failed ∨ s.st = .failed) →
    t.err = s.err ∧ t.errOp = s.errOp ∧ t.errLine = s.errLine ∧ t.errNib = s.errNib

/-- R31: a step without `rst` changes POLLS only by presenting a GET, which adds one and saturates, or by starting a POLL_SEQ,
which clears it: the clearing statement is in the list before the step, and from a legal state the poll's first request,
`DIR(D7, IN)`, is presented in the next cycle. That POLLS already reads 0 in that cycle is the model's choice (log entry 9,
DEDUCED and unsafe): R31 and R125 with R236 leave one cycle later open. -/
def Obligations.PollsCountsIssuedReads : Prop :=
  ∀ (s t : State) (p : PortInput) (ps : List PortInput), s.inputs = p :: ps → p.rst = false → step s = .next t →
    t.polls ≠ s.polls →
    (∃ l, lineRequest s = some (.get l) ∧
      t.polls = (if s.polls = BitVec.allOnes 32 then s.polls else s.polls + 1#32)) ∨
    (t.polls = 0#32 ∧ s.st = .busy ∧ .note .clearPolls ∈ s.seq ∧
      (inv s = true → lineRequest t = some (.dirIn .d7)))

/-- R238: a command that passes its checks keeps the block BUSY for exactly the cycles of its row in the table of R238, when
every answer comes one cycle after its request, and the block is IDLE in the cycle after them. `P` reads of a poll are
`busy.length + 1`. -/
def Obligations.CommandIsBusyForItsCost : Prop :=
  ∀ (s t : State) (w : CmdWord) (i : Instr) (busy : List Nat) (rest : List PortInput),
    s.st = .idle → restLegal s = true → decodeCmd s.cfg.busWidth w = .ok i →
    exec i (latchCommand w s) = .next t → t.st ≠ .failed → (∀ d ∈ busy, d = 0) →
    let cost := commandCost s.cfg (busy.length + 1) i
    let s' := offered w (okInputs busy t.seq [] ++ rest) s
    (∀ n : Nat, 1 ≤ n → n ≤ cost → ∃ u, run n s' = .next u ∧ u.st = .busy) ∧
    ∃ u, run (cost + 1) s' = .next u ∧ u.st = .idle ∧ u.inputs = rest
end

