-- ==== Sys2Proof/Laws/Decode.lean ====
section
/-! SUPPORT. A command word is its five fields (30 R70), and what matching a row of 30 R76 says of them. -/

namespace Sys2Proof

/-- A 32-bit word put together from the five fields of R70, reserved bits included. -/
def rawWord (op : BitVec 4) (s : BitVec 1) (rsv : BitVec 3) (dly : Micros) (data : Byte) : CmdWord :=
  op ++ (s ++ (rsv ++ (dly ++ data)))

/-- Field `RSV` of R70. -/
def CmdWord.rsv (w : CmdWord) : BitVec 3 := w.extractLsb' 24 3

theorem cmdWord_eq_rawWord (op : BitVec 4) (s : BitVec 1) (d : Micros) (b : Byte) :
    cmdWord op s d b = rawWord op s 0#3 d b := rfl

section
variable (op op' : BitVec 4) (s s' : BitVec 1) (r r' : BitVec 3) (d d' : Micros) (b b' : Byte)

theorem rawWord_getLsbD (i : Nat) :
    (rawWord op s r d b).getLsbD i =
      if i < 8 then b.getLsbD i else if i < 24 then d.getLsbD (i - 8)
      else if i < 27 then r.getLsbD (i - 24) else if i < 28 then s.getLsbD (i - 27) else op.getLsbD (i - 28) := by
  unfold rawWord
  rw [BitVec.getLsbD_append, BitVec.getLsbD_append, BitVec.getLsbD_append, BitVec.getLsbD_append]
  by_cases h1 : i < 8
  · simp [h1, show i < 24 by omega, show i < 27 by omega, show i < 28 by omega]
  by_cases h2 : i < 24
  · simp [h1, h2, show i < 27 by omega, show i < 28 by omega]
  by_cases h3 : i < 27
  · simp [h1, h2, h3, show i < 28 by omega]
  by_cases h4 : i < 28
  · simp [h1, h2, h3, h4]
  · simp [h1, h2, h3, h4]

@[simp] theorem rawWord_op : CmdWord.op (rawWord op s r d b) = op := by
  apply BitVec.eq_of_getLsbD_eq
  intro i hi
  simp only [CmdWord.op, BitVec.getLsbD_extractLsb', rawWord_getLsbD]
  interval_cases i <;> simp

@[simp] theorem rawWord_s : CmdWord.s (rawWord op s r d b) = s := by
  apply BitVec.eq_of_getLsbD_eq
  intro i hi
  simp only [CmdWord.s, BitVec.getLsbD_extractLsb', rawWord_getLsbD]
  interval_cases i
  simp

@[simp] theorem rawWord_rsv : CmdWord.rsv (rawWord op s r d b) = r := by
  apply BitVec.eq_of_getLsbD_eq
  intro i hi
  simp only [CmdWord.rsv, BitVec.getLsbD_extractLsb', rawWord_getLsbD]
  interval_cases i <;> simp

@[simp] theorem rawWord_dly : CmdWord.dly (rawWord op s r d b) = d := by
  apply BitVec.eq_of_getLsbD_eq
  intro i hi
  simp only [CmdWord.dly, BitVec.getLsbD_extractLsb', rawWord_getLsbD]
  interval_cases i <;> simp

@[simp] theorem rawWord_data : CmdWord.data (rawWord op s r d b) = b := by
  apply BitVec.eq_of_getLsbD_eq
  intro i hi
  simp only [CmdWord.data, BitVec.getLsbD_extractLsb', rawWord_getLsbD]
  interval_cases i <;> simp

theorem rawWord_and :
    rawWord op s r d b &&& rawWord op' s' r' d' b' =
      rawWord (op &&& op') (s &&& s') (r &&& r') (d &&& d') (b &&& b') := by
  apply BitVec.eq_of_getLsbD_eq
  intro i hi
  rw [BitVec.getLsbD_and, rawWord_getLsbD, rawWord_getLsbD, rawWord_getLsbD]
  split_ifs <;> simp

variable {op op' s s' r r' d d' b b'}

theorem rawWord_inj :
    rawWord op s r d b = rawWord op' s' r' d' b' ↔ op = op' ∧ s = s' ∧ r = r' ∧ d = d' ∧ b = b' := by
  constructor
  · intro h
    refine ⟨?_, ?_, ?_, ?_, ?_⟩
    · simpa using congrArg CmdWord.op h
    · simpa using congrArg CmdWord.s h
    · simpa using congrArg CmdWord.rsv h
    · simpa using congrArg CmdWord.dly h
    · simpa using congrArg CmdWord.data h
  · rintro ⟨rfl, rfl, rfl, rfl, rfl⟩
    rfl

end

/-- Every word is its five fields. -/
theorem rawWord_fields (w : CmdWord) : rawWord w.op w.s w.rsv w.dly w.data = w := by
  apply BitVec.eq_of_getLsbD_eq
  intro i hi
  rw [rawWord_getLsbD]
  simp only [CmdWord.op, CmdWord.s, CmdWord.rsv, CmdWord.dly, CmdWord.data, BitVec.getLsbD_extractLsb']
  interval_cases i <;> simp

/-- The low half of the DATA field is the nibble operand (R73). -/
theorem data_low_eq_nibble (w : CmdWord) : w.data.extractLsb' 0 4 = w.nibble := by
  apply BitVec.eq_of_getLsbD_eq
  intro i hi
  simp only [CmdWord.data, CmdWord.nibble, BitVec.getLsbD_extractLsb']
  interval_cases i <;> simp

/-- What matching a row says, field by field, for a row whose pattern and mask are given field by field. -/
theorem matches_iff {row : CmdRow} {po mo : BitVec 4} {ps ms : BitVec 1} {pr mr : BitVec 3} {pd md : Micros} {pb mb : Byte}
    (hp : row.pattern = rawWord po ps pr pd pb) (hm : row.mask = rawWord mo ms mr md mb) (w : CmdWord) :
    row.matches w = true ↔
      w.op &&& mo = po ∧ w.s &&& ms = ps ∧ w.rsv &&& mr = pr ∧ w.dly &&& md = pd ∧ w.data &&& mb = pb := by
  unfold CmdRow.matches
  rw [beq_iff_eq, hp, hm]
  conv_lhs => rw [← rawWord_fields w, rawWord_and]
  exact rawWord_inj

/-- A row with no operand bit: the word is the pattern. -/
theorem matches_full {row : CmdRow} {po : BitVec 4} (hp : row.pattern = rawWord po 0#1 0#3 0#16 0#8)
    (hm : row.mask = BitVec.allOnes 32) (w : CmdWord) :
    row.matches w = true ↔ w.op = po ∧ w.s = 0#1 ∧ w.rsv = 0#3 ∧ w.dly = 0#16 ∧ w.data = 0#8 := by
  unfold CmdRow.matches
  rw [beq_iff_eq, hp, hm, BitVec.and_allOnes]
  conv_lhs => rw [← rawWord_fields w]
  exact rawWord_inj

theorem matches_init (w : CmdWord) :
    CmdRow.init.matches w = true ↔ w.op = 1#4 ∧ w.s = 0#1 ∧ w.rsv = 0#3 ∧ w.dly = 0#16 ∧ w.data = 0#8 :=
  matches_full (by decide) (by decide) w

theorem matches_selIr (w : CmdWord) :
    CmdRow.selIr.matches w = true ↔ w.op = 2#4 ∧ w.s = 0#1 ∧ w.rsv = 0#3 ∧ w.dly = 0#16 ∧ w.data = 0#8 :=
  matches_full (by decide) (by decide) w

theorem matches_selDr (w : CmdWord) :
    CmdRow.selDr.matches w = true ↔ w.op = 3#4 ∧ w.s = 0#1 ∧ w.rsv = 0#3 ∧ w.dly = 0#16 ∧ w.data = 0#8 :=
  matches_full (by decide) (by decide) w

theorem and_15 (x : BitVec 4) : x &&& 15#4 = x := BitVec.and_allOnes
theorem and_7 (x : BitVec 3) : x &&& 7#3 = x := BitVec.and_allOnes
theorem and_1 (x : BitVec 1) : x &&& 1#1 = x := BitVec.and_allOnes
theorem and_255 (x : BitVec 8) : x &&& 0xFF#8 = x := BitVec.and_allOnes

theorem matches_strobe (w : CmdWord) :
    CmdRow.strobe.matches w = true ↔ w.op = 4#4 ∧ w.s = 0#1 ∧ w.rsv = 0#3 ∧ w.data = 0#8 := by
  rw [matches_iff (po := 4#4) (mo := 15#4) (ps := 0#1) (ms := 1#1) (pr := 0#3) (mr := 7#3) (pd := 0#16) (md := 0#16)
    (pb := 0#8) (mb := 0xFF#8) (by decide) (by decide)]
  simp only [and_15, and_7, and_1, and_255, BitVec.and_zero, true_and]

theorem matches_sendNibble (w : CmdWord) :
    CmdRow.sendNibble.matches w = true ↔ w.op = 5#4 ∧ w.rsv = 0#3 ∧ w.data &&& 0xF0#8 = 0#8 := by
  rw [matches_iff (po := 5#4) (mo := 15#4) (ps := 0#1) (ms := 0#1) (pr := 0#3) (mr := 7#3) (pd := 0#16) (md := 0#16)
    (pb := 0#8) (mb := 0xF0#8) (by decide) (by decide)]
  simp only [and_15, and_7, BitVec.and_zero, true_and]

theorem matches_sendByte (w : CmdWord) : CmdRow.sendByte.matches w = true ↔ w.op = 6#4 ∧ w.rsv = 0#3 := by
  rw [matches_iff (po := 6#4) (mo := 15#4) (ps := 0#1) (ms := 0#1) (pr := 0#3) (mr := 7#3) (pd := 0#16) (md := 0#16)
    (pb := 0#8) (mb := 0#8) (by decide) (by decide)]
  simp only [and_15, and_7, BitVec.and_zero, true_and, and_true]

theorem matches_writeChar (w : CmdWord) : CmdRow.writeChar.matches w = true ↔ w.op = 7#4 ∧ w.rsv = 0#3 := by
  rw [matches_iff (po := 7#4) (mo := 15#4) (ps := 0#1) (ms := 0#1) (pr := 0#3) (mr := 7#3) (pd := 0#16) (md := 0#16)
    (pb := 0#8) (mb := 0#8) (by decide) (by decide)]
  simp only [and_15, and_7, BitVec.and_zero, true_and, and_true]

/-- A byte whose high half is 0 is its low half, zero-extended. -/
theorem low_half_of_and_zero (b : Byte) (h : b &&& 0xF0#8 = 0#8) : 0#4 ++ b.extractLsb' 0 4 = b := by
  revert b
  decide

@[simp] theorem ofBit_bit (y : Sync) : Sync.ofBit y.bit = y := by cases y <;> rfl

@[simp] theorem bit_ofBit (b : BitVec 1) : (Sync.ofBit b).bit = b := by
  revert b
  decide

end Sys2Proof
end

