-- ==== Sys2Proof/Laws/State.lean ====
section
/-! SUPPORT. One lemma per field per named update of the state, true by rfl, so that no later proof unfolds an update. -/

namespace Sys2Proof.Machine

/-! ### raiseError -/

@[simp] theorem raiseError_cfg (c : ErrCode) (o : OpKind) (l : Option LineId) (k : BitVec 4) (s : State) : (raiseError c o l k s).cfg = s.cfg := rfl
@[simp] theorem raiseError_st (c : ErrCode) (o : OpKind) (l : Option LineId) (k : BitVec 4) (s : State) : (raiseError c o l k s).st = .failed := rfl
@[simp] theorem raiseError_cmd (c : ErrCode) (o : OpKind) (l : Option LineId) (k : BitVec 4) (s : State) : (raiseError c o l k s).cmd = s.cmd := rfl
@[simp] theorem raiseError_seq (c : ErrCode) (o : OpKind) (l : Option LineId) (k : BitVec 4) (s : State) : (raiseError c o l k s).seq = [] := rfl
@[simp] theorem raiseError_tmr (c : ErrCode) (o : OpKind) (l : Option LineId) (k : BitVec 4) (s : State) : (raiseError c o l k s).tmr = 0 := rfl
@[simp] theorem raiseError_pending (c : ErrCode) (o : OpKind) (l : Option LineId) (k : BitVec 4) (s : State) : (raiseError c o l k s).pending = none := rfl
@[simp] theorem raiseError_mode (c : ErrCode) (o : OpKind) (l : Option LineId) (k : BitVec 4) (s : State) : (raiseError c o l k s).mode = s.mode := rfl
@[simp] theorem raiseError_phase (c : ErrCode) (o : OpKind) (l : Option LineId) (k : BitVec 4) (s : State) : (raiseError c o l k s).phase = if c = .ioError then .unknown else s.phase := rfl
@[simp] theorem raiseError_initDone (c : ErrCode) (o : OpKind) (l : Option LineId) (k : BitVec 4) (s : State) : (raiseError c o l k s).initDone = s.initDone := rfl
@[simp] theorem raiseError_skipped (c : ErrCode) (o : OpKind) (l : Option LineId) (k : BitVec 4) (s : State) : (raiseError c o l k s).skipped = s.skipped := rfl
@[simp] theorem raiseError_err (c : ErrCode) (o : OpKind) (l : Option LineId) (k : BitVec 4) (s : State) : (raiseError c o l k s).err = c := rfl
@[simp] theorem raiseError_errOp (c : ErrCode) (o : OpKind) (l : Option LineId) (k : BitVec 4) (s : State) : (raiseError c o l k s).errOp = if c = .ioError then o else .set := rfl
@[simp] theorem raiseError_errLine (c : ErrCode) (o : OpKind) (l : Option LineId) (k : BitVec 4) (s : State) : (raiseError c o l k s).errLine = if c = .ioError then l else none := rfl
@[simp] theorem raiseError_errNib (c : ErrCode) (o : OpKind) (l : Option LineId) (k : BitVec 4) (s : State) : (raiseError c o l k s).errNib = if c = .ioError then k else 15#4 := rfl
@[simp] theorem raiseError_polls (c : ErrCode) (o : OpKind) (l : Option LineId) (k : BitVec 4) (s : State) : (raiseError c o l k s).polls = s.polls := rfl
@[simp] theorem raiseError_eSh (c : ErrCode) (o : OpKind) (l : Option LineId) (k : BitVec 4) (s : State) : (raiseError c o l k s).eSh = s.eSh := rfl
@[simp] theorem raiseError_rsSh (c : ErrCode) (o : OpKind) (l : Option LineId) (k : BitVec 4) (s : State) : (raiseError c o l k s).rsSh = s.rsSh := rfl
@[simp] theorem raiseError_d7dir (c : ErrCode) (o : OpKind) (l : Option LineId) (k : BitVec 4) (s : State) : (raiseError c o l k s).d7dir = s.d7dir := rfl
@[simp] theorem raiseError_row (c : ErrCode) (o : OpKind) (l : Option LineId) (k : BitVec 4) (s : State) : (raiseError c o l k s).row = s.row := rfl
@[simp] theorem raiseError_inputs (c : ErrCode) (o : OpKind) (l : Option LineId) (k : BitVec 4) (s : State) : (raiseError c o l k s).inputs = s.inputs := rfl
@[simp] theorem raiseError_cycle (c : ErrCode) (o : OpKind) (l : Option LineId) (k : BitVec 4) (s : State) : (raiseError c o l k s).cycle = s.cycle := rfl

/-! ### refuse -/

@[simp] theorem refuse_cfg (c : ErrCode) (s : State) : (refuse c s).cfg = s.cfg := rfl
@[simp] theorem refuse_st (c : ErrCode) (s : State) : (refuse c s).st = .failed := rfl
@[simp] theorem refuse_cmd (c : ErrCode) (s : State) : (refuse c s).cmd = s.cmd := rfl
@[simp] theorem refuse_seq (c : ErrCode) (s : State) : (refuse c s).seq = [] := rfl
@[simp] theorem refuse_tmr (c : ErrCode) (s : State) : (refuse c s).tmr = 0 := rfl
@[simp] theorem refuse_pending (c : ErrCode) (s : State) : (refuse c s).pending = none := rfl
@[simp] theorem refuse_mode (c : ErrCode) (s : State) : (refuse c s).mode = s.mode := rfl
@[simp] theorem refuse_phase (c : ErrCode) (s : State) : (refuse c s).phase = if c = .ioError then .unknown else s.phase := rfl
@[simp] theorem refuse_initDone (c : ErrCode) (s : State) : (refuse c s).initDone = s.initDone := rfl
@[simp] theorem refuse_skipped (c : ErrCode) (s : State) : (refuse c s).skipped = s.skipped := rfl
@[simp] theorem refuse_err (c : ErrCode) (s : State) : (refuse c s).err = c := rfl
@[simp] theorem refuse_errOp (c : ErrCode) (s : State) : (refuse c s).errOp = .set := by simp [refuse]
@[simp] theorem refuse_errLine (c : ErrCode) (s : State) : (refuse c s).errLine = none := by simp [refuse]
@[simp] theorem refuse_errNib (c : ErrCode) (s : State) : (refuse c s).errNib = 15#4 := by simp [refuse]
@[simp] theorem refuse_polls (c : ErrCode) (s : State) : (refuse c s).polls = s.polls := rfl
@[simp] theorem refuse_eSh (c : ErrCode) (s : State) : (refuse c s).eSh = s.eSh := rfl
@[simp] theorem refuse_rsSh (c : ErrCode) (s : State) : (refuse c s).rsSh = s.rsSh := rfl
@[simp] theorem refuse_d7dir (c : ErrCode) (s : State) : (refuse c s).d7dir = s.d7dir := rfl
@[simp] theorem refuse_row (c : ErrCode) (s : State) : (refuse c s).row = s.row := rfl
@[simp] theorem refuse_inputs (c : ErrCode) (s : State) : (refuse c s).inputs = s.inputs := rfl
@[simp] theorem refuse_cycle (c : ErrCode) (s : State) : (refuse c s).cycle = s.cycle := rfl

/-! ### resetBlock -/

@[simp] theorem resetBlock_cfg (s : State) : (resetBlock s).cfg = s.cfg := rfl
@[simp] theorem resetBlock_st (s : State) : (resetBlock s).st = .idle := rfl
@[simp] theorem resetBlock_cmd (s : State) : (resetBlock s).cmd = 0#32 := rfl
@[simp] theorem resetBlock_seq (s : State) : (resetBlock s).seq = [] := rfl
@[simp] theorem resetBlock_tmr (s : State) : (resetBlock s).tmr = 0 := rfl
@[simp] theorem resetBlock_pending (s : State) : (resetBlock s).pending = none := rfl
@[simp] theorem resetBlock_mode (s : State) : (resetBlock s).mode = .unknown := rfl
@[simp] theorem resetBlock_phase (s : State) : (resetBlock s).phase = .unknown := rfl
@[simp] theorem resetBlock_initDone (s : State) : (resetBlock s).initDone = false := rfl
@[simp] theorem resetBlock_skipped (s : State) : (resetBlock s).skipped = false := rfl
@[simp] theorem resetBlock_err (s : State) : (resetBlock s).err = .none := rfl
@[simp] theorem resetBlock_errOp (s : State) : (resetBlock s).errOp = .set := rfl
@[simp] theorem resetBlock_errLine (s : State) : (resetBlock s).errLine = none := rfl
@[simp] theorem resetBlock_errNib (s : State) : (resetBlock s).errNib = 15#4 := rfl
@[simp] theorem resetBlock_polls (s : State) : (resetBlock s).polls = 0#32 := rfl
@[simp] theorem resetBlock_eSh (s : State) : (resetBlock s).eSh = .x := rfl
@[simp] theorem resetBlock_rsSh (s : State) : (resetBlock s).rsSh = .x := rfl
@[simp] theorem resetBlock_d7dir (s : State) : (resetBlock s).d7dir = .x := rfl
@[simp] theorem resetBlock_row (s : State) : (resetBlock s).row = ⟨15#4, 0#16⟩ := rfl
@[simp] theorem resetBlock_inputs (s : State) : (resetBlock s).inputs = s.inputs := rfl
@[simp] theorem resetBlock_cycle (s : State) : (resetBlock s).cycle = s.cycle := rfl

/-! ### latchCommand -/

@[simp] theorem latchCommand_cfg (w : CmdWord) (s : State) : (latchCommand w s).cfg = s.cfg := rfl
@[simp] theorem latchCommand_st (w : CmdWord) (s : State) : (latchCommand w s).st = s.st := rfl
@[simp] theorem latchCommand_cmd (w : CmdWord) (s : State) : (latchCommand w s).cmd = w := rfl
@[simp] theorem latchCommand_seq (w : CmdWord) (s : State) : (latchCommand w s).seq = s.seq := rfl
@[simp] theorem latchCommand_tmr (w : CmdWord) (s : State) : (latchCommand w s).tmr = s.tmr := rfl
@[simp] theorem latchCommand_pending (w : CmdWord) (s : State) : (latchCommand w s).pending = s.pending := rfl
@[simp] theorem latchCommand_mode (w : CmdWord) (s : State) : (latchCommand w s).mode = s.mode := rfl
@[simp] theorem latchCommand_phase (w : CmdWord) (s : State) : (latchCommand w s).phase = s.phase := rfl
@[simp] theorem latchCommand_initDone (w : CmdWord) (s : State) : (latchCommand w s).initDone = s.initDone := rfl
@[simp] theorem latchCommand_skipped (w : CmdWord) (s : State) : (latchCommand w s).skipped = false := rfl
@[simp] theorem latchCommand_err (w : CmdWord) (s : State) : (latchCommand w s).err = s.err := rfl
@[simp] theorem latchCommand_errOp (w : CmdWord) (s : State) : (latchCommand w s).errOp = s.errOp := rfl
@[simp] theorem latchCommand_errLine (w : CmdWord) (s : State) : (latchCommand w s).errLine = s.errLine := rfl
@[simp] theorem latchCommand_errNib (w : CmdWord) (s : State) : (latchCommand w s).errNib = s.errNib := rfl
@[simp] theorem latchCommand_polls (w : CmdWord) (s : State) : (latchCommand w s).polls = s.polls := rfl
@[simp] theorem latchCommand_eSh (w : CmdWord) (s : State) : (latchCommand w s).eSh = s.eSh := rfl
@[simp] theorem latchCommand_rsSh (w : CmdWord) (s : State) : (latchCommand w s).rsSh = s.rsSh := rfl
@[simp] theorem latchCommand_d7dir (w : CmdWord) (s : State) : (latchCommand w s).d7dir = s.d7dir := rfl
@[simp] theorem latchCommand_row (w : CmdWord) (s : State) : (latchCommand w s).row = s.row := rfl
@[simp] theorem latchCommand_inputs (w : CmdWord) (s : State) : (latchCommand w s).inputs = s.inputs := rfl
@[simp] theorem latchCommand_cycle (w : CmdWord) (s : State) : (latchCommand w s).cycle = s.cycle := rfl

/-! ### startSeq -/

@[simp] theorem startSeq_cfg (ops : List MicroOp) (s : State) : (startSeq ops s).cfg = s.cfg := rfl
@[simp] theorem startSeq_st (ops : List MicroOp) (s : State) : (startSeq ops s).st = .busy := rfl
@[simp] theorem startSeq_cmd (ops : List MicroOp) (s : State) : (startSeq ops s).cmd = s.cmd := rfl
@[simp] theorem startSeq_seq (ops : List MicroOp) (s : State) : (startSeq ops s).seq = ops := rfl
@[simp] theorem startSeq_tmr (ops : List MicroOp) (s : State) : (startSeq ops s).tmr = s.tmr := rfl
@[simp] theorem startSeq_pending (ops : List MicroOp) (s : State) : (startSeq ops s).pending = s.pending := rfl
@[simp] theorem startSeq_mode (ops : List MicroOp) (s : State) : (startSeq ops s).mode = s.mode := rfl
@[simp] theorem startSeq_phase (ops : List MicroOp) (s : State) : (startSeq ops s).phase = s.phase := rfl
@[simp] theorem startSeq_initDone (ops : List MicroOp) (s : State) : (startSeq ops s).initDone = s.initDone := rfl
@[simp] theorem startSeq_skipped (ops : List MicroOp) (s : State) : (startSeq ops s).skipped = s.skipped := rfl
@[simp] theorem startSeq_err (ops : List MicroOp) (s : State) : (startSeq ops s).err = s.err := rfl
@[simp] theorem startSeq_errOp (ops : List MicroOp) (s : State) : (startSeq ops s).errOp = s.errOp := rfl
@[simp] theorem startSeq_errLine (ops : List MicroOp) (s : State) : (startSeq ops s).errLine = s.errLine := rfl
@[simp] theorem startSeq_errNib (ops : List MicroOp) (s : State) : (startSeq ops s).errNib = s.errNib := rfl
@[simp] theorem startSeq_polls (ops : List MicroOp) (s : State) : (startSeq ops s).polls = s.polls := rfl
@[simp] theorem startSeq_eSh (ops : List MicroOp) (s : State) : (startSeq ops s).eSh = s.eSh := rfl
@[simp] theorem startSeq_rsSh (ops : List MicroOp) (s : State) : (startSeq ops s).rsSh = s.rsSh := rfl
@[simp] theorem startSeq_d7dir (ops : List MicroOp) (s : State) : (startSeq ops s).d7dir = s.d7dir := rfl
@[simp] theorem startSeq_row (ops : List MicroOp) (s : State) : (startSeq ops s).row = s.row := rfl
@[simp] theorem startSeq_inputs (ops : List MicroOp) (s : State) : (startSeq ops s).inputs = s.inputs := rfl
@[simp] theorem startSeq_cycle (ops : List MicroOp) (s : State) : (startSeq ops s).cycle = s.cycle := rfl

/-! ### latchRow -/

@[simp] theorem latchRow_cfg (r : RomRow) (s : State) : (latchRow r s).cfg = s.cfg := rfl
@[simp] theorem latchRow_st (r : RomRow) (s : State) : (latchRow r s).st = s.st := rfl
@[simp] theorem latchRow_cmd (r : RomRow) (s : State) : (latchRow r s).cmd = s.cmd := rfl
@[simp] theorem latchRow_seq (r : RomRow) (s : State) : (latchRow r s).seq = s.seq := rfl
@[simp] theorem latchRow_tmr (r : RomRow) (s : State) : (latchRow r s).tmr = s.tmr := rfl
@[simp] theorem latchRow_pending (r : RomRow) (s : State) : (latchRow r s).pending = s.pending := rfl
@[simp] theorem latchRow_mode (r : RomRow) (s : State) : (latchRow r s).mode = s.mode := rfl
@[simp] theorem latchRow_phase (r : RomRow) (s : State) : (latchRow r s).phase = s.phase := rfl
@[simp] theorem latchRow_initDone (r : RomRow) (s : State) : (latchRow r s).initDone = s.initDone := rfl
@[simp] theorem latchRow_skipped (r : RomRow) (s : State) : (latchRow r s).skipped = s.skipped := rfl
@[simp] theorem latchRow_err (r : RomRow) (s : State) : (latchRow r s).err = s.err := rfl
@[simp] theorem latchRow_errOp (r : RomRow) (s : State) : (latchRow r s).errOp = s.errOp := rfl
@[simp] theorem latchRow_errLine (r : RomRow) (s : State) : (latchRow r s).errLine = s.errLine := rfl
@[simp] theorem latchRow_errNib (r : RomRow) (s : State) : (latchRow r s).errNib = s.errNib := rfl
@[simp] theorem latchRow_polls (r : RomRow) (s : State) : (latchRow r s).polls = s.polls := rfl
@[simp] theorem latchRow_eSh (r : RomRow) (s : State) : (latchRow r s).eSh = s.eSh := rfl
@[simp] theorem latchRow_rsSh (r : RomRow) (s : State) : (latchRow r s).rsSh = s.rsSh := rfl
@[simp] theorem latchRow_d7dir (r : RomRow) (s : State) : (latchRow r s).d7dir = s.d7dir := rfl
@[simp] theorem latchRow_row (r : RomRow) (s : State) : (latchRow r s).row = ⟨r.nib, r.waitUs⟩ := rfl
@[simp] theorem latchRow_inputs (r : RomRow) (s : State) : (latchRow r s).inputs = s.inputs := rfl
@[simp] theorem latchRow_cycle (r : RomRow) (s : State) : (latchRow r s).cycle = s.cycle := rfl

/-! ### nextCycle -/

@[simp] theorem nextCycle_cfg (s : State) : (nextCycle s).cfg = s.cfg := rfl
@[simp] theorem nextCycle_st (s : State) : (nextCycle s).st = s.st := rfl
@[simp] theorem nextCycle_cmd (s : State) : (nextCycle s).cmd = s.cmd := rfl
@[simp] theorem nextCycle_seq (s : State) : (nextCycle s).seq = s.seq := rfl
@[simp] theorem nextCycle_tmr (s : State) : (nextCycle s).tmr = s.tmr := rfl
@[simp] theorem nextCycle_pending (s : State) : (nextCycle s).pending = s.pending := rfl
@[simp] theorem nextCycle_mode (s : State) : (nextCycle s).mode = s.mode := rfl
@[simp] theorem nextCycle_phase (s : State) : (nextCycle s).phase = s.phase := rfl
@[simp] theorem nextCycle_initDone (s : State) : (nextCycle s).initDone = s.initDone := rfl
@[simp] theorem nextCycle_skipped (s : State) : (nextCycle s).skipped = s.skipped := rfl
@[simp] theorem nextCycle_err (s : State) : (nextCycle s).err = s.err := rfl
@[simp] theorem nextCycle_errOp (s : State) : (nextCycle s).errOp = s.errOp := rfl
@[simp] theorem nextCycle_errLine (s : State) : (nextCycle s).errLine = s.errLine := rfl
@[simp] theorem nextCycle_errNib (s : State) : (nextCycle s).errNib = s.errNib := rfl
@[simp] theorem nextCycle_polls (s : State) : (nextCycle s).polls = s.polls := rfl
@[simp] theorem nextCycle_eSh (s : State) : (nextCycle s).eSh = s.eSh := rfl
@[simp] theorem nextCycle_rsSh (s : State) : (nextCycle s).rsSh = s.rsSh := rfl
@[simp] theorem nextCycle_d7dir (s : State) : (nextCycle s).d7dir = s.d7dir := rfl
@[simp] theorem nextCycle_row (s : State) : (nextCycle s).row = s.row := rfl
@[simp] theorem nextCycle_inputs (s : State) : (nextCycle s).inputs = s.inputs.tail := rfl
@[simp] theorem nextCycle_cycle (s : State) : (nextCycle s).cycle = s.cycle + 1 := rfl

/-! ### applyOk: the fields it never writes -/

@[simp] theorem applyOk_cfg (r : LineReq) (s : State) : (applyOk r s).cfg = s.cfg := by unfold applyOk; split <;> rfl
@[simp] theorem applyOk_st (r : LineReq) (s : State) : (applyOk r s).st = s.st := by unfold applyOk; split <;> rfl
@[simp] theorem applyOk_cmd (r : LineReq) (s : State) : (applyOk r s).cmd = s.cmd := by unfold applyOk; split <;> rfl
@[simp] theorem applyOk_seq (r : LineReq) (s : State) : (applyOk r s).seq = s.seq := by unfold applyOk; split <;> rfl
@[simp] theorem applyOk_tmr (r : LineReq) (s : State) : (applyOk r s).tmr = s.tmr := by unfold applyOk; split <;> rfl
@[simp] theorem applyOk_pending (r : LineReq) (s : State) : (applyOk r s).pending = s.pending := by unfold applyOk; split <;> rfl
@[simp] theorem applyOk_phase (r : LineReq) (s : State) : (applyOk r s).phase = s.phase := by unfold applyOk; split <;> rfl
@[simp] theorem applyOk_initDone (r : LineReq) (s : State) : (applyOk r s).initDone = s.initDone := by unfold applyOk; split <;> rfl
@[simp] theorem applyOk_skipped (r : LineReq) (s : State) : (applyOk r s).skipped = s.skipped := by unfold applyOk; split <;> rfl
@[simp] theorem applyOk_err (r : LineReq) (s : State) : (applyOk r s).err = s.err := by unfold applyOk; split <;> rfl
@[simp] theorem applyOk_errOp (r : LineReq) (s : State) : (applyOk r s).errOp = s.errOp := by unfold applyOk; split <;> rfl
@[simp] theorem applyOk_errLine (r : LineReq) (s : State) : (applyOk r s).errLine = s.errLine := by unfold applyOk; split <;> rfl
@[simp] theorem applyOk_errNib (r : LineReq) (s : State) : (applyOk r s).errNib = s.errNib := by unfold applyOk; split <;> rfl
@[simp] theorem applyOk_polls (r : LineReq) (s : State) : (applyOk r s).polls = s.polls := by unfold applyOk; split <;> rfl
@[simp] theorem applyOk_row (r : LineReq) (s : State) : (applyOk r s).row = s.row := by unfold applyOk; split <;> rfl
@[simp] theorem applyOk_inputs (r : LineReq) (s : State) : (applyOk r s).inputs = s.inputs := by unfold applyOk; split <;> rfl
@[simp] theorem applyOk_cycle (r : LineReq) (s : State) : (applyOk r s).cycle = s.cycle := by unfold applyOk; split <;> rfl

/-! ### applyErr: the fields it never writes -/

@[simp] theorem applyErr_cfg (r : LineReq) (s : State) : (applyErr r s).cfg = s.cfg := by unfold applyErr; split <;> rfl
@[simp] theorem applyErr_st (r : LineReq) (s : State) : (applyErr r s).st = s.st := by unfold applyErr; split <;> rfl
@[simp] theorem applyErr_cmd (r : LineReq) (s : State) : (applyErr r s).cmd = s.cmd := by unfold applyErr; split <;> rfl
@[simp] theorem applyErr_seq (r : LineReq) (s : State) : (applyErr r s).seq = s.seq := by unfold applyErr; split <;> rfl
@[simp] theorem applyErr_tmr (r : LineReq) (s : State) : (applyErr r s).tmr = s.tmr := by unfold applyErr; split <;> rfl
@[simp] theorem applyErr_pending (r : LineReq) (s : State) : (applyErr r s).pending = s.pending := by unfold applyErr; split <;> rfl
@[simp] theorem applyErr_phase (r : LineReq) (s : State) : (applyErr r s).phase = s.phase := by unfold applyErr; split <;> rfl
@[simp] theorem applyErr_initDone (r : LineReq) (s : State) : (applyErr r s).initDone = s.initDone := by unfold applyErr; split <;> rfl
@[simp] theorem applyErr_skipped (r : LineReq) (s : State) : (applyErr r s).skipped = s.skipped := by unfold applyErr; split <;> rfl
@[simp] theorem applyErr_err (r : LineReq) (s : State) : (applyErr r s).err = s.err := by unfold applyErr; split <;> rfl
@[simp] theorem applyErr_errOp (r : LineReq) (s : State) : (applyErr r s).errOp = s.errOp := by unfold applyErr; split <;> rfl
@[simp] theorem applyErr_errLine (r : LineReq) (s : State) : (applyErr r s).errLine = s.errLine := by unfold applyErr; split <;> rfl
@[simp] theorem applyErr_errNib (r : LineReq) (s : State) : (applyErr r s).errNib = s.errNib := by unfold applyErr; split <;> rfl
@[simp] theorem applyErr_polls (r : LineReq) (s : State) : (applyErr r s).polls = s.polls := by unfold applyErr; split <;> rfl
@[simp] theorem applyErr_row (r : LineReq) (s : State) : (applyErr r s).row = s.row := by unfold applyErr; split <;> rfl
@[simp] theorem applyErr_inputs (r : LineReq) (s : State) : (applyErr r s).inputs = s.inputs := by unfold applyErr; split <;> rfl
@[simp] theorem applyErr_cycle (r : LineReq) (s : State) : (applyErr r s).cycle = s.cycle := by unfold applyErr; split <;> rfl

/-! ### applyNote: the fields it never writes -/

@[simp] theorem applyNote_cfg (b : Note) (s : State) : (applyNote b s).cfg = s.cfg := by unfold applyNote; split <;> rfl
@[simp] theorem applyNote_st (b : Note) (s : State) : (applyNote b s).st = s.st := by unfold applyNote; split <;> rfl
@[simp] theorem applyNote_cmd (b : Note) (s : State) : (applyNote b s).cmd = s.cmd := by unfold applyNote; split <;> rfl
@[simp] theorem applyNote_seq (b : Note) (s : State) : (applyNote b s).seq = s.seq := by unfold applyNote; split <;> rfl
@[simp] theorem applyNote_tmr (b : Note) (s : State) : (applyNote b s).tmr = s.tmr := by unfold applyNote; split <;> rfl
@[simp] theorem applyNote_pending (b : Note) (s : State) : (applyNote b s).pending = s.pending := by unfold applyNote; split <;> rfl
@[simp] theorem applyNote_mode (b : Note) (s : State) : (applyNote b s).mode = s.mode := by unfold applyNote; split <;> rfl
@[simp] theorem applyNote_skipped (b : Note) (s : State) : (applyNote b s).skipped = s.skipped := by unfold applyNote; split <;> rfl
@[simp] theorem applyNote_err (b : Note) (s : State) : (applyNote b s).err = s.err := by unfold applyNote; split <;> rfl
@[simp] theorem applyNote_errOp (b : Note) (s : State) : (applyNote b s).errOp = s.errOp := by unfold applyNote; split <;> rfl
@[simp] theorem applyNote_errLine (b : Note) (s : State) : (applyNote b s).errLine = s.errLine := by unfold applyNote; split <;> rfl
@[simp] theorem applyNote_errNib (b : Note) (s : State) : (applyNote b s).errNib = s.errNib := by unfold applyNote; split <;> rfl
@[simp] theorem applyNote_eSh (b : Note) (s : State) : (applyNote b s).eSh = s.eSh := by unfold applyNote; split <;> rfl
@[simp] theorem applyNote_rsSh (b : Note) (s : State) : (applyNote b s).rsSh = s.rsSh := by unfold applyNote; split <;> rfl
@[simp] theorem applyNote_d7dir (b : Note) (s : State) : (applyNote b s).d7dir = s.d7dir := by unfold applyNote; split <;> rfl
@[simp] theorem applyNote_row (b : Note) (s : State) : (applyNote b s).row = s.row := by unfold applyNote; split <;> rfl
@[simp] theorem applyNote_inputs (b : Note) (s : State) : (applyNote b s).inputs = s.inputs := by unfold applyNote; split <;> rfl
@[simp] theorem applyNote_cycle (b : Note) (s : State) : (applyNote b s).cycle = s.cycle := by unfold applyNote; split <;> rfl

/-! ### issue: the fields it never writes -/

@[simp] theorem issue_cfg (r : LineReq) (s : State) : (issue r s).cfg = s.cfg := by unfold issue; split <;> rfl
@[simp] theorem issue_st (r : LineReq) (s : State) : (issue r s).st = s.st := by unfold issue; split <;> rfl
@[simp] theorem issue_cmd (r : LineReq) (s : State) : (issue r s).cmd = s.cmd := by unfold issue; split <;> rfl
@[simp] theorem issue_seq (r : LineReq) (s : State) : (issue r s).seq = s.seq := by unfold issue; split <;> rfl
@[simp] theorem issue_tmr (r : LineReq) (s : State) : (issue r s).tmr = s.tmr := by unfold issue; split <;> rfl
@[simp] theorem issue_mode (r : LineReq) (s : State) : (issue r s).mode = s.mode := by unfold issue; split <;> rfl
@[simp] theorem issue_phase (r : LineReq) (s : State) : (issue r s).phase = s.phase := by unfold issue; split <;> rfl
@[simp] theorem issue_initDone (r : LineReq) (s : State) : (issue r s).initDone = s.initDone := by unfold issue; split <;> rfl
@[simp] theorem issue_skipped (r : LineReq) (s : State) : (issue r s).skipped = s.skipped := by unfold issue; split <;> rfl
@[simp] theorem issue_err (r : LineReq) (s : State) : (issue r s).err = s.err := by unfold issue; split <;> rfl
@[simp] theorem issue_errOp (r : LineReq) (s : State) : (issue r s).errOp = s.errOp := by unfold issue; split <;> rfl
@[simp] theorem issue_errLine (r : LineReq) (s : State) : (issue r s).errLine = s.errLine := by unfold issue; split <;> rfl
@[simp] theorem issue_errNib (r : LineReq) (s : State) : (issue r s).errNib = s.errNib := by unfold issue; split <;> rfl
@[simp] theorem issue_eSh (r : LineReq) (s : State) : (issue r s).eSh = s.eSh := by unfold issue; split <;> rfl
@[simp] theorem issue_rsSh (r : LineReq) (s : State) : (issue r s).rsSh = s.rsSh := by unfold issue; split <;> rfl
@[simp] theorem issue_d7dir (r : LineReq) (s : State) : (issue r s).d7dir = s.d7dir := by unfold issue; split <;> rfl
@[simp] theorem issue_row (r : LineReq) (s : State) : (issue r s).row = s.row := by unfold issue; split <;> rfl
@[simp] theorem issue_inputs (r : LineReq) (s : State) : (issue r s).inputs = s.inputs := by unfold issue; split <;> rfl
@[simp] theorem issue_cycle (r : LineReq) (s : State) : (issue r s).cycle = s.cycle := by unfold issue; split <;> rfl

@[simp] theorem issue_pending (r : LineReq) (s : State) : (issue r s).pending = some r := by unfold issue; split <;> rfl

end Sys2Proof.Machine
end

