-- ==== Sys2Proof/Laws/Ops.lean ====
section
/-! SUPPORT. One lemma per shared operation, saying once what it can do: the checks at acceptance, the meanings, the end
of a micro-operation, one cycle. -/

namespace Sys2Proof.Machine

/-! ### Acceptance -/

theorem checkThen_refused {i : Instr} {s : State} {e : ErrCode} (effect : State → State) (h : acceptError i s = some e) :
    checkThen i effect s = refuse e s := by
  simp [checkThen, h]

theorem checkThen_passed {i : Instr} {s : State} (effect : State → State) (h : acceptError i s = none) :
    checkThen i effect s = effect s := by
  simp [checkThen, h]

/-- The errors of acceptance are the four of R196. -/
theorem acceptError_ne_ioError {i : Instr} {s : State} {e : ErrCode} (h : acceptError i s = some e) :
    e ≠ .ioError ∧ e ≠ .none := by
  unfold acceptError at h
  split_ifs at h <;> cases h <;> decide

/-- The checks look at the parameters and the two mirrors only. -/
theorem acceptError_congr {i : Instr} {s t : State} (hc : s.cfg = t.cfg) (hm : s.mode = t.mode) (hp : s.phase = t.phase) :
    acceptError i s = acceptError i t := by
  simp [acceptError, hc, hm, hp]

@[simp] theorem acceptError_latchCommand (i : Instr) (w : CmdWord) (s : State) :
    acceptError i (latchCommand w s) = acceptError i s := rfl

@[simp] theorem acceptError_nextCycle (i : Instr) (s : State) : acceptError i (nextCycle s) = acceptError i s := rfl

/-! ### The meanings -/

/-- The micro-operations a host command expands to when it passes its checks, none where it does not start the
sequencer (a skipped character). -/
def expansion (c : Config) : Instr → Option (List MicroOp)
  | .init => some (initOps c)
  | .selIr => some [.req (.set .rs false) 15#4]
  | .selDr => some [.req (.set .rs true) 15#4]
  | .strobe dly => some (strobeSeq (strobeHold c dly) 15#4 ++ [.note .togglePhase])
  | .sendNibble sync dly n => some (tx c n (lastSync c sync dly) 0#4 false)
  | .sendByte sync dly b => some (byteOps c (highNibble b) (lowNibble b) sync dly)
  | .writeChar sync dly ch => (charNibbles c ch).map fun p => byteOps c p.1 p.2 sync dly
  | _ => none

/-- The state a passed command's list starts from: INIT clears the flag and the phase first (R151). -/
def beforeSeq : Instr → State → State
  | .init, s => { s with initDone := false, phase := .unknown }
  | _, s => s

/-- The controller-side value of a controller-side instruction. -/
def lcdValue : Instr → Option LcdWord
  | .lcdFunctionSet8bitNibble => some (.nibble 0x3#4)
  | .lcdFunctionSet4bitNibble => some (.nibble 0x2#4)
  | .lcdFunctionSet4bit2line5x8 => some (.byte 0x28#8)
  | .lcdDisplayOnCursorOffBlinkOff => some (.byte 0x0C#8)
  | .lcdClearDisplay => some (.byte 0x01#8)
  | .lcdReturnHome => some (.byte 0x02#8)
  | .lcdEntryModeIncNoshift => some (.byte 0x06#8)
  | _ => none

/-- Everything exec can do: send a controller-side value, refuse a command, start its list, or drop its character. -/
theorem exec_eq (i : Instr) (s : State) :
    exec i s = .next (match lcdValue i with
      | some l => sendScripted l s
      | none => match acceptError i s with
        | some e => refuse e s
        | none => match expansion s.cfg i with
          | some ops => startSeq ops (beforeSeq i s)
          | none => { s with skipped := true }) := by
  cases i <;> simp only [exec, execInit, execSelIr, execSelDr, execStrobe, execSendNibble, execSendByte, execWriteChar,
    execLcdFunctionSet8bitNibble, execLcdFunctionSet4bitNibble, execLcdFunctionSet4bit2line5x8,
    execLcdDisplayOnCursorOffBlinkOff, execLcdClearDisplay, execLcdReturnHome, execLcdEntryModeIncNoshift,
    lcdValue, checkThen, expansion, beforeSeq, writeChar] <;> (try rfl)
  · split <;> simp_all
    split <;> simp_all

/-- The decoder of controller-side values reads back the value of R84 that the instruction stands for. -/
theorem lcdValue_of_decodeLcd {l : LcdWord} {i : Instr} (h : decodeLcd l = .ok i) : lcdValue i = some l := by
  cases l <;> simp only [decodeLcd] at h <;> split_ifs at h <;> simp_all [lcdValue] <;> cases h <;> rfl

/-- The decoder of host words reads host commands only. -/
theorem lcdValue_of_decodeCmd {bw : BusWidth} {w : CmdWord} {i : Instr} (h : decodeCmd bw w = .ok i) : lcdValue i = none := by
  simp only [decodeCmd] at h
  split_ifs at h <;> cases h <;> rfl

/-- Executing a listed value with a row in hand sends it with the row's index and wait. -/
theorem runRow_listed {r : RomRow} {i : Instr} (h : decodeLcd r.word = .ok i) (s : State) :
    runRow r s = .next (sendScripted r.word (latchRow r s)) := by
  simp [runRow, h, exec_eq, lcdValue_of_decodeLcd h]

/-- Executing rows of listed values leaves in front of the list what INIT's list holds for them. -/
theorem execRows_listed {rows : List RomRow} (h : ∀ r ∈ rows, ∃ i, decodeLcd r.word = .ok i) (s : State) :
    ∃ t, execRows rows s = .next t ∧ t.seq = rows.flatMap (rowOps s.cfg) ++ s.seq ∧ t.cfg = s.cfg := by
  induction rows with
  | nil => exact ⟨s, rfl, rfl, rfl⟩
  | cons r rows ih =>
    obtain ⟨t, ht, hseq, hc⟩ := ih fun q hq => h q (List.mem_cons_of_mem r hq)
    obtain ⟨i, hi⟩ := h r (List.mem_cons_self ..)
    exact ⟨_, by rw [execRows, ht]; exact runRow_listed hi t, by simp [sendScripted, rowOps, hseq, hc], by simp [sendScripted, hc]⟩

/-! ### One cycle -/

@[simp] theorem portInput_cons {s : State} {p : PortInput} {ps : List PortInput} (h : s.inputs = p :: ps) :
    portInput s = p := by
  simp [portInput, h]

/-- A step with the inputs of the cycle given. -/
theorem step_of_inputs {s : State} {p : PortInput} {ps : List PortInput} (h : s.inputs = p :: ps) :
    step s = clock p (nextCycle s) := by
  simp [step, portInput_cons h]

theorem clock_busy {p : PortInput} {s : State} (hr : p.rst = false) (hb : s.st = .busy) : clock p s = busyCycle p s := by
  simp [clock, hr, hb]

theorem clock_idle_quiet {p : PortInput} {s : State} (hr : p.rst = false) (hi : s.st = .idle) (hv : p.cmdValid = false) :
    clock p s = .next s := by
  simp [clock, hr, hi, hv]

theorem clock_accept {p : PortInput} {s : State} (hr : p.rst = false) (hi : s.st = .idle) (hv : p.cmdValid = true) :
    clock p s = accept p.cmdData s := by
  simp [clock, hr, hi, hv]

theorem clock_failed {p : PortInput} {s : State} (hr : p.rst = false) (hf : s.st = .failed) : clock p s = .next s := by
  simp [clock, hr, hf]

theorem clock_reset {p : PortInput} {s : State} (hr : p.rst = true) : clock p s = .next (resetBlock s) := by
  simp [clock, hr]

/-! ### Runs -/

theorem run_zero (s : State) : run 0 s = .next s := rfl

theorem run_succ (k : Nat) {s t : State} (h : step s = .next t) : run (k + 1) s = run k t := by
  simp only [run, Host.Core.run, core, h]

theorem portLog_succ (k : Nat) {s t : State} (h : step s = .next t) :
    portLog (k + 1) s = (s.st, lineRequest s) :: portLog k t := by
  simp [portLog, h]

/-- `k` cycles lead from `s` to `t`, with these states and requests at the ports. -/
def RunsTo (k : Nat) (s t : State) (log : List (SeqState × Option LineReq)) : Prop :=
  run k s = .next t ∧ portLog k s = log

/-- The requests of a run are those its log shows. -/
theorem RunsTo.trace_eq {k : Nat} {s t : State} {log : List (SeqState × Option LineReq)} (h : RunsTo k s t log) :
    trace k s = log.filterMap (·.2) := by
  rw [trace, h.2]

theorem RunsTo.refl (s : State) : RunsTo 0 s s [] := ⟨rfl, rfl⟩

theorem RunsTo.cons {k : Nat} {s u t : State} {log : List (SeqState × Option LineReq)} (h : step s = .next u)
    (hk : RunsTo k u t log) : RunsTo (k + 1) s t ((s.st, lineRequest s) :: log) :=
  ⟨(run_succ k h).trans hk.1, by rw [portLog_succ k h, hk.2]⟩

theorem RunsTo.trans {j k : Nat} {s u t : State} {qs rs : List (SeqState × Option LineReq)} (hj : RunsTo j s u qs) (hk : RunsTo k u t rs) :
    RunsTo (j + k) s t (qs ++ rs) := by
  induction j generalizing s qs with
  | zero =>
    obtain ⟨h1, h2⟩ := hj
    rw [run_zero] at h1
    cases h1
    subst h2
    simpa [portLog] using hk
  | succ j ih =>
    obtain ⟨h1, h2⟩ := hj
    cases hs : step s with
    | next v =>
      rw [run_succ j hs] at h1
      rw [portLog_succ j hs] at h2
      have := RunsTo.cons hs (ih ⟨h1, rfl⟩)
      rw [← h2, Nat.add_right_comm, List.cons_append]
      exact this
    | fault f => exact nomatch f
    | refused r => simp [run, Host.Core.run, core, hs] at h1

end Sys2Proof.Machine
end

