-- ==== Sys2Proof/Laws/PerInstr.lean ====
section
/-! SUPPORT. Per-instruction laws: the family RoundTrip, one lemma per constructor of Instr. -/

namespace Sys2Proof.Laws.RoundTrip

/-- The decoder reads a well-formed instruction's own word back as that instruction. -/
def Statement (i : Instr) : Prop := ∀ bw, i.wellFormed bw = true → decode bw (encode i) = .ok i

/-- What the decoder's rows say of a word put together from its fields. -/
theorem rows (op : BitVec 4) (s : BitVec 1) (d : Micros) (b : Byte) :
    (CmdRow.init.matches (cmdWord op s d b) = true ↔ op = 1#4 ∧ s = 0#1 ∧ d = 0#16 ∧ b = 0#8)
    ∧ (CmdRow.selIr.matches (cmdWord op s d b) = true ↔ op = 2#4 ∧ s = 0#1 ∧ d = 0#16 ∧ b = 0#8)
    ∧ (CmdRow.selDr.matches (cmdWord op s d b) = true ↔ op = 3#4 ∧ s = 0#1 ∧ d = 0#16 ∧ b = 0#8)
    ∧ (CmdRow.strobe.matches (cmdWord op s d b) = true ↔ op = 4#4 ∧ s = 0#1 ∧ b = 0#8)
    ∧ (CmdRow.sendNibble.matches (cmdWord op s d b) = true ↔ op = 5#4 ∧ b &&& 0xF0#8 = 0#8)
    ∧ (CmdRow.sendByte.matches (cmdWord op s d b) = true ↔ op = 6#4)
    ∧ (CmdRow.writeChar.matches (cmdWord op s d b) = true ↔ op = 7#4) := by
  simp [cmdWord_eq_rawWord, matches_init, matches_selIr, matches_selDr, matches_strobe, matches_sendNibble,
    matches_sendByte, matches_writeChar]

theorem fields (op : BitVec 4) (s : BitVec 1) (d : Micros) (b : Byte) :
    CmdWord.s (cmdWord op s d b) = s ∧ CmdWord.dly (cmdWord op s d b) = d ∧ CmdWord.data (cmdWord op s d b) = b := by
  simp [cmdWord_eq_rawWord]

theorem low_nibble (n : Nibble) : (0#4 ++ n : BitVec 8).extractLsb' 0 4 = n ∧ (0#4 ++ n : BitVec 8) &&& 0xF0#8 = 0#8 := by
  revert n
  decide

theorem nibble_field (op : BitVec 4) (s : BitVec 1) (d : Micros) (n : Nibble) :
    CmdWord.nibble (cmdWord op s d (0#4 ++ n)) = n := by
  rw [← data_low_eq_nibble, (fields _ _ _ _).2.2]
  exact (low_nibble n).1

theorem init : Statement .init := fun bw _ => by cases bw <;> decide
theorem selIr : Statement .selIr := fun bw _ => by cases bw <;> decide
theorem selDr : Statement .selDr := fun bw _ => by cases bw <;> decide

theorem strobe (dly : Micros) : Statement (.strobe dly) := fun bw _ => by
  simp [encode, decode, decodeCmd, rows, fields]

theorem sendNibble (sync : Sync) (dly : Micros) (n : Nibble) : Statement (.sendNibble sync dly n) := fun bw h => by
  simp only [Instr.wellFormed, Bool.and_eq_true] at h
  simp [encode, decode, decodeCmd, rows, fields, low_nibble, nibble_field, h]

theorem sendByte (sync : Sync) (dly : Micros) (b : Byte) : Statement (.sendByte sync dly b) := fun bw h => by
  simp only [Instr.wellFormed] at h
  simp [encode, decode, decodeCmd, rows, fields, h]

theorem writeChar (sync : Sync) (dly : Micros) (c : Byte) : Statement (.writeChar sync dly c) := fun bw h => by
  simp only [Instr.wellFormed] at h
  simp [encode, decode, decodeCmd, rows, fields, h]

theorem lcdFunctionSet8bitNibble : Statement .lcdFunctionSet8bitNibble := fun _ _ => rfl
theorem lcdFunctionSet4bitNibble : Statement .lcdFunctionSet4bitNibble := fun _ _ => rfl
theorem lcdFunctionSet4bit2line5x8 : Statement .lcdFunctionSet4bit2line5x8 := fun _ _ => rfl
theorem lcdDisplayOnCursorOffBlinkOff : Statement .lcdDisplayOnCursorOffBlinkOff := fun _ _ => rfl
theorem lcdClearDisplay : Statement .lcdClearDisplay := fun _ _ => rfl
theorem lcdReturnHome : Statement .lcdReturnHome := fun _ _ => rfl
theorem lcdEntryModeIncNoshift : Statement .lcdEntryModeIncNoshift := fun _ _ => rfl

end Sys2Proof.Laws.RoundTrip
end

