-- ==== Sys2Proof/Laws/Run.lean ====
section
/-! SUPPORT. Running a list of micro-operations, cycle by cycle, in an environment that answers every line op without
error. -/

namespace Sys2Proof.Machine

/-! ### Lists that run through -/

/-- No restore, and no controller-side value by itself. -/
def plainOp : MicroOp → Bool
  | .req _ _ => true
  | .wait _ => true
  | .note _ => true
  | .restore _ _ => false
  | .rom _ => false

theorem tx_all_plainOp (c : Config) (n : Nibble) (y : TxSync) (k : BitVec 4) (init : Bool) :
    (tx c n y k init).all plainOp = true := by
  cases y <;> cases init <;> cases hb : c.busWidth <;>
    simp [tx, dataOps, strobeSeq, phaseOps, syncOps, pollSeq, plainOp, hb]

theorem byteOps_all_plainOp (c : Config) (h l : Nibble) (y : Sync) (d : Micros) : (byteOps c h l y d).all plainOp = true := by
  rw [byteOps, List.all_append, tx_all_plainOp, tx_all_plainOp]
  rfl

theorem scriptOps_all_plainOp (c : Config) (w : Micros) (k : BitVec 4) (ns : List Nibble) :
    (scriptOps c w k ns).all plainOp = true := by
  induction ns generalizing k with
  | nil => rfl
  | cons n ns ih => rw [scriptOps, List.all_append, tx_all_plainOp, ih]; rfl

theorem initOps_all_plainOp (c : Config) : (initOps c).all plainOp = true := by
  simp only [initOps, List.all_append, Bool.and_eq_true]
  refine ⟨⟨rfl, ?_⟩, rfl⟩
  simp only [List.all_flatMap, List.all_eq_true]
  exact fun r _ o ho => List.all_eq_true.mp (scriptOps_all_plainOp c r.waitUs r.nib (lcdNibbles r.word)) o ho

/-- A transmission begins with a request. -/
theorem tx_eq_cons (c : Config) (n : Nibble) (y : TxSync) (k : BitVec 4) (init : Bool) :
    ∃ r ops, tx c n y k init = .req r k :: ops := by
  unfold tx
  cases c.busWidth <;> exact ⟨_, _, rfl⟩

/-- So does the sending of a controller-side value. -/
theorem scriptOps_eq_cons (c : Config) (w : Micros) (k : BitVec 4) (l : LcdWord) :
    ∃ r ops, scriptOps c w k (lcdNibbles l) = .req r k :: ops := by
  cases l with
  | nibble n => obtain ⟨r, ops, h⟩ := tx_eq_cons c n (.fixed (cyclesOf c w)) k true; exact ⟨r, ops, by simp [lcdNibbles, scriptOps, h]⟩
  | byte b =>
    obtain ⟨r, ops, h⟩ := tx_eq_cons c (highNibble b) (.fixed (cyclesOf c w)) k true
    exact ⟨r, ops ++ scriptOps c w (k + 1#4) [lowNibble b], by rw [lcdNibbles, scriptOps, h, List.cons_append]⟩

/-! ### The end of a micro-operation -/

/-- A listed controller-side value by itself leaves its transmissions at the front of the list. -/
theorem settle_rom {r : RomRow} {i : Instr} (h : decodeLcd r.word = .ok i) (ops : List MicroOp) (s : State) :
    settle (.rom r :: ops) s =
      .next { s with seq := rowOps s.cfg r ++ ops, row := ⟨r.nib, r.waitUs⟩, st := .busy } := by
  simp only [settle, runRow_listed h]
  rfl

theorem settle_next (ops : List MicroOp) (s : State) (h : ops.all plainOp = true) : ∃ u, settle ops s = .next u := by
  induction ops generalizing s with
  | nil => exact ⟨_, rfl⟩
  | cons o ops ih =>
    cases o with
    | req r k => exact ⟨_, rfl⟩
    | restore f k => exact ⟨_, rfl⟩
    | note b => exact ih _ (by simpa [plainOp] using h)
    | wait n =>
      cases n with
      | zero => exact ih _ (by simpa [plainOp] using h)
      | succ n => exact ⟨_, rfl⟩
    | rom r => simp [plainOp] at h

/-! ### Single cycles -/

section
variable {s : State} {ps : List PortInput} {r : LineReq} {k : BitVec 4} {ops : List MicroOp}

/-- A request is presented and becomes the outstanding one. -/
theorem step_present (hb : s.st = .busy) (hp : s.pending = none) (ht : s.tmr = 0) (hs : s.seq = .req r k :: ops)
    (hi : s.inputs = PortInput.quiet :: ps) :
    step s = .next (issue r (nextCycle s)) ∧ lineRequest s = some r := by
  have hl : lineRequest s = some r := by simp [lineRequest, hb, hp, ht, hs, MicroOp.request]
  have hl' : lineRequest (nextCycle s) = some r := hl
  refine ⟨?_, hl⟩
  rw [step_of_inputs hi, clock_busy rfl (by simpa using hb)]
  simp [busyCycle, hp, ht, hl']

/-- Nothing happens while the request is not answered. -/
theorem step_silent (hb : s.st = .busy) (hp : s.pending = some r) (hi : s.inputs = PortInput.quiet :: ps) :
    step s = .next (nextCycle s) ∧ lineRequest s = none := by
  refine ⟨?_, by simp [lineRequest, hb, hp]⟩
  rw [step_of_inputs hi, clock_busy rfl (by simpa using hb)]
  simp [busyCycle, hp, PortInput.quiet]

theorem run_silent (n : Nat) {s : State} {r : LineReq} {ps : List PortInput} (hb : s.st = .busy) (hp : s.pending = some r)
    (hi : s.inputs = List.replicate n PortInput.quiet ++ ps) :
    RunsTo n s { s with inputs := ps, cycle := s.cycle + n } (waiting n) := by
  induction n generalizing s with
  | zero => simp only [List.replicate_zero, List.nil_append] at hi; subst hi; exact RunsTo.refl s
  | succ n ih =>
    rw [List.replicate_succ, List.cons_append] at hi
    obtain ⟨h1, h2⟩ := step_silent hb hp hi
    have h3 := ih (s := nextCycle s) (by simpa using hb) (by simpa using hp) (by simp [hi])
    have := RunsTo.cons h1 h3
    rw [h2, hb] at this
    simpa [waiting, List.replicate_succ, nextCycle, Nat.add_comm, Nat.add_left_comm, Nat.add_assoc] using this

/-- The last cycle of a request: the answer ends the micro-operation. -/
theorem step_answer {p : PortInput} (hb : s.st = .busy) (hp : s.pending = some r) (hs : s.seq = .req r k :: ops)
    (hi : s.inputs = p :: ps) (hr : p.rst = false) (hv : p.respValid = true) (he : p.respErr = false)
    (hg : pollsAgain r p.respVal = false) :
    step s = settle ops (applyOk r { nextCycle s with pending := none }) ∧ lineRequest s = none := by
  refine ⟨?_, by simp [lineRequest, hb, hp]⟩
  rw [step_of_inputs hi, clock_busy hr (by simpa using hb)]
  simp [busyCycle, hp, answer, hs, he, hg, hv]

/-- A busy answer to a poll: the read is repeated. -/
theorem step_answer_busy {p : PortInput} (hb : s.st = .busy) (hp : s.pending = some r) (hs : s.seq = .req r k :: ops)
    (hi : s.inputs = p :: ps) (hr : p.rst = false) (hv : p.respValid = true) (he : p.respErr = false)
    (hg : pollsAgain r p.respVal = true) :
    step s = .next { nextCycle s with pending := none } ∧ lineRequest s = none := by
  refine ⟨?_, by simp [lineRequest, hb, hp]⟩
  rw [step_of_inputs hi, clock_busy hr (by simpa using hb)]
  simp [busyCycle, hp, answer, hs, he, hg, hv]

end

/-! ### Waits -/

/-- A wait of which `n + 1` cycles are left runs out and ends. -/
theorem run_wait (n : Nat) {s u : State} {m : Nat} {ops : List MicroOp} {ps : List PortInput} (hb : s.st = .busy)
    (hp : s.pending = none) (ht : s.tmr = n + 1) (hs : s.seq = .wait m :: ops)
    (hi : s.inputs = List.replicate (n + 1) PortInput.quiet ++ ps)
    (hu : settle ops { s with tmr := 0, inputs := ps, cycle := s.cycle + (n + 1) } = .next u) :
    RunsTo (n + 1) s u (waiting (n + 1)) := by
  have hl : ∀ t : State, t.tmr = n + 1 → lineRequest t = none := by
    intro t h
    cases h1 : t.st <;> cases h2 : t.pending <;> simp [lineRequest, h, h1, h2]
  induction n generalizing s with
  | zero =>
    rw [List.replicate_succ, List.cons_append] at hi
    have h1 : step s = .next u := by
      rw [step_of_inputs hi, clock_busy rfl (by simpa using hb)]
      simp only [busyCycle, nextCycle_pending, hp, nextCycle_tmr, ht, nextCycle_seq, hs, dropWait]
      rw [← hu]
      simp [nextCycle, hi, hp, hs]
    have := RunsTo.cons h1 (RunsTo.refl u)
    rw [hl s ht, hb] at this
    exact this
  | succ n ih =>
    rw [List.replicate_succ, List.cons_append] at hi
    have h1 : step s = .next { nextCycle s with tmr := n + 1 } := by
      rw [step_of_inputs hi, clock_busy rfl (by simpa using hb)]
      simp [busyCycle, hp, ht]
    have h2 : RunsTo (n + 1) { nextCycle s with tmr := n + 1 } u (waiting (n + 1)) := by
      refine ih (s := { nextCycle s with tmr := n + 1 }) (by simpa using hb) (by simpa using hp) rfl (by simpa using hs)
        (by simp [nextCycle, hi]) ?_ ?_
      · rw [← hu]
        simp [nextCycle, Nat.add_comm, Nat.add_left_comm]
      · intro t h
        cases h1 : t.st <;> cases h2 : t.pending <;> simp [lineRequest, h, h1, h2]
    have := RunsTo.cons h1 h2
    rw [hl s ht, hb] at this
    exact this

/-! ### Line ops -/

theorem applyOk_get (l : LineId) (s : State) : applyOk (.get l) s = s := rfl

theorem issue_of_not_get {r : LineReq} (h : ∀ l, r ≠ .get l) (s : State) : issue r s = { s with pending := some r } := by
  cases r <;> first | rfl | exact absurd rfl (h _)

/-- One request and its answer after `late` more cycles. -/
theorem run_request {s u : State} {r : LineReq} {k : BitVec 4} {ops : List MicroOp} {late : Nat} {p : PortInput}
    {ps : List PortInput} (hb : s.st = .busy) (hp : s.pending = none) (ht : s.tmr = 0) (hs : s.seq = .req r k :: ops)
    (hi : s.inputs = answered late p ++ ps) (hr : p.rst = false) (hv : p.respValid = true) (he : p.respErr = false)
    (hg : pollsAgain r p.respVal = false)
    (hu : settle ops (applyOk r { issue r s with pending := none, inputs := ps, cycle := s.cycle + (late + 2) }) = .next u) :
    RunsTo (late + 2) s u (asked late r) := by
  simp only [answered, List.cons_append, List.append_assoc, List.nil_append] at hi
  obtain ⟨h1, h2⟩ := step_present hb hp ht hs hi
  have h3 := run_silent late (s := issue r (nextCycle s)) (r := r) (ps := p :: ps) (by simpa using hb) (by simp) (by simp [hi])
  have h4 := step_answer (s := { issue r (nextCycle s) with inputs := p :: ps, cycle := (issue r (nextCycle s)).cycle + late })
    (r := r) (k := k) (ops := ops) (p := p) (ps := ps) (by simpa using hb) (by simp) (by simpa using hs) rfl hr hv he hg
  have h5 : step { issue r (nextCycle s) with inputs := p :: ps, cycle := (issue r (nextCycle s)).cycle + late } = .next u := by
    rw [h4.1, ← hu]
    congr 2
    cases r <;> simp [nextCycle, issue] <;> omega
  have h6 := RunsTo.cons h1 (h3.trans (RunsTo.cons h5 (RunsTo.refl u)))
  rw [h2, h4.2] at h6
  simpa [asked, waiting, List.replicate_succ', hb, Nat.add_comm, Nat.add_left_comm, Nat.add_assoc] using h6

/-- One read of a poll that is answered busy after `late` more cycles. -/
theorem run_busy_read {s : State} {l : LineId} {k : BitVec 4} {ops : List MicroOp} {late : Nat} {ps : List PortInput}
    (hb : s.st = .busy) (hp : s.pending = none) (ht : s.tmr = 0) (hs : s.seq = .req (.get l) k :: ops)
    (hi : s.inputs = answered late (answersVal true) ++ ps) :
    RunsTo (late + 2) s { s with polls := satInc32 s.polls, inputs := ps, cycle := s.cycle + (late + 2) } (asked late (.get l)) := by
  simp only [answered, List.cons_append, List.append_assoc, List.nil_append] at hi
  obtain ⟨h1, h2⟩ := step_present hb hp ht hs hi
  have h3 := run_silent late (s := issue (.get l) (nextCycle s)) (r := .get l) (ps := answersVal true :: ps)
    (by simpa using hb) (by simp) (by simp [hi])
  have h4 := step_answer_busy
    (s := { issue (.get l) (nextCycle s) with inputs := answersVal true :: ps, cycle := (issue (.get l) (nextCycle s)).cycle + late })
    (r := .get l) (k := k) (ops := ops) (p := answersVal true) (ps := ps) (by simpa using hb) (by simp) (by simpa using hs) rfl
    rfl rfl rfl rfl
  have h6 := RunsTo.cons h1 (h3.trans (RunsTo.cons h4.1 (RunsTo.refl _)))
  rw [h2, h4.2] at h6
  have e : ({ nextCycle { issue (.get l) (nextCycle s) with
      inputs := answersVal true :: ps, cycle := (issue (.get l) (nextCycle s)).cycle + late } with pending := none } : State) =
      { s with polls := satInc32 s.polls, inputs := ps, cycle := s.cycle + (late + 2) } := by
    simp [nextCycle, issue, hp]
    omega
  rw [e] at h6
  simpa [asked, waiting, List.replicate_succ', hb, Nat.add_comm, Nat.add_left_comm, Nat.add_assoc] using h6

/-! ### Polls -/

theorem satInc32_toNat (v : BitVec 32) : (satInc32 v).toNat = min (v.toNat + 1) (2 ^ 32 - 1) := by
  unfold satInc32
  split
  · next h => subst h; decide
  · next h =>
    have h1 : v.toNat ≠ 2 ^ 32 - 1 := fun e => h (BitVec.eq_of_toNat_eq (by rw [e]; rfl))
    have h2 := v.isLt
    rw [BitVec.toNat_add]
    simp only [BitVec.toNat_ofNat]
    omega

theorem addPolls_zero (v : BitVec 32) : addPolls 0 v = v := by
  have := v.isLt
  apply BitVec.eq_of_toNat_eq
  simp only [addPolls, BitVec.toNat_ofNat]
  omega

theorem addPolls_succ (n : Nat) (v : BitVec 32) : addPolls (n + 1) v = addPolls n (satInc32 v) := by
  apply BitVec.eq_of_toNat_eq
  simp only [addPolls, BitVec.toNat_ofNat, satInc32_toNat]
  congr 1
  omega

/-- The busy reads of a poll. -/
theorem run_busy_reads (busy : List Nat) {s : State} {l : LineId} {k : BitVec 4} {ops : List MicroOp} {ps : List PortInput}
    (hb : s.st = .busy) (hp : s.pending = none) (ht : s.tmr = 0) (hs : s.seq = .req (.get l) k :: ops)
    (hi : s.inputs = busy.flatMap (fun d => answered d (answersVal true)) ++ ps) :
    RunsTo (busy.flatMap (fun d => answered d (answersVal true))).length s
      { s with
        polls := addPolls busy.length s.polls, inputs := ps
        cycle := s.cycle + (busy.flatMap (fun d => answered d (answersVal true))).length }
      (busy.flatMap (fun d => asked d (.get l))) := by
  induction busy generalizing s with
  | nil =>
    simp only [List.flatMap_nil, List.nil_append] at hi
    subst hi
    simp only [List.flatMap_nil, List.length_nil, addPolls_zero]
    exact RunsTo.refl s
  | cons d busy ih =>
    simp only [List.flatMap_cons, List.append_assoc] at hi
    have h1 := run_busy_read hb hp ht hs hi
    have h2 := ih (s := { s with
        polls := satInc32 s.polls
        inputs := busy.flatMap (fun d => answered d (answersVal true)) ++ ps, cycle := s.cycle + (d + 2) }) hb hp ht hs rfl
    have h3 := h1.trans h2
    have e : (answered d (answersVal true)).length = d + 2 := by simp [answered]
    simpa [List.flatMap_cons, e, addPolls_succ, Nat.add_assoc] using h3

/-! ### Effects do not depend on where the block stands -/

theorem applyOk_at (r : LineReq) (s : State) (q : List MicroOp) (x : SeqState) (i : List PortInput) (c : Nat) :
    applyOk r { s with seq := q, st := x, inputs := i, cycle := c } =
      { applyOk r s with seq := q, st := x, inputs := i, cycle := c } := by
  unfold applyOk
  split <;> rfl

theorem okEffect_at (n : Nat) (ops : List MicroOp) (s : State) (q : List MicroOp) (x : SeqState) (i : List PortInput) (c : Nat) :
    okEffect n ops { s with seq := q, st := x, inputs := i, cycle := c } =
      { okEffect n ops s with seq := q, st := x, inputs := i, cycle := c } := by
  induction ops generalizing s with
  | nil => rfl
  | cons o ops ih =>
    cases o with
    | req r k =>
      simp only [okEffect]
      have e : countReads r n { s with seq := q, st := x, inputs := i, cycle := c } =
          { countReads r n s with seq := q, st := x, inputs := i, cycle := c } := by
        cases r <;> rfl
      rw [e, applyOk_at, ih]
    | note b =>
      simp only [okEffect]
      have e : applyNote b { s with seq := q, st := x, inputs := i, cycle := c } =
          { applyNote b s with seq := q, st := x, inputs := i, cycle := c } := by
        cases b <;> rfl
      rw [e, ih]
    | wait n => exact ih s
    | restore f k => exact ih s
    | rom r => exact ih s

theorem countReads_of_not_get {r : LineReq} (h : ∀ l, r ≠ .get l) (n : Nat) (s : State) : countReads r n s = s := by
  cases r <;> first | rfl | exact absurd rfl (h _)

/-! ### Whole lists -/

/-- What is left of a list when a micro-operation before it has ended, run to its end in an environment that answers
every line op without error: the block is IDLE, with the list's effect, after the cycles of R236, and BUSY in each of
them, with the list's requests presented in the cycles of okSchedule. -/
theorem run_settle (busy : List Nat) (rest : List PortInput) :
    ∀ (ops : List MicroOp) (late : List Nat) (s u : State), ops.all plainOp = true → s.st = .busy → s.pending = none →
      s.tmr = 0 → s.inputs = okInputs busy ops late ++ rest → settle ops s = .next u →
      RunsTo (okInputs busy ops late).length u
        { okEffect busy.length ops s with
          seq := [], st := .idle, inputs := rest, cycle := s.cycle + (okInputs busy ops late).length }
        (okSchedule busy ops late) := by
  intro ops
  induction ops with
  | nil =>
    intro late s u _ hb hp ht hi hu
    simp only [settle, Host.Outcome.next.injEq] at hu
    subst hu
    simp only [okInputs, List.nil_append] at hi
    have := RunsTo.refl { s with seq := [], st := .idle }
    simpa [okInputs, okEffect, okSchedule, ← hi] using this
  | cons o ops ih =>
    intro late s u hall hb hp ht hi hu
    simp only [List.all_cons, Bool.and_eq_true] at hall
    obtain ⟨ho, hall⟩ := hall
    cases o with
    | note b =>
      have := ih late (applyNote b s) u hall (by simpa using hb) (by simpa using hp) (by simpa using ht)
        (by simpa [okInputs] using hi) hu
      simpa [okInputs, okEffect, okSchedule] using this
    | restore f k => simp [plainOp] at ho
    | rom r => simp [plainOp] at ho
    | wait n =>
      cases n with
      | zero =>
        have := ih late s u hall hb hp ht (by simpa [okInputs] using hi) hu
        simpa [okInputs, okEffect, okSchedule, waiting] using this
      | succ n =>
        simp only [settle, Host.Outcome.next.injEq] at hu
        subst hu
        rw [okInputs, List.append_assoc] at hi
        obtain ⟨v, hv⟩ := settle_next ops { s with
          seq := .wait (n + 1) :: ops, tmr := 0, inputs := okInputs busy ops late ++ rest
          cycle := s.cycle + (n + 1) } hall
        have h1 := run_wait n (s := { s with seq := .wait (n + 1) :: ops, tmr := n + 1 }) (u := v) hb hp rfl rfl hi hv
        have h2 := ih late { s with
          seq := .wait (n + 1) :: ops, tmr := 0, inputs := okInputs busy ops late ++ rest
          cycle := s.cycle + (n + 1) } v hall hb hp rfl rfl hv
        have h3 := h1.trans h2
        rw [okInputs, List.length_append, List.length_replicate]
        have hs : ({ s with tmr := 0 } : State) = s := by cases s; simp_all
        have e := okEffect_at busy.length ops { s with tmr := 0 } (.wait (n + 1) :: ops) s.st
          (okInputs busy ops late ++ rest) (s.cycle + (n + 1))
        simp only at e
        simp only [e, hs] at h3
        simpa [okEffect, okSchedule, Nat.add_assoc] using h3
    | req r k =>
      simp only [settle, Host.Outcome.next.injEq] at hu
      subst hu
      by_cases hg : ∃ l, r = .get l
      · obtain ⟨l, rfl⟩ := hg
        rw [okInputs, List.append_assoc, List.append_assoc] at hi
        have h1 := run_busy_reads busy (s := { s with seq := .req (.get l) k :: ops }) (l := l) (k := k) (ops := ops) hb hp ht
          rfl hi
        generalize hc : (busy.flatMap (fun d => answered d (answersVal true))).length = n at h1
        obtain ⟨v, hv⟩ := settle_next ops { s with
          seq := .req (.get l) k :: ops, polls := satInc32 (addPolls busy.length s.polls), pending := none
          inputs := okInputs busy ops late.tail ++ rest, cycle := s.cycle + n + (late.headD 0 + 2) } hall
        have h2 := run_request (s := { s with
            seq := .req (.get l) k :: ops, polls := addPolls busy.length s.polls
            inputs := answered (late.headD 0) (answersVal false) ++ (okInputs busy ops late.tail ++ rest)
            cycle := s.cycle + n }) (u := v) (r := .get l) (k := k) (ops := ops) hb hp ht rfl rfl rfl rfl rfl rfl hv
        have h3 := ih late.tail { s with
          seq := .req (.get l) k :: ops, polls := satInc32 (addPolls busy.length s.polls), pending := none
          inputs := okInputs busy ops late.tail ++ rest, cycle := s.cycle + n + (late.headD 0 + 2) } v hall hb rfl ht rfl hv
        have h4 := h1.trans (h2.trans h3)
        have e := okEffect_at busy.length ops
          { s with polls := satInc32 (addPolls busy.length s.polls) }
          (.req (.get l) k :: ops) s.st (okInputs busy ops late.tail ++ rest)
          (s.cycle + n + (late.headD 0 + 2))
        have ep : satInc32 (addPolls busy.length s.polls) = addPolls (busy.length + 1) s.polls := by
          apply BitVec.eq_of_toNat_eq
          rw [satInc32_toNat]
          have := s.polls.isLt
          simp only [addPolls, BitVec.toNat_ofNat]
          omega
        simp only [hp, ep] at e h4
        simp only [e] at h4
        have el : (answered (late.headD 0) (answersVal false)).length = late.headD 0 + 2 := by simp [answered]
        rw [okInputs, List.length_append, List.length_append, hc, el]
        simpa [okEffect, countReads, applyOk_get, okSchedule, hp, Nat.add_assoc, List.append_assoc] using h4
      · have hg' : ∀ l, r ≠ .get l := fun l e => hg ⟨l, e⟩
        have hin : okInputs busy (.req r k :: ops) late =
            answered (late.headD 0) answersOk ++ okInputs busy ops late.tail := by
          cases r <;> first | rfl | exact absurd rfl (hg' _)
        have hre : okSchedule busy (.req r k :: ops) late =
            asked (late.headD 0) r ++ okSchedule busy ops late.tail := by
          cases r <;> first | rfl | exact absurd rfl (hg' _)
        have hno : pollsAgain r answersOk.respVal = false := by cases r <;> rfl
        rw [hin, List.append_assoc] at hi
        obtain ⟨v, hv⟩ := settle_next ops (applyOk r { s with
          seq := .req r k :: ops, pending := none
          inputs := okInputs busy ops late.tail ++ rest, cycle := s.cycle + (late.headD 0 + 2) }) hall
        have h2 := run_request (s := { s with seq := .req r k :: ops }) (u := v) (r := r) (k := k) (ops := ops) hb hp ht rfl hi
          rfl rfl rfl hno (by rw [issue_of_not_get hg']; exact hv)
        have h3 := ih late.tail _ v hall (by simpa using hb) (by simp) (by simpa using ht) (by simp) hv
        have h4 := h2.trans h3
        have ea := applyOk_at r s (.req r k :: ops) s.st (okInputs busy ops late.tail ++ rest)
          (s.cycle + (late.headD 0 + 2))
        have e := okEffect_at busy.length ops (applyOk r s)
          (.req r k :: ops) s.st (okInputs busy ops late.tail ++ rest)
          (s.cycle + (late.headD 0 + 2))
        simp only [hp] at ea
        rw [hin, hre, List.length_append]
        have el : (answered (late.headD 0) answersOk).length = late.headD 0 + 2 := by simp [answered]
        rw [el]
        simp only [hp, ea, applyOk_cfg] at h4 e
        simp only [e] at h4
        simpa [okEffect, countReads_of_not_get hg', Nat.add_assoc, hp] using h4

end Sys2Proof.Machine
end

