-- ==== Sys2Proof/Laws/Plan.lean ====
section
/-! SUPPORT. What settling a list leaves alone and that it keeps the invariant, and what one nibble transmission does to a
list's legality, its requests and its effect. -/

namespace Sys2Proof.Machine

/-! ### exec -/

/-- A host command's error, if any, is the one its checks report. -/
theorem exec_err (i : Instr) (s : State) (h : lcdValue i = none) : errAfter (exec i s) = some ((acceptError i s).getD s.err) := by
  rw [exec_eq, h]
  cases acceptError i s with
  | some e => rfl
  | none => cases hx : expansion s.cfg i <;> cases i <;> simp [errAfter, beforeSeq]

/-- The inputs to come and the cycle count play no part in exec. -/
theorem exec_at (i : Instr) (s t : State) (q : List PortInput) (c : Nat) (h : exec i s = .next t) :
   exec i { s with inputs := q, cycle := c } = .next { t with inputs := q, cycle := c } := by
  rw [exec_eq] at h ⊢
  have ha : acceptError i { s with inputs := q, cycle := c } = acceptError i s := rfl
  have hx : { s with inputs := q, cycle := c }.cfg = s.cfg := rfl
  rw [ha, hx]
  simp only [Host.Outcome.next.injEq] at h ⊢
  cases hl : lcdValue i with
  | some l => simp only [hl] at h ⊢; subst h; rfl
  | none =>
    simp only [hl] at h ⊢
    cases hc : acceptError i s with
    | some e => simp only [hc] at h ⊢; subst h; rfl
    | none =>
      simp only [hc] at h ⊢
      cases hz : expansion s.cfg i with
      | none => simp only [hz] at h ⊢; subst h; rfl
      | some ops => simp only [hz] at h ⊢; subst h; cases i <;> rfl

/-- The list a command starts holds requests, waits and statements only. -/
theorem expansion_all_plainOp (c : Config) (i : Instr) (ops : List MicroOp) (h : expansion c i = some ops) :
    ops.all plainOp = true := by
  cases i with
  | init => cases h; exact initOps_all_plainOp c
  | selIr => cases h; rfl
  | selDr => cases h; rfl
  | strobe d => cases h; rfl
  | sendNibble y d n => cases h; exact tx_all_plainOp ..
  | sendByte y d n => cases h; exact byteOps_all_plainOp ..
  | writeChar y d n =>
    simp only [expansion, Option.map_eq_some_iff] at h
    obtain ⟨p, hp, rfl⟩ := h
    exact byteOps_all_plainOp ..
  | _ => simp [expansion] at h

/-! ### settle -/

/-- What the end of a micro-operation leaves alone, and what it can write. -/
theorem settle_frame (ops : List MicroOp) (s t : State) (h : settle ops s = .next t) :
    t.err = s.err ∧ t.errOp = s.errOp ∧ t.errLine = s.errLine ∧ t.errNib = s.errNib ∧ t.mode = s.mode ∧ t.skipped = s.skipped
    ∧ t.rsSh = s.rsSh ∧ (t.polls = s.polls ∨ t.polls = 0#32 ∧ .note .clearPolls ∈ ops) ∧
    (t.initDone = s.initDone ∨ t.initDone = true ∧ .note .initDone ∈ ops)
    ∧ (phaseFromInit s = true → phaseFromInit t = true) := by
  induction ops generalizing s with
  | nil => cases h; simp [phaseFromInit]
  | cons o ops ih =>
    cases o with
    | req r k => cases h; simp [phaseFromInit]
    | restore r k => cases h; simp [phaseFromInit]
    | note b =>
      obtain ⟨a1, a2, a3, a4, a5, a6, a7, a8, a9, a10⟩ := ih (applyNote b s) h
      refine ⟨by simpa using a1, by simpa using a2, by simpa using a3, by simpa using a4, by simpa using a5, by simpa using a6, by simpa using a7, ?_, ?_, ?_⟩
      · cases b <;> simp_all [applyNote] <;> tauto
      · cases b <;> simp_all [applyNote] <;> tauto
      · intro hp; apply a10; cases b <;> simp_all [applyNote, phaseFromInit]
        rcases hp with hp | hp <;> simp_all [Phase.toggle]
    | wait n =>
      cases n with
      | zero => have := ih s h; simpa using this
      | succ n => cases h; simp [phaseFromInit]
    | rom r =>
      cases hd : decodeLcd r.word with
      | error e => simp [settle, runRow, hd] at h
      | ok i => rw [settle_rom hd] at h; cases h; simp [phaseFromInit]

/-! ### The invariant -/

/-- A statement that takes no cycle may be passed. -/
theorem planLegal_note {bw : BusWidth} {e d7in : Bool} {b : Note} {ops : List MicroOp}
    (h : planLegal bw e d7in (.note b :: ops) = true) : planLegal bw e d7in ops = true := by
  cases b <;> simp only [planLegal, Bool.and_eq_true, List.isEmpty_iff] at h
  · exact h.2
  · exact h.2
  · obtain ⟨h, rfl⟩ := h
    simpa [planLegal] using h

/-- A transmission in front of a list is as legal as the list, given the width its poll needs. -/
theorem planLegal_tx (c : Config) (n : Nibble) (y : TxSync) (k : BitVec 4) (init : Bool) (ops : List MicroOp)
    (hy : y = .busy → c.busWidth = .three) (hk : nibLegal k = true) :
    planLegal c.busWidth false false (tx c n y k init ++ ops) = planLegal c.busWidth false false ops := by
  cases hb : c.busWidth <;> cases y <;> cases init <;>
    simp_all [tx, dataOps, strobeSeq, phaseOps, syncOps, pollSeq, planLegal, startsPoll, BusWidth.busyReadback, BusWidth.lines]

/-- So are the transmissions of a listed value. -/
theorem planLegal_row (c : Config) (r : RomRow) (ops : List MicroOp) (h : rowLegal r = true) :
    planLegal c.busWidth false false (rowOps c r ++ ops) = planLegal c.busWidth false false ops := by
  obtain ⟨w, k, us⟩ := r
  cases w <;> simp only [rowLegal, Bool.and_eq_true] at h <;>
    simp [rowOps, lcdNibbles, scriptOps, List.append_assoc, planLegal_tx, h]

/-- So are those of several rows. -/
theorem planLegal_rows (c : Config) (rows : List RomRow) (ops : List MicroOp) (h : rows.all rowLegal = true) :
    planLegal c.busWidth false false (rows.flatMap (rowOps c) ++ ops) = planLegal c.busWidth false false ops := by
  induction rows with
  | nil => rfl
  | cons r rows ih =>
    simp only [List.all_cons, Bool.and_eq_true] at h
    rw [List.flatMap_cons, List.append_assoc, planLegal_row c r _ h.1, ih h.2]

/-- INIT's list is legal. -/
theorem planLegal_initOps (c : Config) : planLegal c.busWidth false false (initOps c) = true := by
  simp [initOps, planLegal, nibLegal, planLegal_rows c initRom _ (by decide)]

/-- Outside FAILED the error fields are at their idle values. -/
theorem errLegal_alive (s : State) (h : s.st ≠ .failed) : errLegal s = true ↔ s.err = .none ∧ s.errOp = .set ∧ s.errLine = none ∧ s.errNib = 15#4 := by
  have : (s.st == SeqState.failed) = false := by simpa using h
  simp only [errLegal, this]
  cases he : s.err <;> simp <;> simp_all [and_assoc]

/-- A BUSY block that has ended a micro-operation, with `ops` left, in a legal state. -/
def SettleLegal (s : State) (ops : List MicroOp) : Prop :=
  s.st = .busy ∧ s.pending = none ∧ s.tmr = 0 ∧ errLegal s = true ∧ (s.cfg.busWidth == .three || s.d7dir == .x) = true ∧
  planLegal s.cfg.busWidth (s.eSh == .high) (s.d7dir == .input) ops = true

/-- Settling from a legal state answers a next state that meets the invariant. -/
theorem settle_inv (ops : List MicroOp) (s : State) (h : SettleLegal s ops) : ∃ t, settle ops s = .next t ∧ inv t = true ∧ t.cfg = s.cfg := by
  induction ops generalizing s with
  | nil =>
    obtain ⟨h1, h2, h3, h4, h5, h6⟩ := h
    refine ⟨_, rfl, ?_, rfl⟩
    rw [errLegal_alive _ (by simp [h1])] at h4
    have := errLegal_alive { s with seq := [], st := .idle } (by simp)
    simp_all [inv, restLegal, planLegal]
  | cons o ops ih =>
    obtain ⟨h1, h2, h3, h4, h5, h6⟩ := h
    cases o with
    | note b =>
      simp only [settle]
      have := ih (applyNote b s) (by
        replace h6 := planLegal_note h6
        rw [errLegal_alive _ (by simp [h1])] at h4
        refine ⟨by simpa using h1, by simpa using h2, by simpa using h3, ?_, ?_, ?_⟩
        · rw [errLegal_alive _ (by simp [h1])]; simpa using h4
        · simpa using h5
        · cases b <;> simp_all [applyNote])
      simpa using this
    | wait n =>
      cases n with
      | zero => exact ih s ⟨h1, h2, h3, h4, h5, by simp_all [planLegal]⟩
      | succ n =>
        refine ⟨_, rfl, ?_, rfl⟩
        simp_all [inv, positionLegal, errLegal]
    | req r k =>
        refine ⟨_, rfl, ?_, rfl⟩
        simp_all [inv, positionLegal, errLegal]
    | restore o k =>
        refine ⟨_, rfl, ?_, rfl⟩
        simp_all [inv, positionLegal, errLegal]
    | rom r =>
      simp only [planLegal, Bool.and_eq_true, Bool.not_eq_true'] at h6
      obtain ⟨⟨⟨he, hd⟩, hr⟩, hp⟩ := h6
      have : ∃ i, decodeLcd r.word = .ok i := by
        unfold rowLegal at hr
        cases hw : decodeLcd r.word <;> simp_all
      obtain ⟨i, hi⟩ := this
      rw [settle_rom hi]
      refine ⟨_, rfl, ?_, rfl⟩
      obtain ⟨q, tail, hcons⟩ := scriptOps_eq_cons s.cfg r.waitUs r.nib r.word
      have hpos : positionLegal { s with seq := rowOps s.cfg r ++ ops, row := ⟨r.nib, r.waitUs⟩, st := .busy } = true := by
        rw [show rowOps s.cfg r = _ from hcons]
        simp [positionLegal, h2, h3]
      have hpl := planLegal_row s.cfg r ops hr
      rw [he, hd] at hp
      simp only [inv, he, hd, hpl, hp, hpos]
      simp_all [errLegal]

/-! ### A transmission in a list -/

@[simp] theorem waiting_requests (n : Nat) : (waiting n).filterMap (·.2) = [] := by
  simp [waiting]

@[simp] theorem asked_requests (late : Nat) (r : LineReq) : (asked late r).filterMap (·.2) = [r] := by
  simp [asked]

theorem asked_each_requests (busy : List Nat) (r : LineReq) :
    (busy.flatMap fun d => asked d r).filterMap (·.2) = List.replicate busy.length r := by
  induction busy with
  | nil => rfl
  | cons d busy ih => simp [List.flatMap_cons, ih, List.replicate_succ]

/-- The requests of the schedule are those of the list, in order. -/
theorem okSchedule_requests (busy : List Nat) (ops : List MicroOp) (late : List Nat) :
    (okSchedule busy ops late).filterMap (·.2) = okRequests busy.length ops := by
  induction ops generalizing late with
  | nil => rfl
  | cons o ops ih =>
    cases o with
    | req r k =>
      cases r with
      | get l =>
        simp [okSchedule, okRequests, ih, asked_each_requests, List.replicate_succ']
      | _ => simp [okSchedule, okRequests, ih]
    | _ => simp [okSchedule, okRequests, ih]

/-- The phase statement of R120 as a case distinction. -/
theorem toggle_eq (p : Phase) : p.toggle = if p = .even then .odd else if p = .odd then .even else .unknown := by cases p <;> rfl
theorem addPolls_from_zero (n : Nat) : addPolls n 0#32 = BitVec.ofNat 32 (min n (2^32-1)) := by simp [addPolls]

/-- What a transmission outside INIT leaves behind. -/
theorem okEffect_tx (c : Config) (n : Nibble) (y : TxSync) (k : BitVec 4) (m : Nat) (s : State) (rest : List MicroOp):
  okEffect m (tx c n y k false ++ rest) s = okEffect m rest { s with eSh := .low, phase := s.phase.toggle, polls := if y = .busy then addPolls (m+1) 0#32 else s.polls, d7dir := if y = .busy then .output else s.d7dir } := by
  cases y <;> cases hb : c.busWidth <;> simp [tx, dataOps, strobeSeq, phaseOps, syncOps, pollSeq, hb, okEffect, countReads, applyOk, applyNote, Shadow.ofBool]

/-- The requests of a transmission. -/
theorem okRequests_tx (c : Config) (n : Nibble) (y : TxSync) (k : BitVec 4) (b) (m : Nat) (rest : List MicroOp):
  okRequests m (tx c n y k b ++ rest) = nibbleRequests c.busWidth n ++ ((if y = .busy then pollRequests m else []) ++ okRequests m rest) := by
  cases y <;> cases b <;> cases hb : c.busWidth <;> simp [tx, dataOps, strobeSeq, phaseOps, syncOps, pollSeq, hb, okRequests, nibbleRequests, pollRequests]

end Sys2Proof.Machine
end

