-- ==== Sys2Proof/Tests/Slice0.lean ====
section
/-! SUPPORT. The model's own tests: ill-formed terms that WellFormed refuses; words written out bit by bit from 30 R70, R76
and R84; single steps, with the results of spec/95 (named V<n>) or worked by hand from the rule named; and, for each
statement with hypotheses, a witness that meets them. -/

namespace Sys2Proof.Tests

open Sys2Proof Sys2Proof.Machine

/-! ### Helpers -/

/-- An IDLE block of the conventions of spec/95, in the given mode and phase. -/
def idle (bw : BusWidth) (m : RegMode) (p : Phase) : State :=
  { State.resetWith { Config.chosen with busWidth := bw } with mode := m, phase := p }

def withPolicy (p : NonAsciiPolicy) (s : State) : State := { s with cfg := { s.cfg with policy := p } }

/-- A BUSY block at the given list, with the given request outstanding. -/
def busyAt (ops : List MicroOp) (pending : Option LineReq) : State :=
  { idle .three .instruction .even with st := .busy, seq := ops, pending := pending, initDone := true }

def failedState : State := refuse .illegalCommand (idle .four .instruction .even)

def after : Host.Outcome State Fault Refusal → Option State
  | .next t => some t
  | .fault _ => none
  | .refused _ => none

/-- The state after the cycle that presents `w`. -/
def accepting (w : CmdWord) (s : State) : Option State := after (step (offered w [] s))

/-- The status word after the cycle that presents `w`. -/
def statusAfter (w : CmdWord) (s : State) : Option (BitVec 32) := (accepting w s).map status

/-- The port encoding of the first request after the cycle that presents `w`. -/
def firstRequest (w : CmdWord) (s : State) : Option LinePort :=
  (accepting w s).bind fun t => (lineRequest t).map LineReq.port

/-! ### WellFormed refuses (R79) -/

theorem test_refuses_nibble_poll_on_width_four : (Instr.sendNibble .busyPoll 0#16 8#4).wellFormed .four = false := by decide
theorem test_refuses_byte_poll_on_width_four : (Instr.sendByte .busyPoll 50#16 1#8).wellFormed .four = false := by decide
theorem test_refuses_char_poll_on_width_four : (Instr.writeChar .busyPoll 0#16 0x41#8).wellFormed .four = false := by decide
theorem test_refuses_nibble_poll_with_delay : (Instr.sendNibble .busyPoll 1#16 8#4).wellFormed .three = false := by decide
theorem test_accepts_byte_poll_with_delay : (Instr.sendByte .busyPoll 50#16 1#8).wellFormed .three = true := by decide

/-! ### Decoding: OP, S, RSV, DLY, DATA, one group each (R70, R76) -/

theorem test_decodes_init : decodeCmd .four 0b0001_0_000_0000000000000000_00000000#32 = .ok .init := by decide
theorem test_decodes_selIr : decodeCmd .four 0b0010_0_000_0000000000000000_00000000#32 = .ok .selIr := by decide
theorem test_decodes_selDr : decodeCmd .four 0b0011_0_000_0000000000000000_00000000#32 = .ok .selDr := by decide
theorem test_decodes_strobe : decodeCmd .four 0b0100_0_000_1000000000000001_00000000#32 = .ok (.strobe 0x8001#16) := by decide
theorem test_decodes_sendNibble :
    decodeCmd .four 0b0101_0_000_0001000000000100_00000011#32 = .ok (.sendNibble .fixedDelay 4100#16 3#4) := by decide
theorem test_decodes_sendNibble_poll :
    decodeCmd .three 0b0101_1_000_0000000000000000_00001000#32 = .ok (.sendNibble .busyPoll 0#16 8#4) := by decide
theorem test_decodes_sendByte :
    decodeCmd .four 0b0110_0_000_1001110001000000_00101000#32 = .ok (.sendByte .fixedDelay 40000#16 0x28#8) := by decide
theorem test_decodes_sendByte_poll :
    decodeCmd .three 0b0110_1_000_0000000000110010_10000001#32 = .ok (.sendByte .busyPoll 50#16 0x81#8) := by decide
theorem test_decodes_writeChar :
    decodeCmd .four 0b0111_0_000_0000000000110010_11101001#32 = .ok (.writeChar .fixedDelay 50#16 0xE9#8) := by decide
theorem test_decodes_writeChar_poll :
    decodeCmd .three 0b0111_1_000_0000000000000000_01000001#32 = .ok (.writeChar .busyPoll 0#16 0x41#8) := by decide

/-- R84: the seven controller-side values. -/
theorem test_decodes_controller_values :
    decode .four (.lcd (.nibble 0b0011#4)) = .ok .lcdFunctionSet8bitNibble ∧
    decode .four (.lcd (.nibble 0b0010#4)) = .ok .lcdFunctionSet4bitNibble ∧
    decode .four (.lcd (.byte 0b00101000#8)) = .ok .lcdFunctionSet4bit2line5x8 ∧
    decode .four (.lcd (.byte 0b00001100#8)) = .ok .lcdDisplayOnCursorOffBlinkOff ∧
    decode .four (.lcd (.byte 0b00000001#8)) = .ok .lcdClearDisplay ∧
    decode .four (.lcd (.byte 0b00000010#8)) = .ok .lcdReturnHome ∧
    decode .four (.lcd (.byte 0b00000110#8)) = .ok .lcdEntryModeIncNoshift := by decide

/-- V2.3: the words marked ILLEGAL for both widths, with the reason. -/
theorem test_rejects_by_name :
    decodeCmd .three 0x00000000#32 = .error .reservedOpcode ∧
    decodeCmd .three 0x80000000#32 = .error .reservedOpcode ∧
    decodeCmd .three 0xF0000000#32 = .error .reservedOpcode ∧
    decodeCmd .three 0x10000001#32 = .error .reservedBit ∧
    decodeCmd .three 0x20000100#32 = .error .reservedBit ∧
    decodeCmd .three 0x48000000#32 = .error .reservedBit ∧
    decodeCmd .three 0x40000001#32 = .error .reservedBit ∧
    decodeCmd .three 0x50000010#32 = .error .reservedBit ∧
    decodeCmd .three 0x61000000#32 = .error .reservedBit ∧
    decodeCmd .three 0x58000108#32 = .error .busyNibbleWithDelay ∧
    decodeCmd .four 0x58000008#32 = .error .busyPollWithoutReadback ∧
    decodeCmd .four 0x68003201#32 = .error .busyPollWithoutReadback ∧
    decodeCmd .four 0x78000041#32 = .error .busyPollWithoutReadback ∧
    decode .three (.lcd (.nibble 0x8#4)) = .error .notAControllerValue ∧
    decode .three (.lcd (.byte 0x38#8)) = .error .notAControllerValue := by decide

theorem test_decodeTableWord :
    decodeTableWord 32 0x50100403 = some (.sendNibble .fixedDelay 4100#16 3#4) ∧
    decodeTableWord 32 0x58000008 = some (.sendNibble .busyPoll 0#16 8#4) ∧
    decodeTableWord 8 0x03 = some .lcdFunctionSet8bitNibble ∧
    decodeTableWord 4 0x2 = some .lcdFunctionSet4bitNibble ∧
    decodeTableWord 8 0x02 = some .lcdReturnHome ∧
    decodeTableWord 8 0x28 = some .lcdFunctionSet4bit2line5x8 := by decide

/-! ### Operands -/

/-- V2.1. -/
theorem test_encoder :
    encodeChar 0x00#8 = some (0x0#4, 0x0#4) ∧ encodeChar 0x69#8 = some (0x6#4, 0x9#4) ∧
    encodeChar 0x7F#8 = some (0x7#4, 0xF#4) ∧ encodeChar 0x80#8 = none ∧ encodeChar 0xFF#8 = none := by decide

/-- V2.2. -/
theorem test_durations :
    cyclesOf { Config.chosen with fClk := 32768 } 100#16 = 4 ∧ cyclesOf { Config.chosen with fClk := 32768 } 40000#16 = 1311 ∧
    cyclesOf { Config.chosen with fClk := 999999 } 1#16 = 1 ∧ cyclesOf { Config.chosen with fClk := 16000000 } 40000#16 = 640000 := by
  decide

/-! ### One step of each command -/

/-- R23, R156: at acceptance the list holds all 43 line ops of INIT at width 4, and all 57 at width 3. -/
theorem test_init_loads_its_expansion :
    let lineOps (bw : BusWidth) :=
      (accepting 0x10000000#32 (idle bw .data .even)).map fun t => t.seq.countP fun o => o.request.isSome
    lineOps .four = some 43 ∧ lineOps .three = some 57 := by decide

/-- V2.8, width 4: with no power-on wait, INIT's first request, SET(RS, 0), follows acceptance; INIT_DONE is cleared. -/
theorem test_init_first_request :
    firstRequest 0x10000000#32 { idle .four .data .even with initDone := true } = some ⟨0#2, 1#3, 0#4⟩ ∧
    (accepting 0x10000000#32 { idle .four .data .even with initDone := true }).map (·.initDone) = some false := by decide

/-- V2.4: SEL_IR while ODD. -/
theorem test_selIr_refused_while_odd : statusAfter 0x20000000#32 (idle .four .instruction .odd) = some 0x02AFE132#32 := by decide

/-- V2.5: the status word one cycle after the answer to SET(RS, 1). -/
theorem test_selDr_answer :
    ((after (step { busyAt [.req (.set .rs true) 15#4] (some (.set .rs true)) with
        phase := .unknown, mode := .unknown, initDone := false, inputs := [answersOk] })).map status) = some 0x026FE040#32 := by decide

/-- V2.5: SET(RS, 0) answered ERR. -/
theorem test_selIr_error :
    ((after (step { busyAt [.req (.set .rs false) 15#4] (some (.set .rs false)) with
        mode := .data, initDone := false, inputs := [answersErr] })).map status) = some 0x02AF2006#32 := by decide

/-- V2.4 and V2.6: STROBE with mode UNKNOWN; its first request. -/
theorem test_strobe :
    statusAfter 0x40000000#32 (idle .four .unknown .unknown) = some 0x02AFE00E#32 ∧
    firstRequest 0x40000500#32 (idle .four .instruction .even) = some ⟨0#2, 0#3, 1#4⟩ := by decide

/-- V2.6: SET(E, 0) answered, the phase toggled. -/
theorem test_strobe_end :
    ((after (step { busyAt [.req (.set .e false) 15#4, .note .togglePhase] (some (.set .e false)) with
        initDone := false, inputs := [answersOk] })).map status) = some 0x028FE120#32 := by decide

/-- V2.7: nibble 0xA, SETV(0xA) with width 4, SET(D7, 1) with width 3. -/
theorem test_sendNibble_first_request :
    firstRequest 0x5000000A#32 (idle .four .instruction .even) = some ⟨1#2, 6#3, 0xA#4⟩ ∧
    firstRequest 0x5000000A#32 (idle .three .instruction .even) = some ⟨0#2, 5#3, 1#4⟩ := by decide

/-- V2.4: the busy nibble needs phase ODD. -/
theorem test_sendNibble_phase : statusAfter 0x58000008#32 (idle .three .instruction .even) = some 0x02AFE0B2#32 := by decide

/-- V2.7: 0x28, high nibble first. -/
theorem test_sendByte_first_request :
    firstRequest 0x609C4028#32 (idle .four .instruction .even) = some ⟨1#2, 6#3, 2#4⟩ := by decide

/-- V2.7: the second SETV of SEND_BYTE answered ERR. -/
theorem test_sendByte_error :
    ((after (step { busyAt [.req (.setv [true, false, false, false]) 1#4] (some (.setv [true, false, false, false])) with
        eSh := .low, initDone := false, inputs := [answersErr] })).map status) = some 0x0281C826#32 := by decide

/-- V2.9: 0xE9 under SKIP and under FAIL. -/
theorem test_writeChar_skip_and_fail :
    statusAfter 0x700032E9#32 (idle .four .data .even) = some 0x02AFE4C0#32 ∧
    statusAfter 0x700032E9#32 (withPolicy .fail (idle .four .data .even)) = some 0x02AFE0D6#32 := by decide

/-- V2.9: 0xE9 under SUBSTITUTE sends 0x3F; V2.4: MODE is checked before PHASE. -/
theorem test_writeChar_substitute_and_order :
    firstRequest 0x700032E9#32 (withPolicy .substitute (idle .four .data .even)) = some ⟨1#2, 6#3, 3#4⟩ ∧
    statusAfter 0x70003248#32 (idle .four .instruction .odd) = some 0x02AFE12E#32 := by decide

/-- The first request of a controller-side value, width 4, as the step after withFetchWord starts it: its high nibble (V1.7). -/
def fetched (nbits w : Nat) : Option LinePort :=
  (after (step ((idle .four .unknown .unknown).withFetchWord nbits w))).bind fun t => (lineRequest t).map LineReq.port

theorem test_controller_values_sent :
    fetched 8 0x03 = some ⟨1#2, 6#3, 3#4⟩ ∧ fetched 4 0x2 = some ⟨1#2, 6#3, 2#4⟩ ∧ fetched 8 0x28 = some ⟨1#2, 6#3, 2#4⟩ ∧
    fetched 8 0x0C = some ⟨1#2, 6#3, 0#4⟩ ∧ fetched 8 0x01 = some ⟨1#2, 6#3, 0#4⟩ ∧ fetched 8 0x02 = some ⟨1#2, 6#3, 0#4⟩ ∧
    fetched 8 0x06 = some ⟨1#2, 6#3, 0#4⟩ := by decide

theorem test_withFetchWord_runs_a_command :
    fetched 32 0x30000000 = some ⟨0#2, 1#3, 1#4⟩ ∧ fetched 32 0x10000000 = some ⟨0#2, 1#3, 0#4⟩ := by decide

/-- V2.7: the first GET answered ERR leaves the block BUSY with the restore to come; its answer gives the status word. -/
theorem test_poll_error_restores :
    ((after (step { busyAt [.req (.get .d7) 1#4, .req (.dirOut .d7 false) 1#4] (some (.get .d7)) with
        inputs := [answersErr] })).map fun t => (t.st, lineRequest t)) = some (.busy, some (.dirOut .d7 false)) ∧
    ((after (step { busyAt [.restore .get 1#4] (some (.dirOut .d7 false)) with
        mode := .data, eSh := .low, initDone := false, inputs := [answersOk] })).map status) = some 0x0081B046#32 := by decide

/-! ### Witnesses: each meets the hypotheses of the statement it is named after -/

theorem witness_DecodeOfEncodeIsTheInstruction :
    (Instr.sendNibble .busyPoll 0#16 8#4).wellFormed .three = true ∧ Instr.lcdReturnHome.wellFormed .four = true := by decide

theorem witness_EncodeOfDecodeIsTheWord :
    decode .three (.cmd 0x68003201#32) = .ok (.sendByte .busyPoll 50#16 1#8) ∧
    decode .four (.lcd (.byte 0x28#8)) = .ok .lcdFunctionSet4bit2line5x8 := by decide

theorem witness_EncoderSplitsAscii : (0x7F#8 : Byte).toNat ≤ 0x7F ∧ 0x7F < (0x80#8 : Byte).toNat := by decide

theorem witness_ResetSetsEveryField : ({ PortInput.quiet with rst := true } : PortInput).rst = true := by decide

theorem witness_ErrorEntryWrites : ErrCode.modeError ≠ .ioError := by decide

theorem witness_IllegalCommandRaisedExactly :
    State.reset.st = .idle ∧ State.reset.err = .none ∧ illegalWord State.reset.cfg.busWidth 0x80000000#32 ∧
    illegalWord State.reset.cfg.busWidth 0x50000010#32 ∧ illegalWord .four 0x58000008#32 ∧
    illegalWord .three 0x7FFFFFFF#32 ∧ ¬ illegalWord State.reset.cfg.busWidth 0x10000000#32 := by
  refine ⟨by decide, by decide, ?_, ?_, ?_, ?_, ?_⟩ <;> simp only [illegalWord] <;> decide

theorem witness_ModeErrorRaisedExactly :
    (idle .three .instruction .odd).err = .none ∧
    (Instr.sendNibble .busyPoll 0#16 8#4).wellFormed (idle .three .instruction .odd).cfg.busWidth = true ∧
    (Instr.sendByte .busyPoll 50#16 1#8).wellFormed (idle .three .instruction .odd).cfg.busWidth = true ∧
    (Instr.writeChar .fixedDelay 50#16 0x41#8).wellFormed (idle .three .instruction .odd).cfg.busWidth = true := by decide

theorem witness_PhaseErrorRaisedExactly :
    (idle .three .data .odd).err = .none ∧ (idle .three .data .odd).mode ≠ .unknown ∧ (idle .three .data .odd).mode = .data ∧
    (Instr.sendByte .fixedDelay 50#16 1#8).wellFormed (idle .three .data .odd).cfg.busWidth = true ∧
    (Instr.writeChar .fixedDelay 50#16 1#8).wellFormed (idle .three .data .odd).cfg.busWidth = true ∧
    (Instr.sendNibble .busyPoll 0#16 1#4).wellFormed (idle .three .data .odd).cfg.busWidth = true := by decide

theorem witness_UnsupportedInputRaisedExactly :
    (withPolicy .fail (idle .four .data .even)).err = .none ∧
    (Instr.writeChar .fixedDelay 50#16 0x80#8).wellFormed (withPolicy .fail (idle .four .data .even)).cfg.busWidth = true ∧
    (withPolicy .fail (idle .four .data .even)).mode = .data ∧ (withPolicy .fail (idle .four .data .even)).phase ≠ .odd ∧
    errAfter (exec (.writeChar .fixedDelay 50#16 0x80#8) (withPolicy .fail (idle .four .data .even))) = some .unsupportedInput ∧
    errAfter (exec (.writeChar .fixedDelay 50#16 0x7F#8) (withPolicy .fail (idle .four .data .even))) = some .none := by decide

/-- One state for each clause. -/
theorem witness_ChecksReportTheFirstError :
    hostCommand (.writeChar .busyPoll 0#16 0x41#8) = true ∧
    (Instr.writeChar .busyPoll 0#16 0x41#8).wellFormed .four = false ∧
    ((Instr.strobe 0#16).wellFormed .four = true ∧ modeCheckFails .unknown (.strobe 0#16) = true) ∧
    (modeCheckFails .unknown .selIr = false ∧ phaseCheckFails .odd .selIr = true) ∧
    ((Instr.writeChar .fixedDelay 50#16 0xE9#8).wellFormed .four = true ∧
      modeCheckFails .data (.writeChar .fixedDelay 50#16 0xE9#8) = false ∧
      phaseCheckFails .even (.writeChar .fixedDelay 50#16 0xE9#8) = false ∧
      unsupportedInput (withPolicy .fail (idle .four .data .even)).cfg (.writeChar .fixedDelay 50#16 0xE9#8) = true ∧
      unsupportedInput (idle .four .data .even).cfg (.writeChar .fixedDelay 50#16 0xE9#8) = false) := by decide

theorem witness_RefusedCommandIssuesNothing :
    (idle .four .unknown .unknown).st = .idle ∧ (idle .four .unknown .unknown).err = .none ∧
    ∃ t, step (offered 0x40000000#32 [] (idle .four .unknown .unknown)) = .next t ∧ t.err ≠ .none :=
  ⟨by decide, by decide, _, rfl, by decide⟩

theorem witness_FailedIsFinalUntilReset :
    failedState.st = .failed ∧ ∀ p ∈ [presents 0x10000000#32, answersErr, PortInput.quiet], p.rst = false := by decide

theorem witness_ErrorAnswerAborts :
    let s := busyAt [.req (.set .rs true) 15#4] (some (.set .rs true))
    s.st = .busy ∧ s.pending = some (.set .rs true) ∧ s.seq = .req (.set .rs true) 15#4 :: [] ∧
    LineReq.set .rs true ≠ .dirIn .d7 ∧ LineReq.set .rs true ≠ .get .d7 ∧
    answersErr.rst = false ∧ answersErr.respValid = true ∧ answersErr.respErr = true := by decide

theorem witness_PollFailureRestoresOnce :
    let s := busyAt [.req (.dirIn .d7) 1#4] (some (.dirIn .d7))
    let u := busyAt [.req (.get .d7) 1#4] (some (.get .d7))
    (s.st = .busy ∧ s.pending = some (.dirIn .d7) ∧ s.tmr = 0 ∧ s.seq = [.req (.dirIn .d7) 1#4]) ∧
    (u.st = .busy ∧ u.pending = some (.get .d7) ∧ u.tmr = 0 ∧ u.seq = [.req (.get .d7) 1#4]) := by decide

theorem witness_SelectStartsTheRsWrite : (idle .four .data .even).phase ≠ .odd := by decide

theorem witness_StrobeStartsOnePulse : (idle .four .instruction .unknown).mode ≠ .unknown := by decide

theorem witness_SendNibbleStartsOneTransmission :
    let s := idle .three .instruction .odd
    (Instr.sendNibble .busyPoll 0#16 8#4).wellFormed s.cfg.busWidth = true ∧
    (Instr.sendNibble .fixedDelay 7#16 8#4).wellFormed s.cfg.busWidth = true ∧ s.mode ≠ .unknown ∧ s.phase = .odd := by decide

theorem witness_SendByteStartsTwoTransmissions :
    let s := idle .three .instruction .even
    (Instr.sendByte .busyPoll 50#16 8#8).wellFormed s.cfg.busWidth = true ∧ s.mode ≠ .unknown ∧ s.phase ≠ .odd := by decide

theorem witness_WriteCharSendsOrSkips :
    let s := idle .three .data .even
    (Instr.writeChar .busyPoll 50#16 0x7F#8).wellFormed s.cfg.busWidth = true ∧ s.mode = .data ∧ s.phase ≠ .odd ∧
    (0x7F#8 : Byte).toNat ≤ 0x7F ∧ 0x7F < (0x80#8 : Byte).toNat ∧ s.cfg.policy = .skip ∧
    (withPolicy .substitute s).cfg.policy = .substitute := by decide

theorem witness_ExecFrame :
    ∃ t, exec (.strobe 0#16) (idle .four .data .even) = .next t ∧ t.st ≠ .failed := ⟨_, rfl, by decide⟩

theorem witness_OnlySelectAndInitWriteRs :
    ∃ t, exec .lcdClearDisplay (busyAt [.req (.set .rs false) 15#4] none) = .next t ∧
      .req (.set .rs false) 15#4 ∈ t.seq := ⟨_, rfl, by decide⟩

theorem witness_StepRunsTheDecodedCommand :
    State.reset.st = .idle ∧ (presents 0x30000000#32).rst = false ∧ (presents 0x30000000#32).cmdValid = true ∧
    decodeCmd State.reset.cfg.busWidth (presents 0x30000000#32).cmdData = .ok .selDr := by decide

/-- A legal state for each clause: IDLE with an INIT presented (the power-on wait no cycle, and two), a request outstanding
before a value by itself, and a wait in its last cycle before one. -/
theorem witness_StepRunsTheScriptRow :
    let row : RomRow := ⟨.byte 0x28#8, 4#4, 40000#16⟩
    let s := busyAt [.req (.set .rs false) 15#4, .rom row] (some (.set .rs false))
    let u := { busyAt [.wait 3, .rom row, .note .initDone] none with tmr := 1 }
    let v := idle .four .unknown .unknown
    let x := { v with cfg := { v.cfg with powerOnUs := 2#16 } }
    (inv v = true ∧ inv x = true ∧ v.st = .idle ∧ x.st = .idle ∧ cyclesOf v.cfg v.cfg.powerOnUs = 0 ∧
      cyclesOf x.cfg x.cfg.powerOnUs = 2 ∧ (presents 0x10000000#32).rst = false ∧ (presents 0x10000000#32).cmdValid = true ∧
      decodeCmd v.cfg.busWidth (presents 0x10000000#32).cmdData = .ok .init ∧
      decodeCmd x.cfg.busWidth (presents 0x10000000#32).cmdData = .ok .init) ∧
    inv s = true ∧ inv u = true ∧ decodeLcd row.word = .ok .lcdFunctionSet4bit2line5x8 ∧
    (s.pending = some (.set .rs false) ∧ s.seq = .req (.set .rs false) 15#4 :: .rom row :: [] ∧ answersOk.rst = false ∧
      answersOk.respValid = true ∧ answersOk.respErr = false ∧ answersOk.respVal = false) ∧
    (u.tmr = 1 ∧ u.seq = .wait 3 :: .rom row :: [.note .initDone]) := by decide

theorem witness_CommandPortIgnoredWhileNotReady :
    cmdReady failedState = false ∧ cmdReady (busyAt [.wait 1] none) = false ∧
    (presents 0x10000000#32).rst = PortInput.quiet.rst ∧ (presents 0x10000000#32).respValid = PortInput.quiet.respValid ∧
    (presents 0x10000000#32).respErr = PortInput.quiet.respErr ∧
    (presents 0x10000000#32).respVal = PortInput.quiet.respVal := by decide

theorem witness_AnswerIgnoredWhileNothingPending :
    State.reset.pending = none ∧ answersErr.rst = answersOk.rst ∧ answersErr.cmdValid = answersOk.cmdValid ∧
    answersErr.cmdData = answersOk.cmdData := by decide

/-- The three beginnings of a wait (INIT's with `N(T_POWERON_US) = 0` and with `2`), the first before a controller-side
value by itself, the second at the end of a list; and a listed row. -/
theorem witness_WaitLeavesExactlyNIdleCycles :
    let row : RomRow := ⟨.nibble 0x2#4, 3#4, 40000#16⟩
    let s := busyAt [.req (.set .e false) 0#4, .note .togglePhase, .wait 2, .rom row] (some (.set .e false))
    let u := { busyAt [.wait 5, .wait 2, .note .initDone] none with tmr := 1 }
    let v := idle .four .unknown .unknown
    let x := { v with cfg := { v.cfg with powerOnUs := 2#16 } }
    ((s.st = .busy ∧ s.tmr = 0 ∧ s.pending = some (.set .e false) ∧
        s.seq = .req (.set .e false) 0#4 :: ([Note.togglePhase].map .note ++ .wait 2 :: ([].map .note ++ [.rom row]))) ∧
      answersOk.rst = false ∧ answersOk.respValid = true ∧ answersOk.respErr = false ∧ answersOk.respVal = false) ∧
    (u.st = .busy ∧ u.tmr = 1 ∧ u.pending = none ∧
      u.seq = .wait 5 :: ([].map .note ++ .wait 2 :: ([Note.initDone].map .note ++ []))) ∧
    (v.st = .idle ∧ restLegal v = true ∧ (presents 0x10000000#32).cmdValid = true ∧
      decodeCmd v.cfg.busWidth (presents 0x10000000#32).cmdData = .ok .init ∧
      initOps v.cfg = [].map .note ++ .wait 0 :: ([].map .note ++ (initOps v.cfg).tail) ∧
      initOps x.cfg = [].map .note ++ .wait 2 :: ([].map .note ++ (initOps x.cfg).tail) ∧
      (initOps x.cfg).tail = .req (.set .rs false) 15#4 :: (initOps x.cfg).tail.tail) ∧
    rowLegal row = true ∧ ([PortInput.quiet, answersErr].length = 2 ∧ ∀ d ∈ [PortInput.quiet, answersErr], d.rst = false) := by
  decide

/-- Also for SelectRunsToTheEnd and CommandIsBusyForItsCost. -/
theorem witness_CommandRunsItsListToTheEnd :
    let s := idle .four .instruction .even
    s.st = .idle ∧ restLegal s = true ∧ s.phase ≠ .odd ∧ decodeCmd s.cfg.busWidth 0x30000000#32 = .ok .selDr ∧
    ∃ t, exec .selDr (latchCommand 0x30000000#32 s) = .next t ∧ t.st ≠ .failed :=
  ⟨by decide, by decide, by decide, by decide, _, rfl, by decide⟩

/-- Also for InitRunsToTheEnd. -/
theorem witness_StrobeRunsToTheEnd :
    let s := idle .four .instruction .unknown
    s.st = .idle ∧ restLegal s = true ∧ s.mode ≠ .unknown := by decide

theorem witness_SendNibbleRunsToTheEnd :
    let s := idle .three .instruction .odd
    s.st = .idle ∧ restLegal s = true ∧ (Instr.sendNibble .busyPoll 0#16 8#4).wellFormed s.cfg.busWidth = true ∧
    (Instr.sendNibble .fixedDelay 9#16 8#4).wellFormed s.cfg.busWidth = true ∧ s.mode ≠ .unknown ∧ s.phase = .odd := by decide

theorem witness_SendByteRunsToTheEnd :
    let s := idle .three .instruction .even
    s.st = .idle ∧ restLegal s = true ∧ (Instr.sendByte .busyPoll 50#16 1#8).wellFormed s.cfg.busWidth = true ∧
    s.mode ≠ .unknown ∧ s.phase ≠ .odd := by decide

theorem witness_WriteCharRunsToTheEnd :
    let s := idle .three .data .unknown
    s.st = .idle ∧ restLegal s = true ∧ (Instr.writeChar .busyPoll 50#16 0x7F#8).wellFormed s.cfg.busWidth = true ∧
    s.mode = .data ∧ s.phase ≠ .odd ∧ (0x7F#8 : Byte).toNat ≤ 0x7F ∧ 0x7F < (0x80#8 : Byte).toNat ∧ s.cfg.policy = .skip ∧
    (withPolicy .substitute s).cfg.policy = .substitute ∧
    (0x3F#8 : Byte) = (withPolicy .substitute s).cfg.subChar.setWidth 8 := by decide

theorem witness_CommandCost : ∀ d ∈ [0, 0], d = 0 := by decide

theorem witness_BusyPollNeverEnds :
    let s := busyAt [.req (.get .d7) 1#4] none
    s.st = .busy ∧ s.pending = none ∧ s.tmr = 0 ∧ s.seq = .req (.get .d7) 1#4 :: [] := by decide

/-- A legal state, whose list is what is left of a polling transmission while `SET(E, 0)` is outstanding (R120). -/
theorem witness_PollReadsExactlyNPlusOneTimes :
    let ops : List MicroOp := .req (.set .e false) 1#4 :: .note .togglePhase :: pollSeq 1#4
    let s := { busyAt ops (some (.set .e false)) with eSh := .high }
    s.st = .busy ∧ s.pending = some (.set .e false) ∧ s.tmr = 0 ∧ s.seq = ops ∧ inv s = true ∧
    ops <:+ tx s.cfg 8#4 .busy 1#4 false := by decide

theorem witness_UnansweredRequestWaitsForever :
    let s := busyAt [.req (.set .e true) 0#4] (some (.set .e true))
    s.st = .busy ∧ s.pending = some (.set .e true) ∧
    ∀ p ∈ [PortInput.quiet, presents 0x10000000#32], p.rst = false ∧ p.respValid = false := by decide

theorem witness_ByteLatchesHighThenLow :
    let s := idle .three .instruction .even
    s.st = .idle ∧ restLegal s = true ∧ (Instr.sendByte .fixedDelay 50#16 1#8).wellFormed s.cfg.busWidth = true ∧
    (Instr.sendByte .busyPoll 50#16 1#8).wellFormed s.cfg.busWidth = true ∧ s.mode ≠ .unknown ∧ s.phase ≠ .odd ∧
    (⟨false, true, false, false, true, true⟩ : Lines).e = false := by decide

theorem witness_InitLatchesFourteenNibbles : (⟨false, true, false, false, true, true⟩ : Lines).e = false := by decide

theorem witness_HiIsFourDataNibbles :
    let s := idle .three .unknown .unknown
    s.st = .idle ∧ restLegal s = true ∧ s.phase ≠ .odd := by decide

/-- A legal state at rest, one in a running wait, one in the middle of a poll, and one at a restore; none holds a
controller-side value by itself. -/
theorem witness_EveryStepKeepsTheInvariant :
    inv (idle .four .data .even) = true ∧ seqExpanded (idle .four .data .even) = true ∧
    seqExpanded (busyAt [.wait 3, .req (.setv [true, false, true]) 0#4] none) = true ∧
    inv { busyAt [.wait 3, .req (.setv [true, false, true]) 0#4] none with tmr := 2 } = true ∧
    inv { busyAt [.req (.get .d7) 1#4, .req (.dirOut .d7 false) 1#4] (some (.get .d7)) with d7dir := .input } = true ∧
    inv { busyAt [.restore .get 1#4] none with d7dir := .input } = true := by decide

theorem witness_EveryStepKeepsTheMirrors :
    modeMirrorsRs (State.resetWith Config.chosen) = true ∧ phaseFromInit { State.reset with phase := .even, initDone := true } = true ∧
    ∃ t, step (offered 0x30000000#32 [] State.reset) = .next t := ⟨by decide, by decide, _, rfl⟩

theorem witness_RequestsAreThoseOfTheConfiguration :
    let s := { busyAt [.req (.get .d7) 1#4, .req (.dirOut .d7 false) 1#4] none with d7dir := .input }
    inv s = true ∧ lineRequest s = some (.get .d7) ∧ s.d7dir = .input ∧
    inv State.reset = true ∧ State.reset.st ≠ .busy := by decide

theorem witness_ModeChangesOnlyAtAnRsWrite :
    ∃ t, step { busyAt [.req (.set .rs true) 15#4] (some (.set .rs true)) with inputs := [answersOk] } = .next t ∧
      t.mode ≠ (busyAt [.req (.set .rs true) 15#4] (some (.set .rs true))).mode := ⟨_, rfl, by decide⟩

/-- A step from a legal state that sets the flag, and one that clears it. -/
theorem witness_InitDoneWrittenOnlyByInit :
    let s := { busyAt [.wait 1, .note .initDone] none with tmr := 1, initDone := false, inputs := [PortInput.quiet] }
    (inv s = true ∧ ∃ t, step s = .next t ∧ t.initDone = true) ∧
    (∃ t, step (offered 0x10000000#32 [] { State.reset with initDone := true }) = .next t ∧ t.initDone = false) :=
  ⟨⟨by decide, _, rfl, by decide⟩, _, rfl, by decide⟩

/-- A cycle that accepts, and one that does not. -/
theorem witness_SkippedSaysTheLastCommandWasDropped :
    (∃ t, step (offered 0x700032E9#32 [] (idle .four .data .even)) = .next t ∧ t.skipped = true) ∧
    (∃ t, step { idle .four .data .even with skipped := true, inputs := [PortInput.quiet] } = .next t ∧ t.skipped = true) ∧
    (idle .four .data .even).st = .idle ∧ PortInput.quiet.rst = false := ⟨⟨_, rfl, by decide⟩, ⟨_, rfl, by decide⟩, by decide, by decide⟩

theorem witness_ErrorFieldsWrittenOnlyByErrorEntry :
    (∃ t, step (offered 0x30000000#32 [] State.reset) = .next t ∧ t.st ≠ .failed) ∧ failedState.st = .failed ∧
    (presents 0x30000000#32).rst = false := ⟨⟨_, rfl, by decide⟩, by decide, by decide⟩

/-- A GET presented, and a poll started from a legal state. -/
theorem witness_PollsCountsIssuedReads :
    let s := { busyAt (.wait 1 :: pollSeq 1#4) none with tmr := 1, polls := 7#32, inputs := [PortInput.quiet] }
    (∃ t, step { busyAt [.req (.get .d7) 1#4] none with inputs := [PortInput.quiet] } = .next t ∧ t.polls ≠ 0#32) ∧
    (inv s = true ∧ ∃ t, step s = .next t ∧ t.polls ≠ 7#32) := ⟨⟨_, rfl, by decide⟩, by decide, _, rfl, by decide⟩

end Sys2Proof.Tests
end

section
/-! PROOFS. Durations (00 R10): the cycle count of a duration is Mathlib's rounded-up quotient, so it is the least count
that lasts long enough. -/

namespace Sys2Proof.Machine

/-- R10's `ceil`: adding 999999 before `div` is rounding up. -/
theorem cyclesOf_eq_ceilDiv (c : Config) (us : Micros) : cyclesOf c us = (us.toNat * c.fClk) ⌈/⌉ 1000000 := by
  rw [cyclesOf, Nat.ceilDiv_eq_add_pred_div, Nat.add_sub_assoc (by decide)]

/-- The counts at or above `N(t)` are exactly those that last at least `t` µs (R10). -/
theorem cyclesOf_le_iff (c : Config) (us : Micros) (n : Nat) :
    cyclesOf c us ≤ n ↔ us.toNat * c.fClk ≤ n * 1000000 := by
  rw [cyclesOf_eq_ceilDiv, ceilDiv_le_iff_le_mul (by decide), Nat.mul_comm n]

@[simp] theorem cyclesOf_zero (c : Config) : cyclesOf c 0#16 = 0 := by
  simp [cyclesOf_eq_ceilDiv]

/-- Settles O6: lasting long enough and being least are the two directions of `cyclesOf_le_iff`. -/
theorem durationRoundsUp : Obligations.DurationRoundsUp := by
  intro c us
  have lasts : us.toNat * c.fClk ≤ cyclesOf c us * 1000000 := (cyclesOf_le_iff c us _).mp le_rfl
  have least (n : Nat) : us.toNat * c.fClk ≤ n * 1000000 → cyclesOf c us ≤ n := (cyclesOf_le_iff c us n).mpr
  exact ⟨lasts, least, rfl, cyclesOf_zero c⟩

end Sys2Proof.Machine
end

section
/-! PROOFS. One clock cycle (70 R236), case by case: what every statement about single steps goes through. -/

namespace Sys2Proof.Machine

/-- Everything one clock cycle can do from `s`, with its outcome. A micro-operation ends where its request is answered
(`answered`) or its wait runs out (`ended`). `released` is a read that was answered busy; it and `ended` also take in
the answers and the lists that no run leaves standing (log entry 10). -/
inductive ClockCase (p : PortInput) (s : State) : Host.Outcome State Fault Refusal → Prop
  | reset (hrst : p.rst = true) : ClockCase p s (.next (resetBlock s))
  | stay (hrst : p.rst = false) (hquiet : s.st = .idle → p.cmdValid = false) : ClockCase p s (.next s)
  | refused (e : ErrCode) (hidle : s.st = .idle) (hvalid : p.cmdValid = true) (he : e ≠ .ioError ∧ e ≠ .none)
      (hcheck : ∀ i, decodeCmd s.cfg.busWidth p.cmdData = .ok i → acceptError i s = some e) :
      ClockCase p s (.next (refuse e (latchCommand p.cmdData s)))
  | started (i : Instr) (ops : List MicroOp) (hidle : s.st = .idle) (hvalid : p.cmdValid = true)
      (hdec : decodeCmd s.cfg.busWidth p.cmdData = .ok i) (hpass : acceptError i s = none)
      (hops : expansion s.cfg i = some ops) :
      ClockCase p s (settle ops (startSeq ops (beforeSeq i (latchCommand p.cmdData s))))
  | dropped (i : Instr) (hidle : s.st = .idle) (hvalid : p.cmdValid = true)
      (hdec : decodeCmd s.cfg.busWidth p.cmdData = .ok i) (hpass : acceptError i s = none)
      (hops : expansion s.cfg i = none) :
      ClockCase p s (.next { latchCommand p.cmdData s with skipped := true })
  | presented (r : LineReq) (hbusy : s.st = .busy) (hreq : lineRequest s = some r) : ClockCase p s (.next (issue r s))
  | counted (n : Nat) (hbusy : s.st = .busy) (hpend : s.pending = none) (htmr : s.tmr = n + 2) :
      ClockCase p s (.next { s with tmr := n + 1 })
  | ended (ops : List MicroOp) (hbusy : s.st = .busy) (hpend : s.pending = none)
      (hops : s.tmr = 1 ∧ ops = dropWait s.seq ∨ s.tmr = 0 ∧ lineRequest s = none ∧ ops = s.seq) :
      ClockCase p s (settle ops { s with tmr := 0 })
  | answered (r : LineReq) (k : BitVec 4) (ops : List MicroOp) (hbusy : s.st = .busy) (hpend : s.pending ≠ none)
      (hvalid : p.respValid = true) (hseq : s.seq = .req r k :: ops) :
      ClockCase p s (settle ops (applyOk r { s with pending := none }))
  | released (hbusy : s.st = .busy) : ClockCase p s (.next { s with pending := none })
  | failed (r : LineReq) (k : BitVec 4) (ops : List MicroOp) (hbusy : s.st = .busy) (hpend : s.pending ≠ none)
      (hvalid : p.respValid = true) (hseq : s.seq = .req r k :: ops) : ClockCase p s (.next (failRequest r k s))
  | restored (first : OpKind) (k : BitVec 4) (ops : List MicroOp) (hbusy : s.st = .busy)
      (hseq : s.seq = .restore first k :: ops) : ClockCase p s (.next (finishRestore first k p.respErr s))

/-- A presented word is refused, starts its command's list, or has its character dropped (R196). -/
theorem accept_cases {p : PortInput} {s : State} (hidle : s.st = .idle) (hvalid : p.cmdValid = true) :
    ClockCase p s (accept p.cmdData s) := by
  unfold accept
  split
  next i hdec =>
    simp only [execThenSettle, exec_eq, lcdValue_of_decodeCmd hdec, acceptError_latchCommand, latchCommand_cfg]
    cases herr : acceptError i s with
    | some e =>
      have hcheck (j : Instr) (hj : decodeCmd s.cfg.busWidth p.cmdData = .ok j) : acceptError j s = some e := by
        cases hdec.symm.trans hj
        exact herr
      simpa using ClockCase.refused e hidle hvalid (acceptError_ne_ioError herr) hcheck
    | none =>
      cases hops : expansion s.cfg i with
      | some ops => simpa using ClockCase.started i ops hidle hvalid hdec herr hops
      | none => simpa [hidle] using ClockCase.dropped i hidle hvalid hdec herr hops
  next e hdec =>
    exact .refused _ hidle hvalid (by decide) fun i hi => by simp [hdec] at hi

/-- The answer to an outstanding request (R51, R125). -/
theorem answer_cases {p : PortInput} {s : State} (hbusy : s.st = .busy) (hpend : s.pending ≠ none)
    (hvalid : p.respValid = true) : ClockCase p s (answer p s) := by
  unfold answer
  split
  next r k ops hseq =>
    split_ifs
    · exact .failed r k ops hbusy hpend hvalid hseq
    · exact .released hbusy
    · exact .answered r k ops hbusy hpend hvalid hseq
  next first k ops hseq => exact .restored first k ops hbusy hseq
  next => exact .released hbusy

/-- A BUSY cycle waits for an answer, takes it, counts, or presents the next request (R204, R236). -/
theorem busyCycle_cases {p : PortInput} {s : State} (hrst : p.rst = false) (hbusy : s.st = .busy) :
    ClockCase p s (busyCycle p s) := by
  unfold busyCycle
  split
  next r hpend =>
    split_ifs with hvalid
    · exact answer_cases hbusy (by simp [hpend]) hvalid
    · exact .stay hrst (by simp [hbusy])
  next n hpend htmr => exact .counted n hbusy hpend htmr
  next hpend htmr => exact .ended _ hbusy hpend (.inl ⟨htmr, rfl⟩)
  next hpend htmr =>
    split
    next r hreq => exact .presented r hbusy hreq
    next hreq =>
      have hzero : ({ s with tmr := 0 } : State) = s := by rw [← htmr]
      simpa only [hzero] using ClockCase.ended (p := p) s.seq hbusy hpend (.inr ⟨htmr, hreq, rfl⟩)

/-- Every cycle is one of the cases. -/
theorem clock_cases (p : PortInput) (s : State) : ClockCase p s (clock p s) := by
  cases hrst : p.rst with
  | true => rw [clock_reset hrst]; exact .reset hrst
  | false =>
    cases hst : s.st with
    | idle =>
      cases hvalid : p.cmdValid with
      | true => rw [clock_accept hrst hst hvalid]; exact accept_cases hst hvalid
      | false => rw [clock_idle_quiet hrst hst hvalid]; exact .stay hrst fun _ => hvalid
    | busy => rw [clock_busy hrst hst]; exact busyCycle_cases hrst hst
    | failed => rw [clock_failed hrst hst]; exact .stay hrst (by simp [hst])

theorem mem_of_mem_dropWait {o : MicroOp} {ops : List MicroOp} (h : o ∈ dropWait ops) : o ∈ ops := by
  unfold dropWait at h
  split at h
  · exact List.mem_cons_of_mem _ h
  · exact h

/-- The case of a cycle that answers a next state. -/
theorem clockCase_of_next {p : PortInput} {s t : State} (ht : clock p s = .next t) :
    ∃ o, o = .next t ∧ ClockCase p s o :=
  ⟨_, ht, clock_cases p s⟩

/-- What is left of a list in which a micro-operation ended stood in it. -/
theorem subset_of_ended {s : State} {ops : List MicroOp}
    (hops : s.tmr = 1 ∧ ops = dropWait s.seq ∨ s.tmr = 0 ∧ lineRequest s = none ∧ ops = s.seq) : ops ⊆ s.seq := by
  obtain ⟨-, rfl⟩ | ⟨-, -, rfl⟩ := hops
  · exact fun _ => mem_of_mem_dropWait
  · exact List.Subset.refl _

end Sys2Proof.Machine
end

section
/-! PROOFS. The block's invariant: what it says of a BUSY block and of one at rest, that errors keep it, and that every
cycle does. -/

namespace Sys2Proof.Machine

/-! ### Lists that stand for nothing but themselves -/

/-- R23: settling a list without controller-side values leaves one without. -/
theorem settle_keeps_expanded {ops : List MicroOp} {s t : State} (hs : settle ops s = .next t)
    (hx : seqExpanded { s with seq := ops } = true) : seqExpanded t = true := by
  induction ops generalizing s with
  | nil => cases hs; rfl
  | cons o ops ih =>
    cases o with
    | req r k => cases hs; exact hx
    | restore f k => cases hs; exact hx
    | note b => exact ih hs hx
    | wait n =>
      cases n with
      | zero => exact ih hs hx
      | succ n => cases hs; exact hx
    | rom r => simp [seqExpanded] at hx

/-- A part of a list without controller-side values has none. -/
theorem seqExpanded_of_subset {s t : State} (h : t.seq ⊆ s.seq) (hx : seqExpanded s = true) : seqExpanded t = true := by
  unfold seqExpanded at *
  rw [List.all_eq_true] at *
  exact fun o ho => hx o (h ho)

theorem seqExpanded_of_plainOp {s : State} (h : s.seq.all plainOp = true) : seqExpanded s = true := by
  unfold seqExpanded
  rw [List.all_eq_true] at *
  intro o ho
  have := h o ho
  cases o <;> simp_all [plainOp]

/-! ### The two shapes of the invariant -/

section
variable {s : State}

/-- D7 is never turned with width 4. -/
abbrev WidthLegal (s : State) : Prop := (s.cfg.busWidth == .three || s.d7dir == .x) = true

theorem inv_iff_of_busy (hbusy : s.st = .busy) :
    inv s = true ↔ planLegal s.cfg.busWidth (s.eSh == .high) (s.d7dir == .input) s.seq = true ∧ positionLegal s = true ∧
      errLegal s = true ∧ WidthLegal s := by
  simp [inv, hbusy, and_assoc]

theorem inv_iff_of_not_busy (h : s.st ≠ .busy) :
    inv s = true ↔ (s.eSh ≠ .high ∧ s.d7dir ≠ .input) ∧ (s.seq = [] ∧ s.tmr = 0 ∧ s.pending = none) ∧
      errLegal s = true ∧ WidthLegal s := by
  simp only [inv, h, if_false, restLegal, Bool.and_eq_true, beq_iff_eq, and_assoc]
  constructor
  · rintro ⟨hplan, hseq, hrest⟩
    simp only [hseq, planLegal, Bool.and_eq_true, Bool.not_eq_true', beq_eq_false_iff_ne] at hplan
    exact ⟨hplan.1, hplan.2, hseq, hrest⟩
  · rintro ⟨he, hd, hseq, hrest⟩
    exact ⟨by simp [hseq, planLegal, he, hd], hseq, hrest⟩

theorem inv_resetBlock (s : State) : inv (resetBlock s) = true := by
  rw [inv_iff_of_not_busy (by simp)]
  simp [errLegal]

/-- Error entry keeps the invariant wherever E is not asserted and D7 is not an input, and what it records of an IO_ERROR
is a line and a legal index (R30, R190). -/
theorem inv_raiseError {c : ErrCode} {o : OpKind} {l : Option LineId} {k : BitVec 4} (he : s.eSh ≠ .high)
    (hd : s.d7dir ≠ .input) (hw : WidthLegal s) (hc : c ≠ .none) (hio : c = .ioError → l ≠ none ∧ nibLegal k = true) :
    inv (raiseError c o l k s) = true := by
  rw [inv_iff_of_not_busy (by simp)]
  refine ⟨⟨he, hd⟩, ⟨rfl, rfl, rfl⟩, ?_, hw⟩
  by_cases h : c = .ioError
  · subst h
    simp [errLegal, hio]
  · simp [errLegal, h, hc]

/-! ### Acceptance -/

theorem acceptError_eq_none_iff (i : Instr) :
    acceptError i s = none ↔ i.wellFormed s.cfg.busWidth = true ∧ modeCheckFails s.mode i = false ∧
      phaseCheckFails s.phase i = false ∧ unsupportedInput s.cfg i = false := by
  unfold acceptError
  split_ifs <;> simp_all

/-- R79 condition (1): a command that ends in a poll needs width 3. -/
theorem three_of_lastSync_busy {c : Config} {y : Sync} {d : Micros} (hy : y.availableOn c.busWidth = true)
    (hb : lastSync c y d = .busy) : c.busWidth = .three := by
  cases y with
  | fixedDelay => simp [lastSync] at hb
  | busyPoll => cases hw : c.busWidth <;> simp_all [Sync.availableOn, BusWidth.busyReadback]

theorem planLegal_byteOps {c : Config} {y : Sync} (h l : Nibble) (d : Micros) (hy : y.availableOn c.busWidth = true) :
    planLegal c.busWidth false false (byteOps c h l y d) = true := by
  rw [byteOps, planLegal_tx c h _ _ _ _ (by simp) rfl, ← List.append_nil (tx c l _ _ _),
    planLegal_tx c l _ _ _ _ (three_of_lastSync_busy hy) rfl]
  rfl

/-- The list of a well-formed command respects the line contracts. -/
theorem planLegal_expansion {c : Config} {i : Instr} {ops : List MicroOp} (hw : i.wellFormed c.busWidth = true)
    (h : expansion c i = some ops) : planLegal c.busWidth false false ops = true := by
  cases i with
  | init => cases h; exact planLegal_initOps c
  | selIr => cases h; rfl
  | selDr => cases h; rfl
  | strobe d => cases h; rfl
  | sendNibble y d n =>
    cases h
    simp only [Instr.wellFormed, Bool.and_eq_true] at hw
    rw [← List.append_nil (tx c n _ _ _), planLegal_tx c n _ _ _ _ (three_of_lastSync_busy hw.1) rfl]
    rfl
  | sendByte y d b => cases h; exact planLegal_byteOps _ _ d hw
  | writeChar y d b =>
    simp only [expansion, Option.map_eq_some_iff] at h
    obtain ⟨x, -, rfl⟩ := h
    exact planLegal_byteOps _ _ d hw
  | _ => simp [expansion] at h

end

/-! ### Requests -/

/-- The line contracts of one request, given whether E is asserted and whether D7 is an input before it, and what they
are after it (R54, R55, R110, R113, R128). -/
inductive RequestLegal (bw : BusWidth) : Bool → Bool → LineReq → Bool → Bool → Prop
  | raiseE : RequestLegal bw false false (.set .e true) true false
  | lowerE : RequestLegal bw true false (.set .e false) false false
  | setRs (v : Bool) : RequestLegal bw false false (.set .rs v) false false
  | setD7 (v : Bool) (hthree : bw = .three) : RequestLegal bw false false (.set .d7 v) false false
  | setv (vec : List Bool) (hlen : vec.length = bw.lines) : RequestLegal bw false false (.setv vec) false false
  | dirIn (hthree : bw = .three) : RequestLegal bw false false (.dirIn .d7) false true
  | get (hthree : bw = .three) : RequestLegal bw false true (.get .d7) false true
  | dirOut (hthree : bw = .three) : RequestLegal bw false true (.dirOut .d7 false) false false

theorem busyReadback_iff (bw : BusWidth) : bw.busyReadback = true ↔ bw = .three := by cases bw <;> decide

theorem requestLegal_of_planLegal {bw : BusWidth} {e d : Bool} {r : LineReq} {k : BitVec 4} {ops : List MicroOp}
    (h : planLegal bw e d (.req r k :: ops) = true) :
    nibLegal k = true ∧ ∃ e' d', RequestLegal bw e d r e' d' ∧ planLegal bw e' d' ops = true := by
  unfold planLegal at h
  rw [Bool.and_eq_true] at h
  obtain ⟨hk, h⟩ := h
  refine ⟨hk, ?_⟩
  split at h <;> simp only [Bool.and_eq_true, Bool.not_eq_true', beq_iff_eq, busyReadback_iff, reduceCtorEq] at h
  · obtain ⟨⟨rfl, rfl⟩, h⟩ := h; exact ⟨_, _, .raiseE, h⟩
  · obtain ⟨⟨rfl, rfl⟩, h⟩ := h; exact ⟨_, _, .lowerE, h⟩
  · obtain ⟨⟨rfl, rfl⟩, h⟩ := h; exact ⟨_, _, .setRs _, h⟩
  · obtain ⟨⟨⟨hbw, rfl⟩, rfl⟩, h⟩ := h; exact ⟨_, _, .setD7 _ hbw, h⟩
  · obtain ⟨⟨⟨hlen, rfl⟩, rfl⟩, h⟩ := h; exact ⟨_, _, .setv _ hlen, h⟩
  · obtain ⟨⟨⟨hbw, rfl⟩, rfl⟩, h⟩ := h; exact ⟨_, _, .dirIn hbw, h⟩
  · obtain ⟨⟨⟨hbw, rfl⟩, rfl⟩, h⟩ := h; exact ⟨_, _, .get hbw, h⟩
  · obtain ⟨⟨⟨⟨hbw, rfl⟩, rfl⟩, rfl⟩, h⟩ := h; exact ⟨_, _, .dirOut hbw, h⟩

section
variable {s : State} {r : LineReq} {e' d' : Bool}
  (hreq : RequestLegal s.cfg.busWidth (s.eSh == .high) (s.d7dir == .input) r e' d') (hwidth : WidthLegal s)
include hreq hwidth

/-- An `OK` answer makes the shadows say what the contracts say (R32). -/
theorem RequestLegal.applyOk_shadows :
    WidthLegal (applyOk r s) ∧ ((applyOk r s).eSh == .high) = e' ∧ ((applyOk r s).d7dir == .input) = d' := by
  generalize he : (s.eSh == .high) = e at hreq
  generalize hd : (s.d7dir == .input) = d at hreq
  cases hreq <;> simp_all [applyOk, Shadow.ofBool]

/-- After an `ERR` answer to a request outside a poll E is not asserted and D7 is no input. -/
theorem RequestLegal.applyErr_shadows (hr : r.restores = false) :
    WidthLegal (applyErr r s) ∧ (applyErr r s).eSh ≠ .high ∧ (applyErr r s).d7dir ≠ .input := by
  generalize he : (s.eSh == .high) = e at hreq
  generalize hd : (s.d7dir == .input) = d at hreq
  cases hreq <;> simp_all [applyErr, LineReq.restores]

omit hwidth in
/-- A request that restores D7 is made with width 3 while E is not asserted, and its `ERR` answer leaves E so. -/
theorem RequestLegal.restores_three (hr : r.restores = true) :
    s.cfg.busWidth = .three ∧ (applyErr r s).eSh ≠ .high := by
  generalize he : (s.eSh == .high) = e at hreq
  generalize hd : (s.d7dir == .input) = d at hreq
  cases hreq <;> simp_all [applyErr, LineReq.restores]

end

/-! ### Where a micro-operation ends -/

section
variable {s : State} (hinv : inv s = true)
include hinv

theorem settleLegal_started {i : Instr} {ops : List MicroOp} (w : CmdWord) (hidle : s.st = .idle)
    (hpass : acceptError i s = none) (hops : expansion s.cfg i = some ops) :
    SettleLegal (startSeq ops (beforeSeq i (latchCommand w s))) ops := by
  obtain ⟨hwf, -⟩ := (acceptError_eq_none_iff i).mp hpass
  obtain ⟨⟨he, hd⟩, ⟨-, htmr, hpend⟩, herr, hwidth⟩ := (inv_iff_of_not_busy (by simp [hidle])).mp hinv
  have hplan := planLegal_expansion hwf hops
  rw [errLegal_alive s (by simp [hidle])] at herr
  have halive := errLegal_alive (startSeq ops (beforeSeq i (latchCommand w s))) (by simp)
  rw [← beq_eq_false_iff_ne] at he hd
  cases i <;> exact ⟨rfl, hpend, htmr, halive.mpr herr, hwidth, by simpa [beforeSeq, he, hd] using hplan⟩

/-- A request was answered. -/
theorem settleLegal_answered {r : LineReq} {k : BitVec 4} {ops : List MicroOp} (hbusy : s.st = .busy)
    (hseq : s.seq = .req r k :: ops) : SettleLegal (applyOk r { s with pending := none }) ops := by
  obtain ⟨hplan, hpos, herr, hwidth⟩ := (inv_iff_of_busy hbusy).mp hinv
  simp only [positionLegal, hseq, Bool.and_eq_true, beq_iff_eq] at hpos
  obtain ⟨htmr, -⟩ := hpos
  rw [errLegal_alive s (by simp [hbusy])] at herr
  have halive := errLegal_alive (applyOk r { s with pending := none }) (by simp [hbusy])
  refine ⟨by simpa using hbusy, by simp, by simpa using htmr, halive.mpr (by simpa using herr), ?_⟩
  rw [hseq] at hplan
  obtain ⟨-, e', d', hreq, hplan⟩ := requestLegal_of_planLegal hplan
  obtain ⟨hw, he, hd⟩ := RequestLegal.applyOk_shadows (s := { s with pending := none }) hreq hwidth
  exact ⟨hw, by simpa [he, hd] using hplan⟩

/-- The wait at the head of the list ended. The other case of the hypothesis is no legal state's. -/
theorem settleLegal_ended {ops : List MicroOp} (hbusy : s.st = .busy) (hpend : s.pending = none)
    (hops : s.tmr = 1 ∧ ops = dropWait s.seq ∨ s.tmr = 0 ∧ lineRequest s = none ∧ ops = s.seq) :
    SettleLegal { s with tmr := 0 } ops := by
  obtain ⟨hplan, hpos, herr, hwidth⟩ := (inv_iff_of_busy hbusy).mp hinv
  refine ⟨hbusy, hpend, rfl, herr, hwidth, ?_⟩
  cases hseq : s.seq with
  | nil => simp [positionLegal, hseq] at hpos
  | cons o rest =>
    cases o with
    | wait n =>
      simp only [positionLegal, hseq, Bool.and_eq_true, decide_eq_true_eq] at hpos
      obtain ⟨-, rfl⟩ | ⟨hzero, -⟩ := hops
      · simp only [hseq, planLegal, Bool.and_eq_true] at hplan
        simpa [hseq, dropWait] using hplan.2
      · omega
    | req r k =>
      simp only [positionLegal, hseq, Bool.and_eq_true, beq_iff_eq] at hpos
      obtain ⟨hone, -⟩ | ⟨hzero, hnone, -⟩ := hops
      · omega
      · simp [lineRequest, hbusy, hpend, hzero, hseq, MicroOp.request] at hnone
    | restore f k =>
      simp only [positionLegal, hseq, Bool.and_eq_true, beq_iff_eq] at hpos
      obtain ⟨hone, -⟩ | ⟨hzero, hnone, -⟩ := hops
      · omega
      · simp [lineRequest, hbusy, hpend, hzero, hseq, MicroOp.request] at hnone
    | note b => simp [positionLegal, hseq] at hpos
    | rom r => simp [positionLegal, hseq] at hpos

end

end Sys2Proof.Machine
end

section
/-! PROOFS. Every cycle keeps the invariant (O52). -/

namespace Sys2Proof.Machine

section
variable {s : State} (hinv : inv s = true)
include hinv

theorem inv_refuse_latchCommand {e : ErrCode} (w : CmdWord) (hidle : s.st = .idle) (he : e ≠ .ioError ∧ e ≠ .none) :
    inv (refuse e (latchCommand w s)) = true := by
  obtain ⟨⟨hE, hD⟩, -, -, hwidth⟩ := (inv_iff_of_not_busy (by simp [hidle])).mp hinv
  exact inv_raiseError hE hD hwidth he.2 (absurd · he.1)

theorem inv_issue {r : LineReq} (hbusy : s.st = .busy) (hreq : lineRequest s = some r) : inv (issue r s) = true := by
  obtain ⟨hplan, hpos, herr, hwidth⟩ := (inv_iff_of_busy hbusy).mp hinv
  rw [inv_iff_of_busy (by simpa using hbusy)]
  refine ⟨by simpa using hplan, ?_, by simpa [errLegal] using herr, by simpa [WidthLegal] using hwidth⟩
  have hlive : s.pending = none ∧ s.tmr = 0 := by
    unfold lineRequest at hreq
    split at hreq
    · exact ⟨‹_›, ‹_›⟩
    · simp at hreq
  obtain ⟨hpend, htmr⟩ := hlive
  cases hseq : s.seq with
  | nil => simp [lineRequest, hbusy, hpend, htmr, hseq] at hreq
  | cons o rest => cases o <;> simp_all [lineRequest, positionLegal, MicroOp.request]

theorem inv_pending_none (hbusy : s.st = .busy) : inv { s with pending := none } = true := by
  obtain ⟨hplan, hpos, herr, hwidth⟩ := (inv_iff_of_busy hbusy).mp hinv
  rw [inv_iff_of_busy (by simpa using hbusy)]
  refine ⟨hplan, ?_, herr, hwidth⟩
  cases hseq : s.seq with
  | nil => simp [positionLegal, hseq] at hpos
  | cons o rest => cases o <;> simp_all [positionLegal]

/-- R204: a running wait counts down within its operand. -/
theorem inv_tmr_succ {n : Nat} (hbusy : s.st = .busy) (htmr : s.tmr = n + 2) : inv { s with tmr := n + 1 } = true := by
  obtain ⟨hplan, hpos, herr, hwidth⟩ := (inv_iff_of_busy hbusy).mp hinv
  rw [inv_iff_of_busy (by simpa using hbusy)]
  refine ⟨hplan, ?_, herr, hwidth⟩
  cases hseq : s.seq with
  | nil => simp [positionLegal, hseq] at hpos
  | cons o rest =>
    cases o <;> simp_all [positionLegal]
    omega

/-- Inside a poll the restore attempt takes the list's place (R125); outside it the error is entered (R197). -/
theorem inv_failRequest {r : LineReq} {k : BitVec 4} {ops : List MicroOp} (hbusy : s.st = .busy)
    (hseq : s.seq = .req r k :: ops) : inv (failRequest r k s) = true := by
  obtain ⟨hplan, hpos, herr, hwidth⟩ := (inv_iff_of_busy hbusy).mp hinv
  rw [hseq] at hplan
  obtain ⟨hk, e', d', hreq, -⟩ := requestLegal_of_planLegal hplan
  unfold failRequest
  cases hr : r.restores with
  | true =>
    obtain ⟨hthree, hE⟩ := hreq.restores_three hr
    rw [if_pos rfl, inv_iff_of_busy (by simpa using hbusy)]
    simp_all [planLegal, BusWidth.busyReadback, positionLegal, errLegal, WidthLegal]
  | false =>
    obtain ⟨hw, hE, hD⟩ := hreq.applyErr_shadows hwidth hr
    exact inv_raiseError hE hD hw nofun fun _ => ⟨by simp, hk⟩

theorem inv_finishRestore {f : OpKind} {k : BitVec 4} {ops : List MicroOp} (isErr : Bool) (hbusy : s.st = .busy)
    (hseq : s.seq = .restore f k :: ops) : inv (finishRestore f k isErr s) = true := by
  obtain ⟨hplan, -, -, -⟩ := (inv_iff_of_busy hbusy).mp hinv
  simp only [hseq, planLegal, Bool.and_eq_true, Bool.not_eq_true', beq_eq_false_iff_ne, busyReadback_iff] at hplan
  obtain ⟨⟨⟨hthree, hE⟩, hk⟩, -⟩ := hplan
  exact inv_raiseError hE (by cases isErr <;> simp) (by simp [WidthLegal, hthree]) nofun fun _ => ⟨by simp, hk⟩

end

/-- Every cycle keeps the invariant and answers a next state; what the list can gain is a command's list or a restore. -/
theorem clock_keeps_inv (p : PortInput) {s : State} (hinv : inv s = true) :
    ∃ t, clock p s = .next t ∧ inv t = true ∧ t.cfg = s.cfg ∧ (seqExpanded s = true → seqExpanded t = true) := by
  have hcase := clock_cases p s
  generalize clock p s = o at hcase
  cases hcase with
  | reset => exact ⟨_, rfl, inv_resetBlock s, rfl, fun _ => rfl⟩
  | stay => exact ⟨_, rfl, hinv, rfl, id⟩
  | refused e hidle _ he => exact ⟨_, rfl, inv_refuse_latchCommand hinv _ hidle he, rfl, fun _ => rfl⟩
  | started i ops hidle _ _ hpass hops =>
    obtain ⟨t, ht, hinvt, hcfg⟩ := settle_inv ops _ (settleLegal_started hinv p.cmdData hidle hpass hops)
    have hx := seqExpanded_of_plainOp (s := { s with seq := ops }) (expansion_all_plainOp _ _ _ hops)
    exact ⟨t, ht, hinvt, by rw [hcfg]; cases i <;> rfl, fun _ => settle_keeps_expanded ht hx⟩
  | dropped i hidle =>
    have hkeep : inv { latchCommand p.cmdData s with skipped := true } = inv s := rfl
    exact ⟨_, rfl, hkeep.trans hinv, rfl, id⟩
  | presented r hbusy hreq =>
    exact ⟨_, rfl, inv_issue hinv hbusy hreq, issue_cfg r s, fun hx => by simpa [seqExpanded] using hx⟩
  | counted n hbusy _ htmr => exact ⟨_, rfl, inv_tmr_succ hinv hbusy htmr, rfl, id⟩
  | ended ops hbusy hpend hops =>
    obtain ⟨t, ht, hinvt, hcfg⟩ := settle_inv ops _ (settleLegal_ended hinv hbusy hpend hops)
    have hx (hx : seqExpanded s = true) := seqExpanded_of_subset (t := { s with seq := ops }) (subset_of_ended hops) hx
    exact ⟨t, ht, hinvt, hcfg, fun h => settle_keeps_expanded ht (hx h)⟩
  | answered r k ops hbusy _ _ hseq =>
    obtain ⟨t, ht, hinvt, hcfg⟩ := settle_inv ops _ (settleLegal_answered hinv hbusy hseq)
    have hsub : ops ⊆ s.seq := by rw [hseq]; exact List.subset_cons_self ..
    exact ⟨t, ht, hinvt, by simpa using hcfg, fun hx => settle_keeps_expanded ht (seqExpanded_of_subset hsub hx)⟩
  | released hbusy => exact ⟨_, rfl, inv_pending_none hinv hbusy, rfl, id⟩
  | failed r k ops hbusy _ _ hseq =>
    refine ⟨_, rfl, inv_failRequest hinv hbusy hseq, ?_, fun _ => ?_⟩ <;> unfold failRequest <;> split_ifs <;>
      simp [seqExpanded]
  | restored f k ops hbusy hseq => exact ⟨_, rfl, inv_finishRestore hinv p.respErr hbusy hseq, rfl, fun _ => rfl⟩

/-- Settles O52: a step is a cycle after the clock edge, which the invariant does not look at. -/
theorem everyStepKeepsTheInvariant : Obligations.EveryStepKeepsTheInvariant := fun s hinv =>
  clock_keeps_inv (portInput s) (s := nextCycle s) hinv

end Sys2Proof.Machine
end

section
/-! PROOFS. Which steps write which fields (10 R26 to R31): the mirrors, INIT_DONE, SKIPPED, the error fields, POLLS. -/

namespace Sys2Proof.Machine

/-! ### The fields of the operations a cycle ends in -/

section
variable (i : Instr) (r : LineReq) (k : BitVec 4) (f : OpKind) (b : Bool) (s : State)

@[simp] theorem beforeSeq_tmr : (beforeSeq i s).tmr = s.tmr := by cases i <;> rfl
@[simp] theorem beforeSeq_pending : (beforeSeq i s).pending = s.pending := by cases i <;> rfl
@[simp] theorem beforeSeq_mode : (beforeSeq i s).mode = s.mode := by cases i <;> rfl
@[simp] theorem beforeSeq_rsSh : (beforeSeq i s).rsSh = s.rsSh := by cases i <;> rfl
@[simp] theorem beforeSeq_skipped : (beforeSeq i s).skipped = s.skipped := by cases i <;> rfl
@[simp] theorem beforeSeq_polls : (beforeSeq i s).polls = s.polls := by cases i <;> rfl
@[simp] theorem beforeSeq_err : (beforeSeq i s).err = s.err := by cases i <;> rfl
@[simp] theorem beforeSeq_errOp : (beforeSeq i s).errOp = s.errOp := by cases i <;> rfl
@[simp] theorem beforeSeq_errLine : (beforeSeq i s).errLine = s.errLine := by cases i <;> rfl
@[simp] theorem beforeSeq_errNib : (beforeSeq i s).errNib = s.errNib := by cases i <;> rfl

@[simp] theorem failRequest_mode : (failRequest r k s).mode = (applyErr r s).mode := by unfold failRequest; split <;> rfl
@[simp] theorem failRequest_rsSh : (failRequest r k s).rsSh = (applyErr r s).rsSh := by unfold failRequest; split <;> rfl
@[simp] theorem failRequest_initDone : (failRequest r k s).initDone = s.initDone := by unfold failRequest; split <;> simp
@[simp] theorem failRequest_skipped : (failRequest r k s).skipped = s.skipped := by unfold failRequest; split <;> simp
@[simp] theorem failRequest_polls : (failRequest r k s).polls = s.polls := by unfold failRequest; split <;> simp

@[simp] theorem finishRestore_mode : (finishRestore f k b s).mode = s.mode := rfl
@[simp] theorem finishRestore_rsSh : (finishRestore f k b s).rsSh = s.rsSh := rfl
@[simp] theorem finishRestore_st : (finishRestore f k b s).st = .failed := rfl
@[simp] theorem finishRestore_initDone : (finishRestore f k b s).initDone = s.initDone := rfl
@[simp] theorem finishRestore_skipped : (finishRestore f k b s).skipped = s.skipped := rfl
@[simp] theorem finishRestore_polls : (finishRestore f k b s).polls = s.polls := rfl

end

/-! ### What a command's list does in its acceptance cycle -/

theorem byteOps_eq_cons (c : Config) (h l : Nibble) (y : Sync) (d : Micros) :
    ∃ r ops, byteOps c h l y d = .req r 0#4 :: ops := by
  obtain ⟨r, ops, hcons⟩ := tx_eq_cons c h (.fixed (cyclesOf c d)) 0#4 false
  exact ⟨r, _, by rw [byteOps, hcons, List.cons_append]⟩

/-- A command's list begins with a request, or, for INIT, with a wait and then a request. -/
theorem expansion_head {c : Config} {i : Instr} {ops : List MicroOp} (h : expansion c i = some ops) :
    (∃ r k rest, ops = .req r k :: rest) ∨ ∃ n r k rest, ops = .wait n :: .req r k :: rest := by
  cases i with
  | init => cases h; exact .inr ⟨_, _, _, _, by rw [initOps, List.append_assoc]; rfl⟩
  | selIr => cases h; exact .inl ⟨_, _, _, rfl⟩
  | selDr => cases h; exact .inl ⟨_, _, _, rfl⟩
  | strobe d => cases h; exact .inl ⟨_, _, _, rfl⟩
  | sendNibble y d n =>
    obtain ⟨r, rest, hcons⟩ := tx_eq_cons c n (lastSync c y d) 0#4 false
    exact .inl ⟨r, _, rest, (Option.some.inj h).symm.trans hcons⟩
  | sendByte y d x =>
    obtain ⟨r, rest, hcons⟩ := byteOps_eq_cons c (highNibble x) (lowNibble x) y d
    exact .inl ⟨r, _, rest, (Option.some.inj h).symm.trans hcons⟩
  | writeChar y d x =>
    simp only [expansion, Option.map_eq_some_iff] at h
    obtain ⟨p, -, rfl⟩ := h
    obtain ⟨r, rest, hcons⟩ := byteOps_eq_cons c p.1 p.2 y d
    exact .inl ⟨r, _, rest, hcons⟩
  | _ => simp [expansion] at h

/-- R236: the acceptance cycle ends at a request or in a wait, before any statement of the list. -/
theorem settle_expansion {c : Config} {i : Instr} {ops : List MicroOp} (h : expansion c i = some ops) (s : State) :
    ∃ q n, settle ops s = .next { s with seq := q, tmr := n } := by
  obtain ⟨r, k, rest, rfl⟩ | ⟨n, r, k, rest, rfl⟩ := expansion_head h
  · exact ⟨_, s.tmr, rfl⟩
  · cases n with
    | zero => exact ⟨_, s.tmr, rfl⟩
    | succ n => exact ⟨_, _, rfl⟩

/-! ### The error fields (R30) -/

/-- A cycle without `rst` that does not enter FAILED leaves the error fields. -/
theorem clock_keeps_err {p : PortInput} {s t : State} (hrst : p.rst = false) (ht : clock p s = .next t)
    (hst : t.st ≠ .failed ∨ s.st = .failed) :
    t.err = s.err ∧ t.errOp = s.errOp ∧ t.errLine = s.errLine ∧ t.errNib = s.errNib := by
  obtain ⟨o, ho, hcase⟩ := clockCase_of_next ht
  cases hcase with
  | reset h => simp [h] at hrst
  | stay => cases ho; simp
  | refused e hidle => cases ho; simp [hidle] at hst
  | started i ops _ _ _ _ hops =>
    obtain ⟨h1, h2, h3, h4, -⟩ := settle_frame _ _ _ ho
    simp [h1, h2, h3, h4]
  | dropped => cases ho; simp
  | presented | counted => cases ho; simp
  | ended =>
    obtain ⟨h1, h2, h3, h4, -⟩ := settle_frame _ _ _ ho
    exact ⟨h1, h2, h3, h4⟩
  | answered =>
    obtain ⟨h1, h2, h3, h4, -⟩ := settle_frame _ _ _ ho
    simp [h1, h2, h3, h4]
  | released => cases ho; simp
  | failed r k ops hbusy =>
    cases ho
    unfold failRequest at hst ⊢
    split_ifs at hst ⊢
    · simp
    · simp [hbusy] at hst
  | restored f k ops hbusy => cases ho; simp [hbusy] at hst

/-- Settles O58: a step is a cycle after the clock edge, and an error that is not entered leaves the fields. -/
theorem errorFieldsWrittenOnlyByErrorEntry : Obligations.ErrorFieldsWrittenOnlyByErrorEntry := by
  intro s t p ps hin hrst hstep hst
  rw [step_of_inputs hin] at hstep
  exact clock_keeps_err (s := nextCycle s) hrst hstep hst

/-! ### The mirrors (R26 to R28) -/

theorem modeMirrorsRs_congr {s t : State} (hmode : t.mode = s.mode) (hrs : t.rsSh = s.rsSh) :
    modeMirrorsRs t = modeMirrorsRs s := by
  simp [modeMirrorsRs, hmode, hrs]

theorem phaseFromInit_congr {s t : State} (hphase : t.phase = s.phase) (hinit : t.initDone = s.initDone) :
    phaseFromInit t = phaseFromInit s := by
  simp [phaseFromInit, hphase, hinit]

/-- Only an RS write's answer touches the two fields, and it writes both (R100, R101). -/
theorem modeMirrorsRs_applyOk {r : LineReq} {s : State} (h : modeMirrorsRs s = true) :
    modeMirrorsRs (applyOk r s) = true := by
  unfold applyOk
  split
  next => exact h
  next v => cases v <;> rfl
  all_goals exact h

theorem modeMirrorsRs_applyErr {r : LineReq} {s : State} (h : modeMirrorsRs s = true) :
    modeMirrorsRs (applyErr r s) = true := by
  unfold applyErr
  split
  next => exact h
  next => rfl
  all_goals exact h

/-- R26, R32. -/
theorem clock_keeps_modeMirrorsRs {p : PortInput} {s t : State} (ht : clock p s = .next t)
    (h : modeMirrorsRs s = true) : modeMirrorsRs t = true := by
  obtain ⟨o, ho, hcase⟩ := clockCase_of_next ht
  cases hcase with
  | reset => cases ho; rfl
  | stay | refused => cases ho; exact h
  | started i ops _ _ _ _ hops =>
    obtain ⟨-, -, -, -, hmode, -, hrs, -⟩ := settle_frame _ _ _ ho
    rw [modeMirrorsRs_congr (s := s) (by simp [hmode]) (by simp [hrs]), h]
  | dropped => cases ho; exact h
  | presented => cases ho; rw [modeMirrorsRs_congr (s := s) (by simp) (by simp), h]
  | counted => cases ho; exact h
  | ended =>
    obtain ⟨-, -, -, -, hmode, -, hrs, -⟩ := settle_frame _ _ _ ho
    rw [modeMirrorsRs_congr hmode hrs]
    exact h
  | answered r k ops =>
    obtain ⟨-, -, -, -, hmode, -, hrs, -⟩ := settle_frame _ _ _ ho
    rw [modeMirrorsRs_congr hmode hrs]
    exact modeMirrorsRs_applyOk (s := { s with pending := none }) h
  | released => cases ho; exact h
  | failed r k ops =>
    cases ho
    rw [modeMirrorsRs_congr (s := applyErr r s) (by simp) (by simp)]
    exact modeMirrorsRs_applyErr h
  | restored => cases ho; exact h

/-- Error entry forgets the phase, or leaves it and the flag as they are. -/
theorem phaseFromInit_raiseError {c : ErrCode} {o : OpKind} {l : Option LineId} {k : BitVec 4} {s : State}
    (h : phaseFromInit s = true) : phaseFromInit (raiseError c o l k s) = true := by
  by_cases hio : c = .ioError
  · simp [phaseFromInit, hio]
  · rwa [phaseFromInit_congr (s := s) (by simp [hio]) (by simp)]

theorem phaseFromInit_beforeSeq {i : Instr} {s : State} (h : phaseFromInit s = true) :
    phaseFromInit (beforeSeq i s) = true := by
  cases i with
  | init => rfl
  | _ => exact h

/-- R27, R28. -/
theorem clock_keeps_phaseFromInit {p : PortInput} {s t : State} (ht : clock p s = .next t)
    (h : phaseFromInit s = true) : phaseFromInit t = true := by
  obtain ⟨o, ho, hcase⟩ := clockCase_of_next ht
  cases hcase with
  | reset => cases ho; rfl
  | stay => cases ho; exact h
  | refused => cases ho; exact phaseFromInit_raiseError h
  | started i ops _ _ _ _ hops =>
    obtain ⟨-, -, -, -, -, -, -, -, -, hkeep⟩ := settle_frame _ _ _ ho
    exact hkeep (phaseFromInit_beforeSeq (s := latchCommand p.cmdData s) h)
  | dropped => cases ho; exact h
  | presented => cases ho; rwa [phaseFromInit_congr (s := s) (by simp) (by simp)]
  | counted => cases ho; exact h
  | ended =>
    obtain ⟨-, -, -, -, -, -, -, -, -, hkeep⟩ := settle_frame _ _ _ ho
    exact hkeep h
  | answered r k ops =>
    obtain ⟨-, -, -, -, -, -, -, -, -, hkeep⟩ := settle_frame _ _ _ ho
    exact hkeep (by rwa [phaseFromInit_congr (s := s) (by simp) (by simp)])
  | released => cases ho; exact h
  | failed r k ops =>
    cases ho
    have herr : phaseFromInit (applyErr r s) = true := by rwa [phaseFromInit_congr (s := s) (by simp) (by simp)]
    unfold failRequest
    split_ifs
    · exact herr
    · exact phaseFromInit_raiseError herr
  | restored => cases ho; exact phaseFromInit_raiseError h

/-- Settles O53: the mode and RS_SH are written together, by the answer to an RS write; a phase becomes known with
INIT_DONE. -/
theorem everyStepKeepsTheMirrors : Obligations.EveryStepKeepsTheMirrors := fun s _ hstep =>
  ⟨clock_keeps_modeMirrorsRs (s := nextCycle s) hstep, clock_keeps_phaseFromInit (s := nextCycle s) hstep⟩

/-! ### The mode mirror (R26) -/

theorem setRs_of_applyOk_mode {r : LineReq} {s : State} (h : (applyOk r s).mode ≠ s.mode) : ∃ v, r = .set .rs v := by
  unfold applyOk at h
  split at h
  next => exact absurd rfl h
  next v => exact ⟨v, rfl⟩
  all_goals exact absurd rfl h

theorem setRs_of_applyErr_mode {r : LineReq} {s : State} (h : (applyErr r s).mode ≠ s.mode) : ∃ v, r = .set .rs v := by
  unfold applyErr at h
  split at h
  next => exact absurd rfl h
  next v => exact ⟨v, rfl⟩
  all_goals exact absurd rfl h

theorem clock_mode {p : PortInput} {s t : State} (ht : clock p s = .next t) (hmode : t.mode ≠ s.mode) :
    p.rst = true ∨ (p.respValid = true ∧ s.pending ≠ none ∧ ∃ v k ops, s.seq = .req (.set .rs v) k :: ops) := by
  obtain ⟨o, ho, hcase⟩ := clockCase_of_next ht
  cases hcase with
  | reset hrst => exact .inl hrst
  | started =>
    obtain ⟨-, -, -, -, hkeep, -⟩ := settle_frame _ _ _ ho
    simp [hkeep] at hmode
  | ended =>
    obtain ⟨-, -, -, -, hkeep, -⟩ := settle_frame _ _ _ ho
    exact absurd hkeep hmode
  | answered r k ops _ hpend hvalid hseq =>
    obtain ⟨-, -, -, -, hkeep, -⟩ := settle_frame _ _ _ ho
    rw [hkeep] at hmode
    obtain ⟨v, rfl⟩ := setRs_of_applyOk_mode (s := { s with pending := none }) hmode
    exact .inr ⟨hvalid, hpend, v, k, ops, hseq⟩
  | failed r k ops _ hpend hvalid hseq =>
    cases ho
    obtain ⟨v, rfl⟩ := setRs_of_applyErr_mode (by simpa using hmode)
    exact .inr ⟨hvalid, hpend, v, k, ops, hseq⟩
  | _ => cases ho; simp at hmode

/-- Settles O55: of all that ends in a cycle only an answer writes the mode, and only that to an RS write. -/
theorem modeChangesOnlyAtAnRsWrite : Obligations.ModeChangesOnlyAtAnRsWrite := by
  intro s t p ps hin hstep hmode
  rw [step_of_inputs hin] at hstep
  exact clock_mode (s := nextCycle s) hstep hmode

/-! ### INIT_DONE (R28) -/

/-- The script's closing statement ends the list (R151). -/
theorem settle_sets_initDone {bw : BusWidth} {e d : Bool} {ops : List MicroOp} {s t : State}
    (hplan : planLegal bw e d ops = true) (hs : settle ops s = .next t) (hoff : s.initDone = false)
    (hon : t.initDone = true) : t.st = .idle ∧ t.seq = [] ∧ t.phase = .even := by
  induction ops generalizing s with
  | nil => cases hs; simp [hoff] at hon
  | cons o ops ih =>
    cases o with
    | req r k => cases hs; simp [hoff] at hon
    | restore f k => cases hs; simp [hoff] at hon
    | note b =>
      cases b with
      | togglePhase => exact ih (planLegal_note hplan) hs hoff
      | clearPolls => exact ih (planLegal_note hplan) hs hoff
      | initDone =>
        simp only [planLegal, Bool.and_eq_true, List.isEmpty_iff] at hplan
        obtain ⟨-, rfl⟩ := hplan
        cases hs
        exact ⟨rfl, rfl, rfl⟩
    | wait n =>
      cases n with
      | zero =>
        simp only [planLegal, Bool.and_eq_true] at hplan
        exact ih hplan.2 hs hoff
      | succ n => cases hs; simp [hoff] at hon
    | rom r =>
      simp only [planLegal, Bool.and_eq_true] at hplan
      cases hdec : decodeLcd r.word with
      | error x => simp [settle, runRow, hdec] at hs
      | ok i => rw [settle_rom hdec] at hs; cases hs; simp [hoff] at hon

theorem clock_sets_initDone {p : PortInput} {s t : State} (ht : clock p s = .next t) (hon : t.initDone = true)
    (hoff : s.initDone = false) :
    s.st = .busy ∧ .note .initDone ∈ s.seq ∧ (inv s = true → t.st = .idle ∧ t.seq = [] ∧ t.phase = .even) := by
  obtain ⟨o, ho, hcase⟩ := clockCase_of_next ht
  cases hcase with
  | started i ops _ _ _ _ hops =>
    obtain ⟨q, n, hq⟩ := settle_expansion hops (startSeq ops (beforeSeq i (latchCommand p.cmdData s)))
    rw [hq] at ho
    cases ho
    cases i <;> simp_all [beforeSeq]
  | ended ops hbusy hpend hops =>
    obtain ⟨-, -, -, -, -, -, -, -, hinit, -⟩ := settle_frame _ _ _ ho
    simp only [hon, hoff, reduceCtorEq, false_or, true_and] at hinit
    refine ⟨hbusy, subset_of_ended hops hinit, fun hinv => ?_⟩
    obtain ⟨-, -, -, -, -, hplan⟩ := settleLegal_ended hinv hbusy hpend hops
    exact settle_sets_initDone hplan ho hoff hon
  | answered r k ops hbusy _ _ hseq =>
    obtain ⟨-, -, -, -, -, -, -, -, hinit, -⟩ := settle_frame _ _ _ ho
    simp only [applyOk_initDone, hon, hoff, reduceCtorEq, false_or, true_and] at hinit
    refine ⟨hbusy, by simp [hseq, hinit], fun hinv => ?_⟩
    obtain ⟨-, -, -, -, -, hplan⟩ := settleLegal_answered hinv hbusy hseq
    exact settle_sets_initDone hplan ho (by simpa using hoff) hon
  | _ => cases ho; simp [hoff] at hon

theorem clock_clears_initDone {p : PortInput} {s t : State} (ht : clock p s = .next t) (hoff : t.initDone = false)
    (hon : s.initDone = true) :
    p.rst = true ∨ (s.st = .idle ∧ p.cmdValid = true ∧ decodeCmd s.cfg.busWidth p.cmdData = .ok .init) := by
  obtain ⟨o, ho, hcase⟩ := clockCase_of_next ht
  cases hcase with
  | reset hrst => exact .inl hrst
  | started i ops hidle hvalid hdec _ hops =>
    obtain ⟨-, -, -, -, -, -, -, -, hinit, -⟩ := settle_frame _ _ _ ho
    cases i <;> simp_all [beforeSeq]
  | ended ops =>
    obtain ⟨-, -, -, -, -, -, -, -, hinit, -⟩ := settle_frame _ _ _ ho
    simp [hon, hoff] at hinit
  | answered r k ops =>
    obtain ⟨-, -, -, -, -, -, -, -, hinit, -⟩ := settle_frame _ _ _ ho
    simp [hon, hoff] at hinit
  | _ => cases ho; simp [hon] at hoff

/-- Settles O56: the closing statement sets the flag and ends the list; the start of INIT clears it. -/
theorem initDoneWrittenOnlyByInit : Obligations.InitDoneWrittenOnlyByInit := by
  intro s t p ps hin hstep
  rw [step_of_inputs hin] at hstep
  exact ⟨clock_sets_initDone (s := nextCycle s) hstep, clock_clears_initDone (s := nextCycle s) hstep⟩

/-! ### POLLS (R31) -/

/-- A list that clears POLLS goes on with the poll's first request (R125). -/
theorem settle_clears_polls {bw : BusWidth} {e d : Bool} {ops : List MicroOp} {s t : State}
    (hplan : planLegal bw e d ops = true) (hbusy : s.st = .busy) (hpend : s.pending = none) (htmr : s.tmr = 0)
    (hs : settle ops s = .next t) (hpolls : t.polls ≠ s.polls) : lineRequest t = some (.dirIn .d7) := by
  induction ops generalizing s with
  | nil => cases hs; simp at hpolls
  | cons o ops ih =>
    cases o with
    | req r k => cases hs; simp at hpolls
    | restore f k => cases hs; simp at hpolls
    | note b =>
      cases b with
      | togglePhase => exact ih (s := applyNote .togglePhase s) (planLegal_note hplan) hbusy hpend htmr hs hpolls
      | initDone => exact ih (s := applyNote .initDone s) (planLegal_note hplan) hbusy hpend htmr hs hpolls
      | clearPolls =>
        simp only [planLegal, Bool.and_eq_true] at hplan
        obtain ⟨⟨-, hstarts⟩, -⟩ := hplan
        unfold startsPoll at hstarts
        split at hstarts
        · cases hs
          simp [lineRequest, applyNote, hbusy, hpend, htmr, MicroOp.request]
        · simp at hstarts
    | wait n =>
      cases n with
      | zero =>
        simp only [planLegal, Bool.and_eq_true] at hplan
        exact ih hplan.2 hbusy hpend htmr hs hpolls
      | succ n => cases hs; simp at hpolls
    | rom r =>
      cases hdec : decodeLcd r.word with
      | error x => simp [settle, runRow, hdec] at hs
      | ok i => rw [settle_rom hdec] at hs; cases hs; simp at hpolls

/-- Only a GET counts, and it counts one read (R14, R31). -/
theorem get_of_issue_polls {r : LineReq} {s : State} (h : (issue r s).polls ≠ s.polls) :
    ∃ l, r = .get l ∧ (issue r s).polls = if s.polls = BitVec.allOnes 32 then s.polls else s.polls + 1#32 := by
  cases r with
  | get l => exact ⟨l, rfl, rfl⟩
  | _ => exact absurd rfl h

theorem clock_polls {p : PortInput} {s t : State} (hrst : p.rst = false) (ht : clock p s = .next t)
    (hpolls : t.polls ≠ s.polls) :
    (∃ l, lineRequest s = some (.get l) ∧
      t.polls = (if s.polls = BitVec.allOnes 32 then s.polls else s.polls + 1#32)) ∨
    (t.polls = 0#32 ∧ s.st = .busy ∧ .note .clearPolls ∈ s.seq ∧
      (inv s = true → lineRequest t = some (.dirIn .d7))) := by
  obtain ⟨o, ho, hcase⟩ := clockCase_of_next ht
  cases hcase with
  | reset h => simp [h] at hrst
  | started i ops _ _ _ _ hops =>
    obtain ⟨q, n, hq⟩ := settle_expansion hops (startSeq ops (beforeSeq i (latchCommand p.cmdData s)))
    rw [hq] at ho
    cases ho
    simp at hpolls
  | presented r _ hreq =>
    cases ho
    obtain ⟨l, rfl, hcount⟩ := get_of_issue_polls hpolls
    exact .inl ⟨l, hreq, hcount⟩
  | ended ops hbusy hpend hops =>
    obtain ⟨-, -, -, -, -, -, -, hkeep, -⟩ := settle_frame _ _ _ ho
    obtain ⟨hzero, hmem⟩ := hkeep.resolve_left hpolls
    refine .inr ⟨hzero, hbusy, subset_of_ended hops hmem, fun hinv => ?_⟩
    obtain ⟨hb, hp, ht, -, -, hplan⟩ := settleLegal_ended hinv hbusy hpend hops
    exact settle_clears_polls hplan hb hp ht ho hpolls
  | answered r k ops hbusy _ _ hseq =>
    obtain ⟨-, -, -, -, -, -, -, hkeep, -⟩ := settle_frame _ _ _ ho
    obtain ⟨hzero, hmem⟩ := hkeep.resolve_left (by simpa using hpolls)
    refine .inr ⟨hzero, hbusy, by simp [hseq, hmem], fun hinv => ?_⟩
    obtain ⟨hb, hp, ht, -, -, hplan⟩ := settleLegal_answered hinv hbusy hseq
    exact settle_clears_polls hplan hb hp ht ho (by simpa using hpolls)
  | _ => cases ho; simp at hpolls

/-- Settles O59: POLLS is written where a request is presented and where a list that is settled clears it. -/
theorem pollsCountsIssuedReads : Obligations.PollsCountsIssuedReads := by
  intro s t p ps hin hrst hstep hpolls
  rw [step_of_inputs hin] at hstep
  exact clock_polls (s := nextCycle s) hrst hstep hpolls

/-! ### SKIPPED (R29) -/

theorem encodeChar_eq_none_iff (ch : Byte) : encodeChar ch = none ↔ 0x7F < ch.toNat := by
  simp [encodeChar, BitVec.ule]

/-- Only SKIP and FAIL leave a code without nibbles: `SUB_CHAR` is a 7-bit code (R9, R173 to R175). -/
theorem charNibbles_eq_none_iff (c : Config) (ch : Byte) :
    charNibbles c ch = none ↔ 0x7F < ch.toNat ∧ c.policy ≠ .substitute := by
  have hsub : encodeChar (c.subChar.setWidth 8) ≠ none := by
    have := c.subChar.isLt
    rw [Ne, encodeChar_eq_none_iff, BitVec.toNat_setWidth]
    omega
  rw [← encodeChar_eq_none_iff]
  unfold charNibbles
  cases encodeChar ch with
  | some x => simp
  | none => cases c.policy <;> simp [hsub]

theorem wellFormed_of_decodeCmd {bw : BusWidth} {w : CmdWord} {i : Instr} (h : decodeCmd bw w = .ok i) :
    i.wellFormed bw = true := by
  simp only [decodeCmd] at h
  split_ifs at h <;> cases h <;> simp_all [Instr.wellFormed]

/-- A decoded command that passes its checks and starts no list is a WRITE_CHAR whose code the SKIP policy drops. -/
theorem dropped_iff {s : State} {w : CmdWord} {i : Instr} (hdec : decodeCmd s.cfg.busWidth w = .ok i) :
    acceptError i s = none ∧ expansion s.cfg i = none ↔
      ∃ sync dly c, i = .writeChar sync dly c ∧ s.mode = .data ∧ s.phase ≠ .odd ∧ 0x7F < c.toNat ∧
        s.cfg.policy = .skip := by
  have hwf := wellFormed_of_decodeCmd hdec
  have hlcd := lcdValue_of_decodeCmd hdec
  rw [acceptError_eq_none_iff]
  cases i with
  | writeChar y d c =>
    simp only [hwf, modeCheckFails, phaseCheckFails, unsupportedInput, expansion, Option.map_eq_none_iff,
      charNibbles_eq_none_iff]
    cases hp : s.cfg.policy <;> simp [BitVec.ule]
    tauto
  | _ => simp_all [expansion, lcdValue]

theorem clock_accepts_skipped {p : PortInput} {s t : State} (hrst : p.rst = false) (ht : clock p s = .next t)
    (hidle : s.st = .idle) (hvalid : p.cmdValid = true) :
    t.skipped = true ↔ ∃ sync dly c, decodeCmd s.cfg.busWidth p.cmdData = .ok (.writeChar sync dly c) ∧
      s.mode = .data ∧ s.phase ≠ .odd ∧ 0x7F < c.toNat ∧ s.cfg.policy = .skip := by
  obtain ⟨o, ho, hcase⟩ := clockCase_of_next ht
  have hpassed {i : Instr} (hdec : decodeCmd s.cfg.busWidth p.cmdData = .ok i) :
      (acceptError i s = none ∧ expansion s.cfg i = none) ↔ ∃ sync dly c,
        decodeCmd s.cfg.busWidth p.cmdData = .ok (.writeChar sync dly c) ∧
        s.mode = .data ∧ s.phase ≠ .odd ∧ 0x7F < c.toNat ∧ s.cfg.policy = .skip := by
    simp [dropped_iff hdec, hdec]
  cases hcase with
  | reset h => simp [h] at hrst
  | stay _ hquiet => simp [hquiet hidle] at hvalid
  | refused e _ _ _ hcheck =>
    cases ho
    simp only [refuse_skipped, latchCommand_skipped, Bool.false_eq_true, false_iff]
    rintro ⟨sync, dly, c, hdec, hdrop⟩
    obtain ⟨hpass, -⟩ := (hpassed hdec).mpr ⟨sync, dly, c, hdec, hdrop⟩
    simp [hcheck _ hdec] at hpass
  | started i ops _ _ hdec _ hops =>
    obtain ⟨-, -, -, -, -, hskip, -⟩ := settle_frame _ _ _ ho
    simp [← hpassed hdec, hops, hskip]
  | dropped i _ _ hdec hpass hops =>
    cases ho
    simp [← hpassed hdec, hpass, hops]
  | presented _ hbusy | counted _ hbusy | ended _ hbusy | answered _ _ _ hbusy | released hbusy | failed _ _ _ hbusy
  | restored _ _ _ hbusy => simp [hbusy] at hidle

theorem clock_keeps_skipped {p : PortInput} {s t : State} (hrst : p.rst = false) (ht : clock p s = .next t)
    (hquiet : s.st ≠ .idle ∨ p.cmdValid = false) : t.skipped = s.skipped := by
  obtain ⟨o, ho, hcase⟩ := clockCase_of_next ht
  cases hcase with
  | reset h => simp [h] at hrst
  | refused _ hidle hvalid => simp [hidle, hvalid] at hquiet
  | started _ _ hidle hvalid => simp [hidle, hvalid] at hquiet
  | dropped _ hidle hvalid => simp [hidle, hvalid] at hquiet
  | ended =>
    obtain ⟨-, -, -, -, -, hskip, -⟩ := settle_frame _ _ _ ho
    exact hskip
  | answered =>
    obtain ⟨-, -, -, -, -, hskip, -⟩ := settle_frame _ _ _ ho
    simpa using hskip
  | _ => cases ho; simp

/-- Settles O57: acceptance clears the flag, and only the dropped character sets it again. -/
theorem skippedSaysTheLastCommandWasDropped : Obligations.SkippedSaysTheLastCommandWasDropped := by
  intro s t p ps hin hrst hstep
  rw [step_of_inputs hin] at hstep
  exact ⟨clock_accepts_skipped (s := nextCycle s) hrst hstep, clock_keeps_skipped (s := nextCycle s) hrst hstep⟩

end Sys2Proof.Machine
end

section
/-! PROOFS. The status word and reset (10 R33, R36, R37), the cycle that accepts a command (10 R21, 60 R196), and the run
of its list to the end (10 R23, 70 R236). -/

namespace Sys2Proof.Machine

/-! ### The outputs -/

section
variable (s : State)

/-- The status word with its width written as the sum of its fields' widths. -/
theorem status_extractLsb' (start len : Nat) :
    (status s).extractLsb' start len =
      (0#6 ++ (s.d7dir.code ++ (s.rsSh.code ++ (s.eSh.code ++ (s.errNib ++ (errLineCode s.errLine ++ (s.errOp.code ++
        (BitVec.ofBool s.skipped ++ (BitVec.ofBool s.initDone ++ (s.phase.code ++ (s.mode.code ++
          (s.err.code ++ s.st.code)))))))))))).extractLsb' start len := rfl

/-- R33: what stands at each bit position; below a field stand the fields that the list puts after it. -/
theorem status_fields :
    (status s).extractLsb' 0 2 = s.st.code ∧ (status s).extractLsb' 2 3 = s.err.code ∧
    (status s).extractLsb' 5 2 = s.mode.code ∧ (status s).extractLsb' 7 2 = s.phase.code ∧
    (status s).extractLsb' 9 1 = BitVec.ofBool s.initDone ∧ (status s).extractLsb' 10 1 = BitVec.ofBool s.skipped ∧
    (status s).extractLsb' 11 2 = s.errOp.code ∧ (status s).extractLsb' 13 3 = errLineCode s.errLine ∧
    (status s).extractLsb' 16 4 = s.errNib ∧ (status s).extractLsb' 20 2 = s.eSh.code ∧
    (status s).extractLsb' 22 2 = s.rsSh.code ∧ (status s).extractLsb' 24 2 = s.d7dir.code ∧
    (status s).extractLsb' 26 6 = 0#6 := by
  simp (disch := decide) only [status_extractLsb', BitVec.extractLsb'_append_eq_of_add_le, BitVec.extractLsb'_eq_self,
    -Nat.reduceAdd]
  have top {w v : Nat} (x : BitVec w) (y : BitVec v) : (x ++ y).extractLsb' v w = x := BitVec.extractLsb'_append_eq_left
  exact ⟨trivial, top .., top .., top .., top .., top .., top .., top .., top .., top .., top .., top .., top ..⟩

end

theorem errLineCode_eq (l : Option LineId) :
    errLineCode l = (match l with
      | some .e => 0#3 | some .rs => 1#3 | some .d4 => 2#3 | some .d5 => 3#3 | some .d6 => 4#3 | some .d7 => 5#3
      | some .bus => 6#3 | none => 7#3) := by
  cases l with
  | none => rfl
  | some l => cases l <;> rfl

/-- Settles O8: each field holds its code, and the codes are the listed ones by definition. -/
theorem statusWordFields : Obligations.StatusWordFields := by
  intro s
  obtain ⟨hst, herr, hmode, hphase, hinit, hskip, hop, hline, hrest⟩ := status_fields s
  exact ⟨hst, herr, hmode, hphase, hinit, hskip, hop, hline.trans (errLineCode_eq s.errLine), hrest⟩

/-- The parameters do not show in the status word. -/
theorem status_resetWith (c : Config) : status (State.resetWith c) = status State.reset := rfl

/-- Settles O10: one word for every parameter, which `decide` computes. -/
theorem statusWordAfterReset : Obligations.StatusWordAfterReset := fun c =>
  ⟨(status_resetWith c).trans (by decide), rfl, rfl, rfl⟩

/-- Settles O51: the state after reset is what a cycle with `rst = 1` leaves, for every parameter. -/
theorem invariantHoldsAfterReset : Obligations.InvariantHoldsAfterReset := by
  have hreset (c : Config) : inv (State.resetWith c) = true := inv_resetBlock (State.resetWith c)
  exact ⟨fun c => ⟨hreset c, rfl, rfl, rfl⟩, hreset _⟩

/-! ### Acceptance -/

/-- Settles O31: acceptance with the decoded instruction put in. -/
theorem stepRunsTheDecodedCommand : Obligations.StepRunsTheDecodedCommand := by
  intro s p ps i hidle hrst hvalid hdec
  rw [step_of_inputs rfl, clock_accept (s := nextCycle { s with inputs := p :: ps }) hrst hidle hvalid]
  simp only [accept, nextCycle_cfg, hdec]
  rfl

/-- Settles O33: a BUSY cycle reads the answer port only, and a FAILED one no port. -/
theorem commandPortIgnoredWhileNotReady : Obligations.CommandPortIgnoredWhileNotReady := by
  intro s p q ps hready hrst hvalid herr hval
  have hidle : s.st ≠ .idle := by simpa [cmdReady] using hready
  rw [step_of_inputs rfl, step_of_inputs rfl]
  have hbusy : busyCycle p = busyCycle q := by
    funext u
    simp only [busyCycle, answer, hvalid, herr, hval]
  simp only [clock, hrst, hbusy]
  cases hst : s.st with
  | idle => exact absurd hst hidle
  | busy => rfl
  | failed => rfl

/-- INIT passes its checks in every state (R193 to R196). -/
theorem acceptError_init (s : State) : acceptError .init s = none := by
  simp [acceptError_eq_none_iff, Instr.wellFormed, modeCheckFails, phaseCheckFails, unsupportedInput]

theorem exec_init (s : State) :
    exec .init s = .next (startSeq (initOps s.cfg) { s with initDone := false, phase := .unknown }) := by
  rw [exec_eq]
  simp [lcdValue, acceptError_init, expansion, beforeSeq]

theorem execThenSettle_init (s : State) :
    execThenSettle .init s =
      settle (initOps s.cfg) (startSeq (initOps s.cfg) { s with initDone := false, phase := .unknown }) := by
  simp [execThenSettle, exec_init]

/-- The 9 values of the ROM are the 14 nibbles of R150's table. -/
theorem initRom_flatMap_rowOps (c : Config) :
    initRom.flatMap (rowOps c) =
      romTable.zipIdx.flatMap fun x => tx c x.1.1 (.fixed (cyclesOf c x.1.2)) (BitVec.ofNat 4 x.2) true := by
  simp [initRom, rowOps, scriptOps, lcdNibbles, romTable, highNibble, lowNibble]

/-- Settles O27: INIT passes its checks, and its list is R150's table. -/
theorem initStartsTheScript : Obligations.InitStartsTheScript := by
  intro s
  rw [exec_init, initOps, initRom_flatMap_rowOps]
  rfl

/-! ### The script's values -/

theorem initRom_listed : ∀ r ∈ initRom, ∃ i, decodeLcd r.word = .ok i := by
  simp [initRom, decodeLcd]

/-- The acceptance cycle of INIT stops in the power-on wait, or, where that takes no cycle, at the RS write. -/
theorem settle_initOps (c : Config) {s : State} (htmr : s.tmr = 0) :
    settle (initOps c) s = .next { s with
      tmr := cyclesOf c c.powerOnUs
      seq := (if cyclesOf c c.powerOnUs = 0 then [] else [.wait (cyclesOf c c.powerOnUs)]) ++
        .req (.set .rs false) 15#4 :: (initRom.flatMap (rowOps c) ++ [.note .initDone]) } := by
  rw [initOps, List.append_assoc]
  cases s
  cases htmr
  cases cyclesOf c c.powerOnUs with
  | zero => rfl
  | succ n => rfl

/-- R23, R151: the list INIT's acceptance loads is what executing the ROM's values leaves. -/
theorem step_init {s : State} {p : PortInput} {ps : List PortInput} (hinv : inv s = true) (hrst : p.rst = false)
    (hidle : s.st = .idle) (hvalid : p.cmdValid = true) (hdec : decodeCmd s.cfg.busWidth p.cmdData = .ok .init) :
    ∃ u t, execRows initRom { s with seq := [.note .initDone] } = .next u ∧
      step { s with inputs := p :: ps } = .next t ∧ t.st = .busy ∧ t.tmr = cyclesOf s.cfg s.cfg.powerOnUs ∧
      t.seq = (if t.tmr = 0 then [] else [.wait t.tmr]) ++ .req (.set .rs false) 15#4 :: u.seq := by
  obtain ⟨-, ⟨-, htmr, -⟩, -⟩ := (inv_iff_of_not_busy (by simp [hidle])).mp hinv
  obtain ⟨u, hu, hseq, -⟩ := execRows_listed initRom_listed { s with seq := [.note .initDone] }
  have hstep := stepRunsTheDecodedCommand s p ps .init hidle hrst hvalid hdec
  rw [execThenSettle_init, settle_initOps _ (by exact htmr)] at hstep
  exact ⟨u, _, hu, hstep, rfl, rfl, by rw [hseq]⟩

/-- A value that comes to the head of the list is executed with its index and wait in hand. -/
theorem settle_rom_eq_exec {row : RomRow} {i : Instr} (hdec : decodeLcd row.word = .ok i) (ops : List MicroOp)
    (s : State) :
    settle (.rom row :: ops) s = exec i { s with seq := ops, row := ⟨row.nib, row.waitUs⟩ } := by
  simp only [settle, runRow, hdec]
  rfl

theorem busy_of_inv_of_seq {s : State} (hinv : inv s = true) (hseq : s.seq ≠ []) : s.st = .busy := by
  by_contra hst
  obtain ⟨-, ⟨hnil, -⟩, -⟩ := (inv_iff_of_not_busy hst).mp hinv
  exact hseq hnil

/-- Settles O32: a legal state with a list is BUSY, so its request's answer or its wait's end settles the value. -/
theorem stepRunsTheScriptRow : Obligations.StepRunsTheScriptRow := by
  intro s p ps hinv hrst
  refine ⟨step_init hinv hrst, fun row ops i hdec => ⟨?_, ?_⟩⟩
  · intro r k hpend hseq hvalid herr hval
    have hbusy : s.st = .busy := busy_of_inv_of_seq hinv (by simp [hseq])
    have hagain : pollsAgain r p.respVal = false := by cases r <;> simp [pollsAgain, hval]
    obtain ⟨hstep, -⟩ := step_answer (s := { s with inputs := p :: ps }) hbusy hpend hseq rfl hrst hvalid herr hagain
    rw [hstep, settle_rom_eq_exec hdec]
    congr 1
    unfold applyOk
    split <;> rfl
  · intro m htmr hseq
    have hbusy : s.st = .busy := busy_of_inv_of_seq hinv (by simp [hseq])
    obtain ⟨-, hpos, -⟩ := (inv_iff_of_busy hbusy).mp hinv
    have hpend : s.pending = none := by
      simp only [positionLegal, hseq, Bool.and_eq_true, beq_iff_eq] at hpos
      exact hpos.2
    rw [step_of_inputs rfl, clock_busy (s := nextCycle { s with inputs := p :: ps }) hrst hbusy]
    simp only [busyCycle, nextCycle_pending, hpend, nextCycle_tmr, htmr, nextCycle_seq, hseq, dropWait]
    exact settle_rom_eq_exec hdec _ _

/-! ### Whole commands -/

theorem lineRequest_of_idle {s : State} (hidle : s.st = .idle) : lineRequest s = none := by
  simp [lineRequest, hidle]

/-- The acceptance cycle at the head of a run: IDLE, and nothing presented (R236). -/
theorem RunsTo.cons_idle {k : Nat} {s u t : State} {log : List (SeqState × Option LineReq)} (hidle : s.st = .idle)
    (hstep : step s = .next u) (hk : RunsTo k u t log) : RunsTo (k + 1) s t ((.idle, none) :: log) := by
  have hcons := RunsTo.cons hstep hk
  rwa [lineRequest_of_idle hidle, hidle] at hcons

/-- A host command that was not refused has started its list or had its character dropped. -/
theorem exec_started_or_dropped {i : Instr} {s t : State} (hlcd : lcdValue i = none) (hexec : exec i s = .next t)
    (halive : t.st ≠ .failed) :
    (∃ ops, expansion s.cfg i = some ops ∧ t = startSeq ops (beforeSeq i s)) ∨ t = { s with skipped := true } := by
  rw [exec_eq, hlcd] at hexec
  cases herr : acceptError i s with
  | some e =>
    simp only [herr, Host.Outcome.next.injEq] at hexec
    exact absurd (by rw [← hexec]; rfl) halive
  | none =>
    cases hops : expansion s.cfg i with
    | some ops => exact .inl ⟨ops, rfl, by simpa [herr, hops, eq_comm] using hexec⟩
    | none => exact .inr (by simpa [herr, hops, eq_comm] using hexec)

/-- A list that was just loaded runs to its end, whatever the inputs and the cycle count were when it was loaded. -/
theorem runsTo_startSeq {s : State} {ops : List MicroOp} (busy late : List Nat) (rest : List PortInput) (c : Nat)
    (hplain : ops.all plainOp = true) (hpend : s.pending = none) (htmr : s.tmr = 0) :
    ∃ u, settle ops { startSeq ops s with inputs := okInputs busy ops late ++ rest, cycle := c } = .next u ∧
      RunsTo (okInputs busy ops late).length u
        { okEffect busy.length ops (startSeq ops s) with
          st := .idle, seq := [], inputs := rest, cycle := c + (okInputs busy ops late).length }
        (okSchedule busy ops late) := by
  have hrun (u : State) := run_settle busy rest ops late
    { startSeq ops s with inputs := okInputs busy ops late ++ rest, cycle := c } u hplain rfl hpend htmr rfl
  obtain ⟨u, hu⟩ := settle_next ops { startSeq ops s with inputs := okInputs busy ops late ++ rest, cycle := c } hplain
  have heffect := okEffect_at busy.length ops (startSeq ops s) ops .busy (okInputs busy ops late ++ rest) c
  refine ⟨u, hu, ?_⟩
  -- loading the list and placing the inputs commute with the list's effect
  convert hrun u hu using 1
  exact heffect ▸ rfl

/-- The acceptance cycle, then the list it loaded, or nothing where the character was dropped. -/
theorem runsTo_command {s t : State} {w : CmdWord} {i : Instr} (busy late : List Nat) (rest : List PortInput)
    (hidle : s.st = .idle) (hrest : restLegal s = true) (hdec : decodeCmd s.cfg.busWidth w = .ok i)
    (hexec : exec i (latchCommand w s) = .next t) (halive : t.st ≠ .failed) :
    RunsTo ((okInputs busy t.seq late).length + 1) (offered w (okInputs busy t.seq late ++ rest) s)
      { okEffect busy.length t.seq t with
        st := .idle, seq := [], inputs := rest, cycle := s.cycle + ((okInputs busy t.seq late).length + 1) }
      ((.idle, none) :: okSchedule busy t.seq late) := by
  obtain ⟨hseq, htmr, hpend⟩ : s.seq = [] ∧ s.tmr = 0 ∧ s.pending = none := by
    simpa [restLegal, and_assoc] using hrest
  generalize henv : okInputs busy t.seq late = env
  have hexec' : exec i { latchCommand w s with inputs := env ++ rest, cycle := s.cycle + 1 } = _ :=
    exec_at i (latchCommand w s) t _ _ hexec
  have hstep : step (offered w (env ++ rest) s) =
      execThenSettle i { latchCommand w s with inputs := env ++ rest, cycle := s.cycle + 1 } :=
    stepRunsTheDecodedCommand s (presents w) (env ++ rest) i hidle rfl rfl hdec
  rw [execThenSettle, hexec'] at hstep
  obtain ⟨ops, hops, rfl⟩ | rfl := exec_started_or_dropped (lcdValue_of_decodeCmd hdec) hexec halive
  · simp only [startSeq_st, startSeq_seq, if_true] at hstep henv ⊢
    obtain ⟨u, hu, hrun⟩ := runsTo_startSeq (s := beforeSeq i (latchCommand w s)) busy late rest (s.cycle + 1)
      (expansion_all_plainOp _ _ _ hops) (by simp [hpend]) (by simp [htmr])
    rw [henv] at hu hrun
    rw [Nat.add_right_comm] at hrun
    exact RunsTo.cons_idle hidle (hstep.trans hu) hrun
  · have hnil : okInputs busy s.seq late = [] := by rw [hseq]; rfl
    obtain rfl : env = [] := henv.symm.trans hnil
    simp only [latchCommand_st, hidle, reduceCtorEq, if_false] at hstep
    simp only [latchCommand_seq, hseq] at hstep ⊢
    refine RunsTo.cons_idle hidle hstep ?_
    simpa [okEffect, okSchedule, latchCommand, hidle, hseq] using RunsTo.refl _

/-- Settles O36: the ports and the final state are those of `runsTo_command`, the requests those its log shows. -/
theorem commandRunsItsListToTheEnd : Obligations.CommandRunsItsListToTheEnd := by
  intro s t w i busy late rest hidle hrest hdec hexec halive
  have h := runsTo_command busy late rest hidle hrest hdec hexec halive
  refine ⟨h.1, ?_, h.2⟩
  rw [h.trace_eq, List.filterMap_cons, okSchedule_requests]

end Sys2Proof.Machine
end

section
/-! PROOFS. The line port (20_memory): how a request is encoded (20 R51 to R53), which requests a state presents
(20 R54, R55), and what the answer port does (20 R58). -/

namespace Sys2Proof.Machine

/-! ### Encoding of a request -/

/-- The packing of R53 for the two lengths of a SETV: the first element is the most significant bit. -/
theorem packVec_of_four (a b c d : Bool) :
    packVec [a, b, c, d] 0#4 = BitVec.ofBool a ++ (BitVec.ofBool b ++ (BitVec.ofBool c ++ BitVec.ofBool d)) := by
  revert a b c d
  decide

theorem packVec_of_three (b c d : Bool) :
    packVec [b, c, d] 0#4 = 0#1 ++ (BitVec.ofBool b ++ (BitVec.ofBool c ++ BitVec.ofBool d)) := by
  revert b c d
  decide

/-- A SET carries its level in bit 0 (R51). -/
theorem port_set (l : LineId) (v : Bool) : (LineReq.set l v).port = ⟨0#2, l.code, 0#3 ++ BitVec.ofBool v⟩ := by
  rw [LineReq.port, LineReq.val, BitVec.setWidth_eq_append (by decide)]
  rfl

/-- Settles O9: op and line are the codes of the request's kind and line by definition, the values those of `port_set`
and of the two packings. -/
theorem requestPortEncoding : Obligations.RequestPortEncoding :=
  ⟨port_set .e, port_set .rs, port_set .d7,
    fun a b c d => congrArg (LinePort.mk 1#2 6#3) (packVec_of_four a b c d),
    fun b c d => congrArg (LinePort.mk 1#2 6#3) (packVec_of_three b c d),
    rfl, rfl, fun _ => rfl⟩

/-! ### Requests of a legal state -/

/-- A BUSY block presents the head of its list: a line op, or the switch of D7 that restores it (R24, R125). -/
theorem lineRequest_cases {s : State} {r : LineReq} (hreq : lineRequest s = some r) :
    s.st = .busy ∧ ∃ ops,
      (∃ k, s.seq = .req r k :: ops) ∨ r = .dirOut .d7 false ∧ ∃ f k, s.seq = .restore f k :: ops := by
  unfold lineRequest at hreq
  split at hreq
  next hbusy _ _ =>
    refine ⟨hbusy, ?_⟩
    cases hseq : s.seq with
    | nil => simp [hseq] at hreq
    | cons o ops =>
      refine ⟨ops, ?_⟩
      cases o <;> simp_all [MicroOp.request]
  next => simp at hreq

theorem lineRequest_of_not_busy {s : State} (h : s.st ≠ .busy) : lineRequest s = none :=
  Option.eq_none_iff_forall_not_mem.mpr fun _ hreq => h (lineRequest_cases hreq).1

/-- The requests the block may make with this width and this direction of D7 (R54, R55, R128). -/
def Permitted (bw : BusWidth) (d7dir : LineDir) (r : LineReq) : Prop :=
  ((∃ v, r = .set .e v) ∨ (∃ v, r = .set .rs v) ∨ (∃ vec, r = .setv vec ∧ vec.length = bw.lines) ∨
    (bw = .three ∧ ((∃ v, r = .set .d7 v) ∨ r = .dirIn .d7 ∨ r = .dirOut .d7 false ∨ r = .get .d7))) ∧
  (r = .get .d7 → d7dir = .input) ∧
  (d7dir = .input → r = .get .d7 ∨ r = .dirOut .d7 false)

/-- A request that meets the line contracts is permitted. -/
theorem RequestLegal.permitted {bw : BusWidth} {e e' d' : Bool} {dir : LineDir} {r : LineReq}
    (h : RequestLegal bw e (dir == .input) r e' d') : Permitted bw dir r := by
  generalize hd : (dir == LineDir.input) = d at h
  cases h <;> simp_all [Permitted]

/-- So is the restore of D7 with width 3, whatever its direction. -/
theorem permitted_restore {dir : LineDir} : Permitted .three dir (.dirOut .d7 false) := by simp [Permitted]

theorem permitted_of_lineRequest {s : State} {r : LineReq} (hinv : inv s = true) (hreq : lineRequest s = some r) :
    Permitted s.cfg.busWidth s.d7dir r := by
  obtain ⟨hbusy, ops, hhead⟩ := lineRequest_cases hreq
  obtain ⟨hplan, -⟩ := (inv_iff_of_busy hbusy).mp hinv
  obtain ⟨k, hseq⟩ | ⟨rfl, f, k, hseq⟩ := hhead
  · rw [hseq] at hplan
    obtain ⟨-, _, _, hlegal, -⟩ := requestLegal_of_planLegal hplan
    exact hlegal.permitted
  · simp only [hseq, planLegal, Bool.and_eq_true, busyReadback_iff] at hplan
    obtain ⟨⟨⟨hthree, -⟩, -⟩, -⟩ := hplan
    rw [hthree]
    exact permitted_restore

/-- Settles O54: the head of a legal list meets the line contracts, and at rest the list is empty. -/
theorem requestsAreThoseOfTheConfiguration : Obligations.RequestsAreThoseOfTheConfiguration := by
  intro s hinv
  refine ⟨fun r hreq => permitted_of_lineRequest hinv hreq, fun hrest => ?_⟩
  obtain ⟨⟨he, hd⟩, -⟩ := (inv_iff_of_not_busy hrest).mp hinv
  exact ⟨he, hd, lineRequest_of_not_busy hrest⟩

/-! ### The answer port -/

/-- R58: without an outstanding request a cycle reads `rst` and the command port only. -/
theorem clock_of_pending_none {p q : PortInput} {s : State} (hpend : s.pending = none) (hrst : p.rst = q.rst)
    (hvalid : p.cmdValid = q.cmdValid) (hdata : p.cmdData = q.cmdData) : clock p s = clock q s := by
  have hbusy : busyCycle p s = busyCycle q s := by
    unfold busyCycle
    rw [hpend]
    rcases s.tmr with _ | _ | n <;> rfl
  simp only [clock, hrst, hvalid, hdata, hbusy]

/-- Settles O34: a step is a cycle after the clock edge, which leaves the outstanding request. -/
theorem answerIgnoredWhileNothingPending : Obligations.AnswerIgnoredWhileNothingPending := by
  intro s p q ps hpend hrst hvalid hdata
  rw [step_of_inputs rfl, step_of_inputs rfl]
  exact clock_of_pending_none (s := nextCycle { s with inputs := p :: ps }) hpend hrst hvalid hdata

/-- R209: a cycle without an answer leaves an outstanding request, whatever stands on the command port. -/
theorem step_unanswered {s : State} {r : LineReq} {p : PortInput} {ps : List PortInput} (hbusy : s.st = .busy)
    (hpend : s.pending = some r) (hin : s.inputs = p :: ps) (hrst : p.rst = false) (hresp : p.respValid = false) :
    step s = .next (nextCycle s) := by
  rw [step_of_inputs hin, clock_busy (s := nextCycle s) hrst hbusy]
  simp [busyCycle, hpend, hresp]

theorem lineRequest_of_pending {s : State} {r : LineReq} (hpend : s.pending = some r) : lineRequest s = none := by
  cases hst : s.st <;> simp [lineRequest, hst, hpend]

/-- R209, over any number of such cycles. -/
theorem runsTo_unanswered {s : State} {r : LineReq} {ps rest : List PortInput} (hbusy : s.st = .busy)
    (hpend : s.pending = some r) (hin : s.inputs = ps ++ rest)
    (hquiet : ∀ p ∈ ps, p.rst = false ∧ p.respValid = false) :
    RunsTo ps.length s { s with inputs := rest, cycle := s.cycle + ps.length } (waiting ps.length) := by
  induction ps generalizing s with
  | nil =>
    obtain rfl : s.inputs = rest := hin
    exact RunsTo.refl s
  | cons p ps ih =>
    obtain ⟨⟨hrst, hresp⟩, hquiet⟩ := List.forall_mem_cons.mp hquiet
    have hstep := step_unanswered hbusy hpend hin hrst hresp
    have hrun := RunsTo.cons hstep (ih (s := nextCycle s) hbusy hpend (by simp [hin]) hquiet)
    rw [lineRequest_of_pending hpend, hbusy] at hrun
    simpa [waiting, List.replicate_succ, nextCycle, Nat.add_comm, Nat.add_left_comm] using hrun

/-- Settles O47: the run is `runsTo_unanswered`, whose log shows no request. -/
theorem unansweredRequestWaitsForever : Obligations.UnansweredRequestWaitsForever := by
  intro s r ps rest hbusy hpend hquiet
  have hrun := runsTo_unanswered (s := { s with inputs := ps ++ rest }) hbusy hpend rfl hquiet
  exact ⟨hrun.1, hrun.trace_eq.trans (waiting_requests _)⟩

end Sys2Proof.Machine
end

section
/-! PROOFS. What the controller latches (20 R57, R61, R62): the strobes in the requests of whole transmissions. -/

namespace Sys2Proof.Machine

/-! ### Nibbles and polls -/

/-- The levels one nibble leaves on the lines: its bits on the data lines, and E low (R57, R83). -/
def Lines.withNibble (l : Lines) (n : Nibble) : Lines :=
  { l with e := false, d7 := n[3], d6 := n[2], d5 := n[1], d4 := n[0] }

@[simp] theorem Lines.withNibble_e (l : Lines) (n : Nibble) : (l.withNibble n).e = false := rfl
@[simp] theorem Lines.withNibble_rs (l : Lines) (n : Nibble) : (l.withNibble n).rs = l.rs := rfl

/-- R83: data lines that hold the bits of a nibble show that nibble. -/
@[simp] theorem Lines.nibble_of_bits (e rs : Bool) (n : Nibble) :
    (⟨e, rs, n[3], n[2], n[1], n[0]⟩ : Lines).nibble = n := by
  revert e rs n
  decide

/-- R57, R61: the line ops of one nibble make the controller latch it once, at either width, under the RS level. -/
theorem latched_nibbleRequests (bw : BusWidth) (n : Nibble) {l : Lines} (he : l.e = false) (rs : List LineReq) :
    latched l (nibbleRequests bw n ++ rs) = (l.rs, n) :: latched (l.withNibble n) rs := by
  cases bw <;> simp [nibbleRequests, latched, Lines.apply, Lines.withNibble, he]

theorem latched_replicate_get (m : Nat) (x : LineId) (l : Lines) (rs : List LineReq) :
    latched l (List.replicate m (.get x) ++ rs) = latched l rs := by
  induction m with
  | zero => rfl
  | succ m ih => exact ih

/-- A poll raises no strobe (R125). -/
theorem latched_pollRequests (m : Nat) (l : Lines) : latched l (pollRequests m) = [] := by
  simp only [pollRequests, latched, latched_replicate_get]

/-- R110: one nibble raises E once. -/
theorem count_raiseE_nibbleRequests (bw : BusWidth) (n : Nibble) :
    (nibbleRequests bw n).count (.set .e true) = 1 := by
  cases bw <;> simp [nibbleRequests]

theorem count_raiseE_pollRequests (m : Nat) : (pollRequests m).count (.set .e true) = 0 := by
  simp [pollRequests, List.count_replicate]

/-! ### The requests of whole transmissions -/

/-- The requests after a list's last nibble: those of its poll, if it has one (R122). -/
def syncRequests (m : Nat) (sync : Sync) : List LineReq := if sync = .busyPoll then pollRequests m else []

theorem latched_syncRequests (m : Nat) (sync : Sync) (l : Lines) : latched l (syncRequests m sync) = [] := by
  cases sync with
  | fixedDelay => rfl
  | busyPoll => exact latched_pollRequests m l

theorem count_raiseE_syncRequests (m : Nat) (sync : Sync) : (syncRequests m sync).count (.set .e true) = 0 := by
  cases sync with
  | fixedDelay => rfl
  | busyPoll => exact count_raiseE_pollRequests m

/-- The requests of a transmission that ends a list (R120). -/
theorem okRequests_last (c : Config) (n : Nibble) (sync : Sync) (d : Micros) (k : BitVec 4) (m : Nat) :
    okRequests m (tx c n (lastSync c sync d) k false) = nibbleRequests c.busWidth n ++ syncRequests m sync := by
  have h := okRequests_tx c n (lastSync c sync d) k false m []
  rw [List.append_nil] at h
  rw [h]
  cases sync <;> simp [lastSync, syncRequests, okRequests]

/-- The requests of a byte (R140). -/
theorem okRequests_byteOps (c : Config) (h l : Nibble) (sync : Sync) (d : Micros) (m : Nat) :
    okRequests m (byteOps c h l sync d) =
      nibbleRequests c.busWidth h ++ (nibbleRequests c.busWidth l ++ syncRequests m sync) := by
  rw [byteOps, okRequests_tx, okRequests_last]
  simp

/-- A command that passes its checks presents the requests of its list (R23). -/
theorem trace_command {s : State} {w : CmdWord} {i : Instr} {ops : List MicroOp} (busy late : List Nat)
    (rest : List PortInput) (hidle : s.st = .idle) (hrest : restLegal s = true)
    (hdec : decodeCmd s.cfg.busWidth w = .ok i) (hpass : acceptError i s = none) (hops : expansion s.cfg i = some ops) :
    trace ((okInputs busy ops late).length + 1) (offered w (okInputs busy ops late ++ rest) s) =
      okRequests busy.length ops := by
  have hexec : exec i (latchCommand w s) = .next (startSeq ops (beforeSeq i (latchCommand w s))) := by
    rw [exec_eq, lcdValue_of_decodeCmd hdec]
    simp [hpass, hops]
  obtain ⟨-, htrace, -⟩ := commandRunsItsListToTheEnd s _ w i busy late rest hidle hrest hdec hexec (by simp)
  exact htrace

theorem acceptError_sendByte {s : State} {sync : Sync} {d : Micros} {b : Byte}
    (hwf : (Instr.sendByte sync d b).wellFormed s.cfg.busWidth = true) (hmode : s.mode ≠ .unknown)
    (hphase : s.phase ≠ .odd) : acceptError (.sendByte sync d b) s = none := by
  rw [acceptError_eq_none_iff]
  exact ⟨hwf, by simpa [modeCheckFails] using hmode, by simpa [phaseCheckFails] using hphase, rfl⟩

/-- A nibble with a fixed wait passes its checks at either width and in every phase (R79, R194). -/
theorem acceptError_sendNibble_fixedDelay {s : State} (d : Micros) (n : Nibble) (hmode : s.mode ≠ .unknown) :
    acceptError (.sendNibble .fixedDelay d n) s = none := by
  rw [acceptError_eq_none_iff]
  exact ⟨rfl, by simpa [modeCheckFails] using hmode, rfl, rfl⟩

theorem trace_sendByte {s : State} {sync : Sync} {d : Micros} {b : Byte} (busy late : List Nat) (rest : List PortInput)
    (hidle : s.st = .idle) (hrest : restLegal s = true)
    (hwf : (Instr.sendByte sync d b).wellFormed s.cfg.busWidth = true) (hmode : s.mode ≠ .unknown)
    (hphase : s.phase ≠ .odd) :
    let env := okInputs busy (byteOps s.cfg (highNibble b) (lowNibble b) sync d) late
    trace (env.length + 1) (offered (cmdWord 0x6#4 sync.bit d b) (env ++ rest) s) =
      nibbleRequests s.cfg.busWidth (highNibble b) ++
        (nibbleRequests s.cfg.busWidth (lowNibble b) ++ syncRequests busy.length sync) := by
  rw [← okRequests_byteOps]
  exact trace_command busy late rest hidle hrest (Laws.RoundTrip.sendByte sync d b _ hwf)
    (acceptError_sendByte hwf hmode hphase) rfl

theorem trace_sendNibble_fixedDelay {s : State} (d : Micros) (n : Nibble) (busy late : List Nat) (rest : List PortInput)
    (hidle : s.st = .idle) (hrest : restLegal s = true) (hmode : s.mode ≠ .unknown) :
    let env := okInputs busy (tx s.cfg n (.fixed (cyclesOf s.cfg d)) 0#4 false) late
    trace (env.length + 1) (offered (cmdWord 0x5#4 0#1 d (0#4 ++ n)) (env ++ rest) s) =
      nibbleRequests s.cfg.busWidth n := by
  intro env
  have hreqs := okRequests_last s.cfg n .fixedDelay d 0#4 busy.length
  have htrace := trace_command busy late rest hidle hrest (Laws.RoundTrip.sendNibble .fixedDelay d n _ rfl)
    (acceptError_sendNibble_fixedDelay d n hmode) rfl
  exact htrace.trans (hreqs.trans (List.append_nil _))

/-- R61, R82: the two nibbles put together are the byte. -/
theorem highNibble_append_lowNibble (b : Byte) : highNibble b ++ lowNibble b = b :=
  BitVec.extractLsb'_append_extractLsb' (w := 4) (len := 4)

/-- Settles O48: `trace_sendByte` gives the requests of the byte, each nibble of which latches once. -/
theorem byteLatchesHighThenLow : Obligations.ByteLatchesHighThenLow := by
  intro s sync dly b busy late rest l hidle hrest hwf hmode hphase he high low env byteTrace nibbleTrace
  have hbyte : byteTrace = nibbleRequests s.cfg.busWidth high ++
      (nibbleRequests s.cfg.busWidth low ++ syncRequests busy.length sync) :=
    trace_sendByte busy late rest hidle hrest hwf hmode hphase
  have hnibble (n : Nibble) : nibbleTrace n = nibbleRequests s.cfg.busWidth n :=
    trace_sendNibble_fixedDelay dly n [] [] rest hidle hrest hmode
  refine ⟨highNibble_append_lowNibble b, ?_, ?_, fun n => ?_, ?_⟩
  · rw [hbyte, latched_nibbleRequests _ _ he, latched_nibbleRequests _ _ (Lines.withNibble_e ..), latched_syncRequests,
      Lines.withNibble_rs]
  · rw [hbyte, List.count_append, List.count_append, count_raiseE_nibbleRequests, count_raiseE_nibbleRequests,
      count_raiseE_syncRequests]
  · rw [hnibble, count_raiseE_nibbleRequests]
  · rintro rfl
    rw [hbyte, hnibble, hnibble]
    exact congrArg _ (List.append_nil _)

end Sys2Proof.Machine
end

section
/-! PROOFS. Encoding (30_encoding): decoder and encoder are inverse to each other, the rows of the opcode map exclude each
other, the listed words and lines, and the transmission of the controller-side values. -/

namespace Sys2Proof

/-! ### The round trips -/

/-- Settles O1: the round trip of each instruction, with every operand, is its law of the family RoundTrip. -/
theorem decodeOfEncodeIsTheInstruction : Obligations.DecodeOfEncodeIsTheInstruction := by
  suffices h : ∀ i, Laws.RoundTrip.Statement i from fun bw i => h i bw
  intro i
  cases i with
  | init => exact Laws.RoundTrip.init
  | selIr => exact Laws.RoundTrip.selIr
  | selDr => exact Laws.RoundTrip.selDr
  | strobe dly => exact Laws.RoundTrip.strobe dly
  | sendNibble sync dly n => exact Laws.RoundTrip.sendNibble sync dly n
  | sendByte sync dly b => exact Laws.RoundTrip.sendByte sync dly b
  | writeChar sync dly c => exact Laws.RoundTrip.writeChar sync dly c
  | lcdFunctionSet8bitNibble => exact Laws.RoundTrip.lcdFunctionSet8bitNibble
  | lcdFunctionSet4bitNibble => exact Laws.RoundTrip.lcdFunctionSet4bitNibble
  | lcdFunctionSet4bit2line5x8 => exact Laws.RoundTrip.lcdFunctionSet4bit2line5x8
  | lcdDisplayOnCursorOffBlinkOff => exact Laws.RoundTrip.lcdDisplayOnCursorOffBlinkOff
  | lcdClearDisplay => exact Laws.RoundTrip.lcdClearDisplay
  | lcdReturnHome => exact Laws.RoundTrip.lcdReturnHome
  | lcdEntryModeIncNoshift => exact Laws.RoundTrip.lcdEntryModeIncNoshift

theorem cmdWord_eq_iff {op : BitVec 4} {s : BitVec 1} {d : Micros} {b : Byte} {w : CmdWord} :
    cmdWord op s d b = w ↔ w.op = op ∧ w.s = s ∧ w.rsv = 0#3 ∧ w.dly = d ∧ w.data = b := by
  rw [eq_comm, cmdWord_eq_rawWord]
  conv_lhs => rw [← rawWord_fields w]
  exact rawWord_inj

/-- A word of the SEND_NIBBLE row is made of its opcode, its strategy, its delay and its nibble: DATA[7:4] is 0 (R76). -/
theorem cmdWord_of_matches_sendNibble {w : CmdWord} (h : CmdRow.sendNibble.matches w = true) :
    cmdWord 5#4 w.s w.dly (0#4 ++ w.nibble) = w := by
  obtain ⟨hop, hrsv, hdata⟩ := (matches_sendNibble w).mp h
  rw [← data_low_eq_nibble, low_half_of_and_zero _ hdata]
  exact cmdWord_eq_iff.mpr ⟨hop, rfl, hrsv, rfl, rfl⟩

/-- A word that decodes matches the row of its instruction, and the row fixes every bit that is no operand. -/
theorem encode_of_decodeCmd {bw : BusWidth} {w : CmdWord} {i : Instr} (h : decodeCmd bw w = .ok i) :
    encode i = .cmd w := by
  simp only [decodeCmd] at h
  split_ifs at h with hinit hselIr hselDr hstrobe hnibble _ _ hbyte _ hchar <;> cases h <;>
    simp only [encode, Encoded.cmd.injEq, bit_ofBit]
  · exact cmdWord_eq_iff.mpr ((matches_init w).mp hinit)
  · exact cmdWord_eq_iff.mpr ((matches_selIr w).mp hselIr)
  · exact cmdWord_eq_iff.mpr ((matches_selDr w).mp hselDr)
  · obtain ⟨hop, hs, hrsv, hdata⟩ := (matches_strobe w).mp hstrobe
    exact cmdWord_eq_iff.mpr ⟨hop, hs, hrsv, rfl, hdata⟩
  · exact cmdWord_of_matches_sendNibble hnibble
  · obtain ⟨hop, hrsv⟩ := (matches_sendByte w).mp hbyte
    exact cmdWord_eq_iff.mpr ⟨hop, rfl, hrsv, rfl, rfl⟩
  · obtain ⟨hop, hrsv⟩ := (matches_writeChar w).mp hchar
    exact cmdWord_eq_iff.mpr ⟨hop, rfl, hrsv, rfl, rfl⟩

/-- A controller-side instruction is encoded as its value of R84 and carries no condition (R79). -/
theorem encode_of_lcdValue {bw : BusWidth} {l : LcdWord} {i : Instr} (h : Machine.lcdValue i = some l) :
    encode i = .lcd l ∧ i.wellFormed bw = true := by
  cases i <;> cases h <;> exact ⟨rfl, rfl⟩

/-- Settles O2: a host word through its row, a controller-side value through `lcdValue`. -/
theorem encodeOfDecodeIsTheWord : Obligations.EncodeOfDecodeIsTheWord := by
  intro bw e i h
  cases e with
  | cmd w => exact ⟨encode_of_decodeCmd h, Machine.wellFormed_of_decodeCmd h⟩
  | lcd l => exact encode_of_lcdValue (Machine.lcdValue_of_decodeLcd h)

/-! ### The opcode map -/

theorem hostCommand_iff (i : Instr) : Machine.hostCommand i = true ↔ Machine.lcdValue i = none := by
  cases i <;> simp [Machine.hostCommand, Machine.lcdValue]

/-- Every row of R76 fixes the whole opcode of the words it matches. -/
theorem op_of_matches {r : CmdRow} {w : CmdWord} (hr : r ∈ CmdRow.table) (h : r.matches w = true) :
    w.op = CmdWord.op r.pattern := by
  have hmask : ∀ r ∈ CmdRow.table, CmdWord.op r.mask = BitVec.allOnes 4 := by decide
  calc w.op = w.op &&& CmdWord.op r.mask := by rw [hmask r hr, BitVec.and_allOnes]
    _ = CmdWord.op (w &&& r.mask) := BitVec.extractLsb'_and.symm
    _ = CmdWord.op r.pattern := congrArg CmdWord.op (beq_iff_eq.mp h)

/-- Settles O3: two rows have different opcodes, and each matches words of its own opcode only. -/
theorem noWordMatchesTwoRows : Obligations.NoWordMatchesTwoRows := by
  refine ⟨fun bw w => ?_, rfl, fun w => ?_⟩
  · cases h : decodeCmd bw w with
    | ok i => exact .inl ⟨i, rfl, (hostCommand_iff i).mpr (Machine.lcdValue_of_decodeCmd h)⟩
    | error e => exact .inr ⟨e, rfl⟩
  · have hops : CmdRow.table.Pairwise fun a b => CmdWord.op a.pattern ≠ CmdWord.op b.pattern := by decide
    refine hops.imp_of_mem fun ha hb hne ⟨hwa, hwb⟩ => hne ?_
    rw [← op_of_matches ha hwa, op_of_matches hb hwb]

/-! ### Listed words and lines -/

theorem decodeCmd_of_encode {bw : BusWidth} {w : CmdWord} {i : Instr} (henc : encode i = .cmd w)
    (hwf : i.wellFormed bw = true) : decodeCmd bw w = .ok i := by
  have h := decodeOfEncodeIsTheInstruction bw i hwf
  rwa [henc] at h

/-- Settles O4: each word is the word of the command listed for it, so the round trip O1 reads that command back. -/
theorem listedWordsDecode : Obligations.ListedWordsDecode := by
  refine ⟨?_, ?_, ?_, ?_, ?_, ?_, ?_, ?_, ?_, ?_, ?_, ?_, ?_⟩ <;> exact decodeCmd_of_encode rfl rfl

/-- Settles O5: scanning, parsing and encoding each line is evaluation. -/
theorem assemblyLinesEncode : Obligations.AssemblyLinesEncode := by
  unfold Obligations.AssemblyLinesEncode
  refine ⟨?_, ?_, ?_, ?_, ?_, ?_, ?_⟩ <;> rfl

/-! ### Controller-side values -/

namespace Machine

theorem sendScripted_nibble (n : Nibble) (s : State) :
    sendScripted (.nibble n) s =
      startSeq (tx s.cfg n (.fixed (cyclesOf s.cfg s.row.waitUs)) s.row.nib true ++ s.seq) s := by
  simp [sendScripted, scriptOps, lcdNibbles]

theorem sendScripted_byte (b : Byte) (s : State) :
    sendScripted (.byte b) s =
      startSeq (tx s.cfg (highNibble b) (.fixed (cyclesOf s.cfg s.row.waitUs)) s.row.nib true ++
        (tx s.cfg (lowNibble b) (.fixed (cyclesOf s.cfg s.row.waitUs)) (s.row.nib + 1#4) true ++ s.seq)) s := by
  simp [sendScripted, scriptOps, lcdNibbles]

/-- Settles O28: by `exec_eq` each value is sent, a lone nibble as one transmission and a byte as two. -/
theorem controllerValuesAreSent : Obligations.ControllerValuesAreSent := by
  intro s nibbleOp lone pair
  simp only [exec_eq, lcdValue, sendScripted_nibble, sendScripted_byte]
  exact ⟨rfl, rfl, rfl, rfl, rfl, rfl, rfl⟩

end Machine

end Sys2Proof
end

section
/-! PROOFS. Register selection (40_register_select): SEL_IR and SEL_DR are one RS write, start to end (40 R100, R101), and
but for INIT no other instruction writes RS (40 R102). -/

namespace Sys2Proof.Machine

/-! ### The start of a select -/

/-- A command that passes its checks and expands to a list starts that list (R196). -/
theorem exec_of_passed {i : Instr} {s : State} {ops : List MicroOp} (hlcd : lcdValue i = none)
    (hpass : acceptError i s = none) (hops : expansion s.cfg i = some ops) :
    exec i s = .next (startSeq ops (beforeSeq i s)) := by
  rw [exec_eq, hlcd]
  simp only [hpass, hops]

/-- The command that selects the register behind an RS value (R11): SEL_IR for 0, SEL_DR for 1. -/
def selectFor : Bool → Instr
  | false => .selIr
  | true => .selDr

/-- A select is checked against the phase alone (R193, R194). -/
theorem acceptError_selectFor (v : Bool) {s : State} (hphase : s.phase ≠ .odd) : acceptError (selectFor v) s = none := by
  rw [acceptError_eq_none_iff]
  cases v with
  | false => exact ⟨rfl, rfl, by simpa [selectFor, phaseCheckFails] using hphase, rfl⟩
  | true => exact ⟨rfl, rfl, by simpa [selectFor, phaseCheckFails] using hphase, rfl⟩

theorem exec_selectFor (v : Bool) {s : State} (hphase : s.phase ≠ .odd) :
    exec (selectFor v) s = .next (startSeq [.req (.set .rs v) 15#4] s) := by
  have hpass := acceptError_selectFor v hphase
  cases v with
  | false => exact exec_of_passed rfl hpass rfl
  | true => exact exec_of_passed rfl hpass rfl

/-- Settles O22: `exec_selectFor` for the two RS values. -/
theorem selectStartsTheRsWrite : Obligations.SelectStartsTheRsWrite := fun _ hphase =>
  ⟨exec_selectFor false hphase, exec_selectFor true hphase⟩

/-! ### The whole of a select -/

/-- The word of SEL_IR or SEL_DR (R76). -/
theorem decodeCmd_selectFor (bw : BusWidth) (v : Bool) :
    decodeCmd bw (if v then 0x30000000#32 else 0x20000000#32) = .ok (selectFor v) := by
  cases v with
  | false => exact Laws.RoundTrip.selIr bw rfl
  | true => exact Laws.RoundTrip.selDr bw rfl

theorem okInputs_setRs (v : Bool) (k : BitVec 4) (late : Nat) :
    okInputs [] [.req (.set .rs v) k] [late] = answered late answersOk := by
  simp [okInputs]

theorem okSchedule_setRs (v : Bool) (k : BitVec 4) (late : Nat) :
    okSchedule [] [.req (.set .rs v) k] [late] = asked late (.set .rs v) := by
  simp [okSchedule]

@[simp] theorem length_answered (late : Nat) (a : PortInput) : (answered late a).length = late + 2 := by
  simp [answered]

/-- An RS write leaves its value in the shadow and the register it selects in the mode (R100, R101). -/
theorem okEffect_setRs (n : Nat) (v : Bool) (k : BitVec 4) (s : State) :
    okEffect n [.req (.set .rs v) k] s = { s with rsSh := Shadow.ofBool v, mode := RegMode.ofRs v } := rfl

/-- Settles O37: O36's run of the one-request list that `exec_selectFor` starts. -/
theorem selectRunsToTheEnd : Obligations.SelectRunsToTheEnd := by
  intro s v late rest hidle hrest hphase w s'
  have hexec : exec (selectFor v) (latchCommand w s) = .next (startSeq [.req (.set .rs v) 15#4] (latchCommand w s)) :=
    exec_selectFor v hphase
  obtain ⟨hrun, htrace, hlog⟩ := commandRunsItsListToTheEnd s _ w (selectFor v) [] [late] rest hidle hrest
    (decodeCmd_selectFor _ v) hexec (by simp)
  simp only [startSeq_seq, okInputs_setRs, okSchedule_setRs, okEffect_setRs, length_answered] at hrun htrace hlog
  refine ⟨htrace, hlog, hrun.trans ?_⟩
  obtain ⟨hseq, -⟩ : s.seq = [] ∧ s.tmr = 0 ∧ s.pending = none := by
    simpa [restLegal, and_assoc] using hrest
  cases v <;> simp [startSeq, latchCommand, Shadow.ofBool, RegMode.ofRs, hidle, hseq, w]

/-! ### The lists without an RS write -/

section
variable {v : Bool} {k : BitVec 4}

theorem setRs_notMem_tx (c : Config) (n : Nibble) (y : TxSync) (j : BitVec 4) (init : Bool) :
    .req (.set .rs v) k ∉ tx c n y j init := by
  have hdata : .req (.set .rs v) k ∉ dataOps c.busWidth n j := by cases c.busWidth <;> simp [dataOps]
  have hphase : .req (.set .rs v) k ∉ phaseOps init := by cases init <;> simp [phaseOps]
  have hsync : .req (.set .rs v) k ∉ syncOps y j := by cases y <;> simp [syncOps, pollSeq]
  simp [tx, strobeSeq, hdata, hphase, hsync]

theorem setRs_notMem_byteOps (c : Config) (h l : Nibble) (sync : Sync) (d : Micros) :
    .req (.set .rs v) k ∉ byteOps c h l sync d := by
  simp [byteOps, setRs_notMem_tx]

theorem setRs_notMem_scriptOps (c : Config) (waitUs : Micros) (j : BitVec 4) (ns : List Nibble) :
    .req (.set .rs v) k ∉ scriptOps c waitUs j ns := by
  induction ns generalizing j with
  | nil => simp [scriptOps]
  | cons n ns ih => simp [scriptOps, setRs_notMem_tx, ih]

/-- R102 for the lists that host commands start. -/
theorem setRs_notMem_expansion {c : Config} {i : Instr} {ops : List MicroOp} (hinit : i ≠ .init) (hir : i ≠ .selIr)
    (hdr : i ≠ .selDr) (hops : expansion c i = some ops) : .req (.set .rs v) k ∉ ops := by
  cases i with
  | init => exact absurd rfl hinit
  | selIr => exact absurd rfl hir
  | selDr => exact absurd rfl hdr
  | strobe d => cases hops; simp [strobeSeq]
  | sendNibble y d n => cases hops; exact setRs_notMem_tx _ _ _ _ _
  | sendByte y d b => cases hops; exact setRs_notMem_byteOps _ _ _ _ _
  | writeChar y d ch =>
    simp only [expansion, Option.map_eq_some_iff] at hops
    obtain ⟨p, -, rfl⟩ := hops
    exact setRs_notMem_byteOps _ _ _ _ _
  | _ => simp [expansion] at hops

end

/-- Settles O30: of the outcomes of `exec_eq`, a value sent puts its transmissions in front of the old list, a command
started replaces that list, and neither holds an RS write; a refusal empties it, and a dropped character leaves it. -/
theorem onlySelectAndInitWriteRs : Obligations.OnlySelectAndInitWriteRs := by
  intro i s t v k hinit hir hdr hexec hmem
  rw [exec_eq, Host.Outcome.next.injEq] at hexec
  subst hexec
  split at hmem
  next l hlcd => simpa [sendScripted, setRs_notMem_scriptOps] using hmem
  next hlcd =>
    split at hmem
    next e herr => simp at hmem
    next hpass =>
      split at hmem
      next ops hops => exact absurd hmem (setRs_notMem_expansion hinit hir hdr hops)
      next hops => exact hmem

end Sys2Proof.Machine
end

section
/-! PROOFS. The pulse timer (41_pulse_timer): STROBE is one pulse on E, start to end (41 R110, R111). -/

namespace Sys2Proof.Machine

/-! ### The start of a strobe -/

/-- STROBE is checked against the mode alone (R193, R194). -/
theorem acceptError_strobe (d : Micros) {s : State} (hmode : s.mode ≠ .unknown) : acceptError (.strobe d) s = none := by
  rw [acceptError_eq_none_iff]
  exact ⟨rfl, by simpa [modeCheckFails] using hmode, rfl, rfl⟩

theorem exec_strobe (d : Micros) {s : State} (hmode : s.mode ≠ .unknown) :
    exec (.strobe d) s = .next (startSeq (strobeSeq (strobeHold s.cfg d) 15#4 ++ [.note .togglePhase]) s) :=
  exec_of_passed rfl (acceptError_strobe d hmode) rfl

/-- Settles O23: `exec_strobe`, with STROBE_SEQ and the hold written out. -/
theorem strobeStartsOnePulse : Obligations.StrobeStartsOnePulse := fun _ d hmode => exec_strobe d hmode

/-! ### The whole of a strobe -/

section
variable (h : Nat) (k : BitVec 4)

theorem okInputs_strobe (up down : Nat) :
    okInputs [] (strobeSeq h k ++ [.note .togglePhase]) [up, down] =
      answered up answersOk ++ (List.replicate h PortInput.quiet ++ answered down answersOk) := by
  simp [strobeSeq, okInputs]

theorem okSchedule_strobe (up down : Nat) :
    okSchedule [] (strobeSeq h k ++ [.note .togglePhase]) [up, down] =
      asked up (.set .e true) ++ (waiting h ++ asked down (.set .e false)) := by
  simp [strobeSeq, okSchedule]

theorem okRequests_strobe (n : Nat) :
    okRequests n (strobeSeq h k ++ [.note .togglePhase]) = [.set .e true, .set .e false] := rfl

/-- A strobe leaves E low and its effect on the phase mirror (R111). -/
theorem okEffect_strobe (n : Nat) (s : State) :
    okEffect n (strobeSeq h k ++ [.note .togglePhase]) s = { s with eSh := .low, phase := s.phase.toggle } := rfl

end

/-- Settles O38: O36's run of the list that `exec_strobe` starts. -/
theorem strobeRunsToTheEnd : Obligations.StrobeRunsToTheEnd := by
  intro s d up down rest hidle hrest hmode w h s'
  have hexec : exec (.strobe d) (latchCommand w s) =
      .next (startSeq (strobeSeq h 15#4 ++ [.note .togglePhase]) (latchCommand w s)) := exec_strobe d hmode
  have hrun := commandRunsItsListToTheEnd s _ w (.strobe d) [] [up, down] rest hidle hrest
    (Laws.RoundTrip.strobe d _ rfl) hexec (by simp)
  have hcycles : up + 2 + (h + (down + 2)) + 1 = up + h + down + 5 := by omega
  simp only [startSeq_seq, okInputs_strobe, okSchedule_strobe, okRequests_strobe, okEffect_strobe,
    List.length_append, length_answered, List.length_replicate, List.append_assoc, hcycles] at hrun
  obtain ⟨hend, htrace, hlog⟩ := hrun
  refine ⟨htrace, hlog, hend.trans ?_⟩
  obtain ⟨hseq, -⟩ : s.seq = [] ∧ s.tmr = 0 ∧ s.pending = none := by
    simpa [restLegal, and_assoc] using hrest
  simp [startSeq, latchCommand, toggle_eq, hidle, hseq]

end Sys2Proof.Machine
end

section
/-! PROOFS. The nibble transmitter (42_nibble_transmitter): SEND_NIBBLE and SEND_BYTE, start to end (42 R120, R130, R140). -/

namespace Sys2Proof.Machine

/-! ### The start of a transmission -/

/-- SEND_NIBBLE passes its checks where the mode is known and, for a poll, the phase is ODD (R193, R194). -/
theorem acceptError_sendNibble {s : State} {sync : Sync} {d : Micros} {n : Nibble}
    (hwf : (Instr.sendNibble sync d n).wellFormed s.cfg.busWidth = true) (hmode : s.mode ≠ .unknown)
    (hphase : sync = .busyPoll → s.phase = .odd) : acceptError (.sendNibble sync d n) s = none := by
  rw [acceptError_eq_none_iff]
  exact ⟨hwf, by simpa [modeCheckFails] using hmode, by simpa [phaseCheckFails] using hphase, rfl⟩

theorem exec_sendNibble {s : State} {sync : Sync} {d : Micros} {n : Nibble}
    (hwf : (Instr.sendNibble sync d n).wellFormed s.cfg.busWidth = true) (hmode : s.mode ≠ .unknown)
    (hphase : sync = .busyPoll → s.phase = .odd) :
    exec (.sendNibble sync d n) s = .next (startSeq (tx s.cfg n (lastSync s.cfg sync d) 0#4 false) s) :=
  exec_of_passed rfl (acceptError_sendNibble hwf hmode hphase) rfl

theorem exec_sendByte {s : State} {sync : Sync} {d : Micros} {b : Byte}
    (hwf : (Instr.sendByte sync d b).wellFormed s.cfg.busWidth = true) (hmode : s.mode ≠ .unknown)
    (hphase : s.phase ≠ .odd) :
    exec (.sendByte sync d b) s = .next (startSeq (byteOps s.cfg (highNibble b) (lowNibble b) sync d) s) :=
  exec_of_passed rfl (acceptError_sendByte hwf hmode hphase) rfl

/-- Settles O24: `exec_sendNibble`, with R120's list written out for each width and each strategy. -/
theorem sendNibbleStartsOneTransmission : Obligations.SendNibbleStartsOneTransmission := by
  intro s sync d n hwf hmode hphase
  rw [exec_sendNibble hwf hmode hphase]
  cases sync with
  | fixedDelay => cases hbus : s.cfg.busWidth <;> simp [startSeq, tx, dataOps, strobeSeq, phaseOps, lastSync, syncOps, hbus]
  | busyPoll =>
    cases hbus : s.cfg.busWidth <;>
      simp [startSeq, tx, dataOps, strobeSeq, phaseOps, lastSync, syncOps, pollSeq, hbus]

/-- Settles O25: `exec_sendByte`, with the low nibble's synchronisation written out. -/
theorem sendByteStartsTwoTransmissions : Obligations.SendByteStartsTwoTransmissions := fun _ sync _ _ hwf hmode hphase =>
  (exec_sendByte hwf hmode hphase).trans (by cases sync <;> rfl)

/-! ### The whole of a transmission -/

theorem lastSync_eq_busy_iff (c : Config) (sync : Sync) (d : Micros) :
    lastSync c sync d = .busy ↔ sync = .busyPoll := by
  cases sync <;> simp [lastSync]

/-- What a transmission that ends a list leaves behind (R120, R126). -/
theorem okEffect_last (c : Config) (n : Nibble) (sync : Sync) (d : Micros) (k : BitVec 4) (m : Nat) (s : State) :
    okEffect m (tx c n (lastSync c sync d) k false) s =
      { s with
        eSh := .low, phase := s.phase.toggle
        polls := if sync = .busyPoll then BitVec.ofNat 32 (min (m + 1) (2 ^ 32 - 1)) else s.polls
        d7dir := if sync = .busyPoll then .output else s.d7dir } := by
  have heffect := okEffect_tx c n (lastSync c sync d) k m s []
  rw [List.append_nil] at heffect
  simp only [heffect, okEffect, lastSync_eq_busy_iff, addPolls_from_zero]

theorem toggle_toggle (p : Phase) : p.toggle.toggle = p := by cases p <;> rfl

/-- What a byte leaves behind: two strobes give a known phase back (R141). -/
theorem okEffect_byteOps (c : Config) (h l : Nibble) (sync : Sync) (d : Micros) (m : Nat) (s : State) :
    okEffect m (byteOps c h l sync d) s =
      { s with
        eSh := .low
        polls := if sync = .busyPoll then BitVec.ofNat 32 (min (m + 1) (2 ^ 32 - 1)) else s.polls
        d7dir := if sync = .busyPoll then .output else s.d7dir } := by
  rw [byteOps, okEffect_tx, okEffect_last]
  simp [toggle_toggle]

theorem seq_of_restLegal {s : State} (hrest : restLegal s = true) : s.seq = [] ∧ s.tmr = 0 ∧ s.pending = none := by
  simpa [restLegal, and_assoc] using hrest

/-- Settles O39: O36's run of the list that `exec_sendNibble` starts. -/
theorem sendNibbleRunsToTheEnd : Obligations.SendNibbleRunsToTheEnd := by
  intro s sync d n busy late rest hidle hrest hwf hmode hphase w env s'
  have hexec : exec (.sendNibble sync d n) (latchCommand w s) =
      .next (startSeq (tx s.cfg n (lastSync s.cfg sync d) 0#4 false) (latchCommand w s)) :=
    exec_sendNibble hwf hmode hphase
  obtain ⟨hend, htrace, hlog⟩ := commandRunsItsListToTheEnd s _ w _ busy late rest hidle hrest
    (Laws.RoundTrip.sendNibble sync d n _ hwf) hexec (by simp)
  obtain ⟨hseq, -⟩ := seq_of_restLegal hrest
  refine ⟨htrace.trans (okRequests_last ..), hlog, hend.trans ?_⟩
  simp [env, okEffect_last, startSeq, latchCommand, toggle_eq, hidle, hseq]

/-- Settles O40: O36's run of the list that `exec_sendByte` starts. -/
theorem sendByteRunsToTheEnd : Obligations.SendByteRunsToTheEnd := by
  intro s sync d b busy late rest hidle hrest hwf hmode hphase w env s'
  have hexec : exec (.sendByte sync d b) (latchCommand w s) =
      .next (startSeq (byteOps s.cfg (highNibble b) (lowNibble b) sync d) (latchCommand w s)) :=
    exec_sendByte hwf hmode hphase
  obtain ⟨hend, htrace, hlog⟩ := commandRunsItsListToTheEnd s _ w _ busy late rest hidle hrest
    (Laws.RoundTrip.sendByte sync d b _ hwf) hexec (by simp)
  obtain ⟨hseq, -⟩ := seq_of_restLegal hrest
  have hreqs := (okRequests_byteOps s.cfg (highNibble b) (lowNibble b) sync d busy.length).trans
    (List.append_assoc ..).symm
  refine ⟨htrace.trans hreqs, hlog, hend.trans ?_⟩
  simp [env, highNibble, lowNibble, okEffect_byteOps, startSeq, latchCommand, hidle, hseq]

end Sys2Proof.Machine
end

section
/-! PROOFS. The busy poll (42_nibble_transmitter R125 to R127): its reads, its end, and a failure inside it (60 R201). -/

namespace Sys2Proof.Machine

/-! ### A poll that ends -/

/-- What a poll after a strobe leaves behind (R120, R126). -/
theorem okEffect_togglePhase_pollSeq (n : Nat) (k : BitVec 4) (s : State) :
    okEffect n (.note .togglePhase :: pollSeq k) s =
      { s with phase := s.phase.toggle, polls := addPolls (n + 1) 0#32, d7dir := .output } := rfl

/-- Settles O46: the OK answer to `SET(E, 0)` settles the phase statement and the poll, and `run_settle` runs them. -/
theorem pollReadsExactlyNPlusOneTimes : Obligations.PollReadsExactlyNPlusOneTimes := by
  intro s k busy late rest hbusy hpend htmr hseq env s'
  have hplain : (MicroOp.note .togglePhase :: pollSeq k).all plainOp = true := rfl
  obtain ⟨hstep, hsilent⟩ := step_answer (s := s') hbusy hpend hseq rfl rfl rfl rfl rfl
  obtain ⟨u, hu⟩ := settle_next _ (applyOk (.set .e false) { nextCycle s' with pending := none }) hplain
  have hpoll := run_settle busy rest _ late (applyOk (.set .e false) { nextCycle s' with pending := none }) u hplain hbusy
    rfl htmr rfl hu
  have hrun := RunsTo.cons (hstep.trans hu) hpoll
  rw [hsilent, show s'.st = .busy from hbusy] at hrun
  refine ⟨hrun.trace_eq.trans (okSchedule_requests busy (pollSeq k) late), hrun.2, hrun.1.trans ?_⟩
  simp [okEffect_togglePhase_pollSeq, applyOk, Shadow.ofBool, toggle_eq, addPolls_from_zero, nextCycle, s', env, okInputs,
    Nat.add_assoc, Nat.add_comm]

/-! ### A poll that never ends -/

/-- The block stands at a read of `l`, about to present it or with the read outstanding (R125). -/
def AtRead (l : LineId) (k : BitVec 4) (ops : List MicroOp) (s : State) : Prop :=
  s.st = .busy ∧ s.tmr = 0 ∧ s.seq = .req (.get l) k :: ops ∧ (s.pending = none ∨ s.pending = some (.get l))

/-- A cycle in which a read is not answered, or answered busy. -/
def KeepsPolling (p : PortInput) : Prop :=
  p.rst = false ∧ (p.respValid = true → p.respErr = false ∧ p.respVal = true)

/-- R127: such a cycle leaves the block at its read, whether the read is presented, waited for, or answered busy in it. -/
theorem AtRead.step_keeps {l : LineId} {k : BitVec 4} {ops : List MicroOp} {s : State} {p : PortInput} {ps : List PortInput}
    (hs : AtRead l k ops s) (hin : s.inputs = p :: ps) (hp : KeepsPolling p) :
    ∃ t, step s = .next t ∧ AtRead l k ops t ∧ t.inputs = ps := by
  obtain ⟨hbusy, htmr, hseq, hpend⟩ := hs
  obtain ⟨hrst, hans⟩ := hp
  obtain hpend | hpend := hpend
  · have hreq : lineRequest (nextCycle s) = some (.get l) := by
      simp [lineRequest, hbusy, hpend, htmr, hseq, MicroOp.request]
    refine ⟨issue (.get l) (nextCycle s), ?_, ⟨by simpa, by simpa, by simpa, by simp⟩, by simp [hin]⟩
    rw [step_of_inputs hin, clock_busy (s := nextCycle s) hrst hbusy]
    simp [busyCycle, hpend, htmr, hreq]
  · cases hresp : p.respValid with
    | false => exact ⟨nextCycle s, step_unanswered hbusy hpend hin hrst hresp, ⟨hbusy, htmr, hseq, .inr hpend⟩, by simp [hin]⟩
    | true =>
      obtain ⟨herr, hval⟩ := hans hresp
      obtain ⟨hstep, -⟩ := step_answer_busy hbusy hpend hseq hin hrst hresp herr hval
      exact ⟨_, hstep, ⟨hbusy, htmr, hseq, .inl rfl⟩, by simp [hin]⟩

/-- R127, over any number of such cycles. -/
theorem AtRead.run_keeps {l : LineId} {k : BitVec 4} {ops : List MicroOp} {s : State} {ps rest : List PortInput}
    (hs : AtRead l k ops s) (hin : s.inputs = ps ++ rest) (hps : ∀ p ∈ ps, KeepsPolling p) :
    ∃ t, run ps.length s = .next t ∧ AtRead l k ops t := by
  induction ps generalizing s with
  | nil => exact ⟨s, rfl, hs⟩
  | cons p ps ih =>
    obtain ⟨hp, hps⟩ := List.forall_mem_cons.mp hps
    obtain ⟨u, hstep, hu, huin⟩ := hs.step_keeps hin hp
    obtain ⟨t, hrun, ht⟩ := ih hu huin hps
    exact ⟨t, (run_succ _ hstep).trans hrun, ht⟩

theorem keepsPolling_of_mem_answered {late : Nat} {p : PortInput} (hp : p ∈ answered late (answersVal true)) :
    KeepsPolling p := by
  simp only [answered, List.mem_cons, List.mem_append, List.mem_replicate, List.not_mem_nil, or_false] at hp
  obtain rfl | ⟨-, rfl⟩ | rfl := hp
  · exact ⟨rfl, by simp [PortInput.quiet]⟩
  · exact ⟨rfl, by simp [PortInput.quiet]⟩
  · exact ⟨rfl, fun _ => ⟨rfl, rfl⟩⟩

/-- Settles O45: every cycle of the reads leaves the block at its read (`AtRead.run_keeps`), and the requests of the reads are
those of `run_busy_reads`. -/
theorem busyPollNeverEnds : Obligations.BusyPollNeverEnds := by
  intro s k ops busy rest hbusy hpend htmr hseq env
  have hread : AtRead .d7 k ops { s with inputs := env ++ rest } := ⟨hbusy, htmr, hseq, .inl hpend⟩
  have hpolling : ∀ p ∈ env, KeepsPolling p := fun p hp => by
    obtain ⟨d, -, hp⟩ := List.mem_flatMap.mp hp
    exact keepsPolling_of_mem_answered hp
  refine ⟨fun n hn => ?_, ?_⟩
  · have hsplit : env ++ rest = env.take n ++ (env.drop n ++ rest) := by
      rw [← List.append_assoc, List.take_append_drop]
    obtain ⟨t, hrun, ht⟩ := hread.run_keeps hsplit fun p hp => hpolling p (List.mem_of_mem_take hp)
    rw [List.length_take_of_le hn] at hrun
    obtain ⟨htbusy, -, htseq, -⟩ := ht
    exact ⟨t, hrun, htbusy, by simp [cmdReady, htbusy], htseq.trans hseq.symm⟩
  · have hrun := run_busy_reads busy (s := { s with inputs := env ++ rest }) hbusy hpend htmr hseq rfl
    rw [hrun.trace_eq, asked_each_requests]

/-! ### A failure inside a poll -/

section
variable {s : State} {ps : List PortInput} {first : OpKind} {k : BitVec 4} {ops : List MicroOp}

/-- RESTORE_D7 presents its one `DIR(D7, OUT, 0)` (R125). -/
theorem step_present_restore (hbusy : s.st = .busy) (hpend : s.pending = none) (htmr : s.tmr = 0)
    (hseq : s.seq = .restore first k :: ops) (hin : s.inputs = PortInput.quiet :: ps) :
    step s = .next { nextCycle s with pending := some (.dirOut .d7 false) } ∧
      lineRequest s = some (.dirOut .d7 false) := by
  have hreq : lineRequest s = some (.dirOut .d7 false) := by
    simp [lineRequest, hbusy, hpend, htmr, hseq, MicroOp.request]
  refine ⟨?_, hreq⟩
  have hreq' : lineRequest (nextCycle s) = some (.dirOut .d7 false) := hreq
  rw [step_of_inputs hin, clock_busy (s := nextCycle s) rfl hbusy]
  simp [busyCycle, hpend, htmr, hreq', issue]

/-- Its answer, OK or ERR, raises the first error (R125, R201). -/
theorem step_answer_restore {r : LineReq} {p : PortInput} (hbusy : s.st = .busy) (hpend : s.pending = some r)
    (hseq : s.seq = .restore first k :: ops) (hin : s.inputs = p :: ps) (hrst : p.rst = false)
    (hresp : p.respValid = true) : step s = .next (finishRestore first k p.respErr (nextCycle s)) := by
  rw [step_of_inputs hin, clock_busy (s := nextCycle s) hrst hbusy]
  simp [busyCycle, hpend, answer, hseq, hresp]

/-- The whole restore attempt, answered `late` cycles later than the first possible. -/
theorem runsTo_restore {late : Nat} {p : PortInput} (hbusy : s.st = .busy) (hpend : s.pending = none) (htmr : s.tmr = 0)
    (hseq : s.seq = .restore first k :: ops) (hin : s.inputs = answered late p ++ ps) (hrst : p.rst = false)
    (hresp : p.respValid = true) :
    RunsTo (late + 2) s
      (finishRestore first k p.respErr { s with inputs := ps, cycle := s.cycle + (late + 2) })
      (asked late (.dirOut .d7 false)) := by
  simp only [answered, List.cons_append, List.append_assoc, List.nil_append] at hin
  obtain ⟨hpresent, hreq⟩ := step_present_restore hbusy hpend htmr hseq hin
  have hsilent := run_silent late (s := { nextCycle s with pending := some (.dirOut .d7 false) }) (r := .dirOut .d7 false)
    (ps := p :: ps) hbusy rfl (by simp [hin])
  have hanswer := step_answer_restore (s := { nextCycle s with
      pending := some (.dirOut .d7 false), inputs := p :: ps, cycle := s.cycle + 1 + late })
    hbusy rfl hseq rfl hrst hresp
  have hrun := RunsTo.cons hpresent (hsilent.trans (RunsTo.cons hanswer (RunsTo.refl _)))
  rw [hreq, hbusy] at hrun
  have hcycles : s.cycle + (late + 2) = s.cycle + 1 + late + 1 := by omega
  convert hrun using 1
  · simp [finishRestore, raiseError, nextCycle, hcycles]
  · simp [asked, waiting, lineRequest, hbusy, List.replicate_succ']

end

/-- R125: the ERR answer to `DIR(D7, IN)` or `GET(D7)` leaves the restore attempt, which holds the first error. -/
theorem step_poll_failed {s : State} {r : LineReq} {k : BitVec 4} {ops : List MicroOp} {ps : List PortInput}
    (hbusy : s.st = .busy) (hpend : s.pending = some r) (hseq : s.seq = .req r k :: ops)
    (hr : r.restores = true) (hin : s.inputs = answersErr :: ps) :
    step s = .next { applyErr r (nextCycle s) with seq := [.restore r.kind k], pending := none } := by
  rw [step_of_inputs hin, clock_busy (s := nextCycle s) rfl hbusy]
  simp [busyCycle, hpend, answer, hseq, answersErr, failRequest, hr]

/-- Settles O21: the failed answer, and then the restore attempt, whose answer writes D7DIR over what the failure wrote. -/
theorem pollFailureRestoresOnce : Obligations.PollFailureRestoresOnce := by
  intro s r k ops late restoreFails rest hbusy hpend htmr hseq hr ans s'
  have hrestores : r.restores = true := by obtain rfl | rfl := hr <;> rfl
  have hrst : ans.rst = false := by cases restoreFails <;> rfl
  have hresp : ans.respValid = true := by cases restoreFails <;> rfl
  have herr : ans.respErr = restoreFails := by cases restoreFails <;> rfl
  have hfail := step_poll_failed (s := s') hbusy hpend hseq hrestores rfl
  have hrestore := runsTo_restore (s := { applyErr r (nextCycle s') with seq := [.restore r.kind k], pending := none })
    (late := late) (p := ans) (ps := rest) (by simpa) rfl (by simpa) rfl (by simp [s']) hrst hresp
  have hrun := RunsTo.cons hfail hrestore
  rw [lineRequest_of_pending (s := s') hpend] at hrun
  refine ⟨by simp [hrun.trace_eq], hrun.1.trans ?_⟩
  obtain rfl | rfl := hr <;>
    simp [finishRestore, raiseError, applyErr, nextCycle, s', herr, Nat.add_left_comm]

end Sys2Proof.Machine
end

section
/-! PROOFS. Waits (42 R123, 43 R151, R153, 70 R236): a wait of `n` cycles, whatever stands before and after it in its list. -/

namespace Sys2Proof.Machine

/-! ### Where a micro-operation has ended -/

/-- A BUSY block in which a micro-operation has ended: nothing is outstanding and no wait is running. The parameters are
`c`, and the inputs to come are `ps`. -/
def OpEnded (c : Config) (ps : List PortInput) (s : State) : Prop :=
  s.st = .busy ∧ s.pending = none ∧ s.tmr = 0 ∧ s.cfg = c ∧ s.inputs = ps

section
variable {c : Config} {ps : List PortInput} {s : State}

/-- Statements that take no cycle leave the block where it is (R236, log entry 9). -/
theorem OpEnded.settle_notes (hs : OpEnded c ps s) (notes : List Note) (ops : List MicroOp) :
    ∃ u, settle (notes.map .note ++ ops) s = settle ops u ∧ OpEnded c ps u := by
  induction notes generalizing s with
  | nil => exact ⟨s, rfl, hs⟩
  | cons b notes ih => exact ih (s := applyNote b s) (by simpa [OpEnded] using hs)

/-- The next request waits to be presented. -/
theorem OpEnded.settle_at_req (hs : OpEnded c ps s) (r : LineReq) (k : BitVec 4) (ops : List MicroOp) :
    ∃ t, settle (.req r k :: ops) s = .next t ∧ t.st = .busy ∧ lineRequest t = some r ∧ t.inputs = ps := by
  obtain ⟨hbusy, hpend, htmr, -, hin⟩ := hs
  exact ⟨_, rfl, hbusy, by simp [lineRequest, hbusy, hpend, htmr, MicroOp.request], hin⟩

/-- A listed value by itself leaves its first request to be presented (log entry 5). -/
theorem OpEnded.settle_at_rom (hs : OpEnded c ps s) {r : RomRow} (hr : rowLegal r = true) (ops : List MicroOp) :
    ∃ t, settle (.rom r :: ops) s = .next t ∧ t.st = .busy ∧
      lineRequest t = (rowOps c r).head?.bind MicroOp.request ∧ t.inputs = ps := by
  obtain ⟨i, hdec⟩ : ∃ i, decodeLcd r.word = .ok i := by
    unfold rowLegal at hr
    cases hword : decodeLcd r.word <;> simp_all
  obtain ⟨hbusy, hpend, htmr, rfl, hin⟩ := hs
  obtain ⟨q, tail, hhead⟩ := scriptOps_eq_cons s.cfg r.waitUs r.nib r.word
  exact ⟨_, settle_rom hdec ops s, rfl, by simp [lineRequest, hpend, htmr, rowOps, hhead], hin⟩

/-- The end of the list completes the command (R236). -/
theorem OpEnded.settle_at_end (hs : OpEnded c ps s) : ∃ t, settle [] s = .next t ∧ t.st = .idle ∧ t.inputs = ps := by
  obtain ⟨-, -, -, -, hin⟩ := hs
  exact ⟨_, rfl, rfl, hin⟩

end

/-! ### The cycles of a wait -/

theorem lineRequest_of_tmr {s : State} (htmr : s.tmr ≠ 0) : lineRequest s = none := by
  unfold lineRequest
  split
  next h => exact absurd h htmr
  next => rfl

section
variable {s : State} {p : PortInput} {ps : List PortInput}

/-- A wait with more than one cycle left counts down (R204). -/
theorem step_counts {n : Nat} (hbusy : s.st = .busy) (hpend : s.pending = none) (htmr : s.tmr = n + 2)
    (hin : s.inputs = p :: ps) (hrst : p.rst = false) : step s = .next { nextCycle s with tmr := n + 1 } := by
  rw [step_of_inputs hin, clock_busy (s := nextCycle s) hrst hbusy]
  simp [busyCycle, hpend, htmr]

/-- The last cycle of a wait ends it (R204, R236). -/
theorem step_wait_ends {m : Nat} {ops : List MicroOp} (hbusy : s.st = .busy) (hpend : s.pending = none)
    (htmr : s.tmr = 1) (hseq : s.seq = .wait m :: ops) (hin : s.inputs = p :: ps) (hrst : p.rst = false) :
    step s = settle ops { nextCycle s with tmr := 0 } := by
  rw [step_of_inputs hin, clock_busy (s := nextCycle s) hrst hbusy]
  simp [busyCycle, hpend, htmr, hseq, dropWait]

end

theorem run_one (s : State) : run 1 s = step s := by
  simp only [run, Host.Core.run, core]
  cases step s <;> rfl

theorem portLog_one (s : State) : portLog 1 s = [(s.st, lineRequest s)] := by
  simp only [portLog]
  cases step s <;> rfl

/-- A running wait of which `n + 1` cycles are left: in them nothing is presented, whatever the inputs, and then the rest
of the list is settled. -/
theorem run_running_wait (n : Nat) {s : State} {m : Nat} {ops : List MicroOp} {during rest : List PortInput}
    (hbusy : s.st = .busy) (hpend : s.pending = none) (htmr : s.tmr = n + 1) (hseq : s.seq = .wait m :: ops)
    (hin : s.inputs = during ++ rest) (hlen : during.length = n + 1) (hrst : ∀ d ∈ during, d.rst = false) :
    portLog (n + 1) s = waiting (n + 1) ∧ ∃ u, run (n + 1) s = settle ops u ∧ OpEnded s.cfg rest u := by
  have hreq : lineRequest s = none := lineRequest_of_tmr (by simp [htmr])
  induction n generalizing s during with
  | zero =>
    obtain ⟨d, rfl⟩ := List.length_eq_one_iff.mp hlen
    have hstep := step_wait_ends hbusy hpend htmr hseq hin (hrst d (List.mem_singleton_self d))
    refine ⟨by rw [portLog_one, hbusy, hreq]; rfl, _, (run_one s).trans hstep, ?_⟩
    exact ⟨hbusy, hpend, rfl, rfl, by simp [hin]⟩
  | succ n ih =>
    obtain ⟨d, during, rfl⟩ := List.exists_cons_of_length_eq_add_one hlen
    obtain ⟨hd, hrst⟩ := List.forall_mem_cons.mp hrst
    have hstep := step_counts hbusy hpend htmr hin hd
    obtain ⟨hlog, u, hrun, hu⟩ := ih (s := { nextCycle s with tmr := n + 1 }) hbusy hpend rfl hseq (by simp [hin])
      (by simpa using hlen) hrst (lineRequest_of_tmr (by simp))
    refine ⟨?_, u, (run_succ _ hstep).trans hrun, hu⟩
    rw [portLog_succ _ hstep, hlog, hbusy, hreq]
    rfl

/-- A whole `WAIT(n)` from the cycle in which the micro-operation before it ends (R236); `WAIT(0)` takes no cycle. -/
theorem run_whole_wait {n : Nat} {c : Config} {s v : State} {ops : List MicroOp} {during rest : List PortInput}
    (hstep : step s = settle (.wait n :: ops) v) (hreq : lineRequest s = none) (hv : OpEnded c (during ++ rest) v)
    (hlen : during.length = n) (hrst : ∀ d ∈ during, d.rst = false) :
    portLog (n + 1) s = (s.st, none) :: waiting n ∧ ∃ u, run (n + 1) s = settle ops u ∧ OpEnded c rest u := by
  cases n with
  | zero =>
    obtain rfl : during = [] := List.eq_nil_of_length_eq_zero hlen
    exact ⟨by rw [portLog_one, hreq]; rfl, v, (run_one s).trans hstep, hv⟩
  | succ n =>
    obtain ⟨hbusy, hpend, -, rfl, hin⟩ := hv
    obtain ⟨hlog, hend⟩ := run_running_wait n (s := { v with seq := .wait (n + 1) :: ops, tmr := n + 1 }) hbusy hpend rfl rfl
      hin hlen hrst
    rw [portLog_succ _ hstep, run_succ _ hstep, hlog, hreq]
    exact ⟨rfl, hend⟩

/-! ### The beginnings of a wait -/

section
variable {s : State} {p : PortInput} {ps : List PortInput} {ops : List MicroOp}

/-- The OK answer to a request ends it. -/
theorem opEnded_of_answered {r : LineReq} {k : BitVec 4} (hbusy : s.st = .busy) (htmr : s.tmr = 0)
    (hpend : s.pending = some r) (hseq : s.seq = .req r k :: ops) (hin : s.inputs = p :: ps) (hrst : p.rst = false)
    (hresp : p.respValid = true) (herr : p.respErr = false) (hval : p.respVal = false) :
    ∃ v, step s = settle ops v ∧ OpEnded s.cfg ps v := by
  have hagain : pollsAgain r p.respVal = false := by cases r <;> simp [pollsAgain, hval]
  obtain ⟨hstep, -⟩ := step_answer hbusy hpend hseq hin hrst hresp herr hagain
  exact ⟨_, hstep, by simpa, by simp, by simpa, by simp, by simp [hin]⟩

/-- The last cycle of a wait ends it. -/
theorem opEnded_of_waited {m : Nat} (hbusy : s.st = .busy) (htmr : s.tmr = 1) (hpend : s.pending = none)
    (hseq : s.seq = .wait m :: ops) (hin : s.inputs = p :: ps) (hrst : p.rst = false) :
    ∃ v, step s = settle ops v ∧ OpEnded s.cfg ps v :=
  ⟨_, step_wait_ends hbusy hpend htmr hseq hin hrst, hbusy, hpend, rfl, rfl, by simp [hin]⟩

/-- The acceptance of INIT stands before the first micro-operation of its list (R151, R153). -/
theorem opEnded_of_init (hidle : s.st = .idle) (hrest : restLegal s = true) (hin : s.inputs = p :: ps)
    (hrst : p.rst = false) (hvalid : p.cmdValid = true) (hdec : decodeCmd s.cfg.busWidth p.cmdData = .ok .init) :
    ∃ v, step s = settle (initOps s.cfg) v ∧ OpEnded s.cfg ps v := by
  obtain ⟨-, htmr, hpend⟩ := seq_of_restLegal hrest
  refine ⟨startSeq (initOps s.cfg) { latchCommand p.cmdData (nextCycle s) with initDone := false, phase := .unknown },
    ?_, rfl, hpend, htmr, rfl, by simp [hin]⟩
  rw [step_of_inputs hin, clock_accept (s := nextCycle s) hrst hidle hvalid, accept, nextCycle_cfg, hdec]
  exact execThenSettle_init _

end

/-- Settles O35: the beginnings are the `opEnded_of_` lemmas, the `n` cycles are those of `run_whole_wait`, and the ends
are what settling the rest of the list leaves. -/
theorem waitLeavesExactlyNIdleCycles : Obligations.WaitLeavesExactlyNIdleCycles := by
  intro s p during rest n before after tail ops s' hlen hduring hrst hbegin
  have hbegins : lineRequest s' = none ∧ ∃ v, step s' = settle ops v ∧ OpEnded s.cfg (during ++ rest) v := by
    obtain ⟨r, k, hbusy, htmr, hpend, hseq, hresp, herr, hval⟩ | ⟨m, hbusy, htmr, hpend, hseq⟩ |
      ⟨hidle, hrest, hvalid, hdec, hops⟩ := hbegin
    · exact ⟨lineRequest_of_pending (s := s') hpend,
        opEnded_of_answered (s := s') hbusy htmr hpend hseq rfl hrst hresp herr hval⟩
    · exact ⟨lineRequest_of_tmr (s := s') (by simp [s', htmr]), opEnded_of_waited (s := s') hbusy htmr hpend hseq rfl hrst⟩
    · rw [← hops]
      exact ⟨lineRequest_of_idle (s := s') hidle, opEnded_of_init (s := s') hidle hrest rfl hrst hvalid hdec⟩
  obtain ⟨hreq, v, hstep, hv⟩ := hbegins
  obtain ⟨w, hbefore, hw⟩ := hv.settle_notes before (.wait n :: (after.map .note ++ tail))
  obtain ⟨hlog, u, hrun, hu⟩ := run_whole_wait (hstep.trans hbefore) hreq hw hlen hduring
  obtain ⟨x, hafter, hx⟩ := hu.settle_notes after tail
  rw [hrun, hafter]
  refine ⟨hlog, ?_, ?_, ?_⟩
  · rintro q j ops' rfl
    exact hx.settle_at_req q j ops'
  · rintro row ops' rfl hrow
    exact hx.settle_at_rom hrow ops'
  · rintro rfl
    exact hx.settle_at_end

end Sys2Proof.Machine
end

section
/-! PROOFS. The init sequencer (43_init_sequencer): INIT's list is the table of 43 R150, and what that list requests, leaves
behind, makes the controller latch (43 R152) and costs (43 R156); with it the costs of the other lists of 70 R238. -/

namespace Sys2Proof.Machine

/-! ### The transmissions of a table -/

/-- The transmissions of the rows of a table as INIT makes them: each with its own wait, and with the indices that rise
from `k` (R150, R151). -/
def tableOps (c : Config) (rows : List (Nibble × Micros)) (k : Nat) : List MicroOp :=
  (rows.zipIdx k).flatMap fun x => tx c x.1.1 (.fixed (cyclesOf c x.1.2)) (BitVec.ofNat 4 x.2) true

@[simp] theorem tableOps_nil (c : Config) (k : Nat) : tableOps c [] k = [] := rfl

@[simp] theorem tableOps_cons (c : Config) (row : Nibble × Micros) (rows : List (Nibble × Micros)) (k : Nat) :
    tableOps c (row :: rows) k =
      tx c row.1 (.fixed (cyclesOf c row.2)) (BitVec.ofNat 4 k) true ++ tableOps c rows (k + 1) := rfl

theorem initOps_eq_tableOps (c : Config) :
    initOps c = .wait (cyclesOf c c.powerOnUs) :: .req (.set .rs false) 15#4 ::
      (tableOps c romTable 0 ++ [.note .initDone]) := by
  rw [initOps, initRom_flatMap_rowOps]
  rfl

/-- Settles O43: the 9 values of the ROM send the table's 14 nibbles (`initRom_flatMap_rowOps`). -/
theorem initScriptIsTheRomTable : Obligations.InitScriptIsTheRomTable := initOps_eq_tableOps

/-! ### Its requests -/

/-- The line ops of the nibbles of a table (R120). -/
def tableRequests (bw : BusWidth) (rows : List (Nibble × Micros)) : List LineReq :=
  rows.flatMap fun row => nibbleRequests bw row.1

@[simp] theorem tableRequests_cons (bw : BusWidth) (row : Nibble × Micros) (rows : List (Nibble × Micros)) :
    tableRequests bw (row :: rows) = nibbleRequests bw row.1 ++ tableRequests bw rows := rfl

theorem okRequests_tableOps (c : Config) (m : Nat) (rest : List MicroOp) (rows : List (Nibble × Micros)) (k : Nat) :
    okRequests m (tableOps c rows k ++ rest) = tableRequests c.busWidth rows ++ okRequests m rest := by
  induction rows generalizing k with
  | nil => rfl
  | cons row rows ih => simp [okRequests_tx, ih]

theorem okRequests_initOps (c : Config) (m : Nat) :
    okRequests m (initOps c) = .set .rs false :: tableRequests c.busWidth romTable := by
  simp [initOps_eq_tableOps, okRequests, okRequests_tableOps]

/-- Each row of a table raises E once (R110). -/
theorem count_raiseE_tableRequests (bw : BusWidth) (rows : List (Nibble × Micros)) :
    (tableRequests bw rows).count (.set .e true) = rows.length := by
  induction rows with
  | nil => rfl
  | cons row rows ih =>
    rw [tableRequests_cons, List.count_append, count_raiseE_nibbleRequests, ih, List.length_cons, Nat.add_comm]

/-- Each row of a table is latched once, in order, under the RS level (R57, R61). -/
theorem latched_tableRequests (bw : BusWidth) (rows : List (Nibble × Micros)) {l : Lines} (he : l.e = false) :
    latched l (tableRequests bw rows) = rows.map fun row => (l.rs, row.1) := by
  induction rows generalizing l with
  | nil => rfl
  | cons row rows ih =>
    rw [tableRequests_cons, latched_nibbleRequests bw row.1 he, ih (Lines.withNibble_e ..), List.map_cons,
      Lines.withNibble_rs]

/-- Settles O49: the RS write puts RS at 0, under which each of the table's 14 rows is strobed and latched once. -/
theorem initLatchesFourteenNibbles : Obligations.InitLatchesFourteenNibbles := by
  intro c l he reqs
  have hreqs : reqs = .set .rs false :: tableRequests c.busWidth romTable := okRequests_initOps c 0
  rw [hreqs]
  refine ⟨?_, latched_tableRequests c.busWidth romTable (l := l.apply (.set .rs false)) he⟩
  rw [List.count_cons_of_ne (by decide), count_raiseE_tableRequests]
  rfl

/-! ### The whole of INIT -/

/-- A transmission of INIT leaves E low, and the phase mirror as it was (R120). -/
theorem okEffect_tx_init (c : Config) (n : Nibble) (w : Nat) (k : BitVec 4) (m : Nat) (rest : List MicroOp) (s : State) :
    okEffect m (tx c n (.fixed w) k true ++ rest) s = okEffect m rest { s with eSh := .low } := by
  cases hbus : c.busWidth <;>
    simp [tx, dataOps, strobeSeq, phaseOps, syncOps, hbus, okEffect, countReads, applyOk, Shadow.ofBool]

/-- So do the transmissions of a table with a row in it. -/
theorem okEffect_tableOps (c : Config) (m : Nat) (rest : List MicroOp) (row : Nibble × Micros)
    (rows : List (Nibble × Micros)) (k : Nat) (s : State) :
    okEffect m (tableOps c (row :: rows) k ++ rest) s = okEffect m rest { s with eSh := .low } := by
  induction rows generalizing row k s with
  | nil => simp [okEffect_tx_init]
  | cons row' rows ih => rw [tableOps_cons, List.append_assoc, okEffect_tx_init, ih]

/-- What INIT's list leaves behind (R151). -/
theorem okEffect_initOps (c : Config) (m : Nat) (s : State) :
    okEffect m (initOps c) s =
      { s with rsSh := .low, mode := .instruction, eSh := .low, phase := .even, initDone := true } := by
  rw [initOps_eq_tableOps, okEffect, okEffect, romTable, okEffect_tableOps]
  rfl

/-- Settles O42: O36's run of the list that `exec_init` starts. -/
theorem initRunsToTheEnd : Obligations.InitRunsToTheEnd := by
  intro s late rest hidle hrest env s'
  obtain ⟨hend, htrace, hlog⟩ := commandRunsItsListToTheEnd s _ 0x10000000#32 .init [] late rest hidle hrest
    (Laws.RoundTrip.init s.cfg.busWidth rfl) (exec_init _) (by simp)
  obtain ⟨hseq, -⟩ := seq_of_restLegal hrest
  refine ⟨htrace.trans (okRequests_initOps s.cfg 0), hlog, hend.trans ?_⟩
  simp [env, okEffect_initOps, startSeq, latchCommand, hidle, hseq]

/-! ### Costs -/

/-- The cycles of a transmission's synchronisation when every answer comes one cycle after its request and a poll takes
`reads` reads (R236). -/
def syncCycles (reads : Nat) : TxSync → Nat
  | .fixed w => w
  | .busy => 2 * (2 + reads)

section
variable {busy : List Nat} (hbusy : ∀ d ∈ busy, d = 0)
include hbusy

theorem length_busy_reads : (busy.flatMap fun d => answered d (answersVal true)).length = 2 * busy.length := by
  induction busy with
  | nil => rfl
  | cons d busy ih =>
    obtain ⟨rfl, hrest⟩ := List.forall_mem_cons.mp hbusy
    rw [List.flatMap_cons, List.length_append, length_answered, ih hrest, List.length_cons]
    omega

theorem length_okInputs_syncOps (y : TxSync) (k : BitVec 4) (rest : List MicroOp) :
    (okInputs busy (syncOps y k ++ rest) []).length = syncCycles (busy.length + 1) y + (okInputs busy rest []).length := by
  cases y with
  | fixed w => simp [syncOps, okInputs, syncCycles]
  | busy =>
    simp only [syncOps, pollSeq, List.cons_append, List.nil_append, okInputs, List.length_append, length_answered,
      length_busy_reads hbusy, List.headD_nil, List.tail_nil, syncCycles]
    omega

/-- The cost of one transmission: two cycles per line op, and its waits (R236). -/
theorem length_okInputs_tx (c : Config) (n : Nibble) (y : TxSync) (k : BitVec 4) (init : Bool) (rest : List MicroOp) :
    (okInputs busy (tx c n y k init ++ rest) []).length =
      2 * (dataLineOps c.busWidth + 2) + (c.setupCycles + c.holdCycles) + syncCycles (busy.length + 1) y
        + (okInputs busy rest []).length := by
  have hsync := length_okInputs_syncOps hbusy y k rest
  cases hbus : c.busWidth <;> cases init <;>
    simp [tx, dataOps, strobeSeq, phaseOps, hbus, okInputs, hsync, dataLineOps] <;> omega

theorem length_okInputs_last (c : Config) (n : Nibble) (y : TxSync) (k : BitVec 4) (init : Bool) :
    (okInputs busy (tx c n y k init) []).length =
      2 * (dataLineOps c.busWidth + 2) + (c.setupCycles + c.holdCycles) + syncCycles (busy.length + 1) y := by
  simpa [okInputs] using length_okInputs_tx hbusy c n y k init []

/-- The row of a byte in the table of R238. -/
theorem length_okInputs_byteOps (c : Config) (h l : Nibble) (sync : Sync) (d : Micros) :
    (okInputs busy (byteOps c h l sync d) []).length = byteCost c (busy.length + 1) sync d := by
  rw [byteOps, length_okInputs_tx hbusy, length_okInputs_last hbusy]
  cases sync <;> simp only [lastSync, syncCycles, byteCost] <;> omega

theorem length_okInputs_tableOps (c : Config) (rest : List MicroOp) (rows : List (Nibble × Micros)) (k : Nat) :
    (okInputs busy (tableOps c rows k ++ rest) []).length =
      rows.length * (2 * (dataLineOps c.busWidth + 2) + (c.setupCycles + c.holdCycles))
        + (rows.map fun row => cyclesOf c row.2).sum + (okInputs busy rest []).length := by
  induction rows generalizing k with
  | nil => simp
  | cons row rows ih =>
    rw [tableOps_cons, List.append_assoc, length_okInputs_tx hbusy, ih]
    simp only [List.length_cons, List.map_cons, List.sum_cons, syncCycles, Nat.succ_mul]
    omega

end

/-- The waits of R150's table, whatever a wait costs. -/
theorem sum_waits_romTable (cost : Micros → Nat) :
    (romTable.map fun row => cost row.2).sum = cost 4100#16 + cost 100#16 + 12 * cost 40000#16 := by
  simp only [romTable, List.map_cons, List.map_nil, List.sum_cons, List.sum_nil]
  omega

/-- The row of INIT in the table of R238. -/
theorem length_okInputs_initOps {busy : List Nat} (hbusy : ∀ d ∈ busy, d = 0) (c : Config) (reads : Nat) :
    (okInputs busy (initOps c) []).length = commandCost c reads .init := by
  have htable := length_okInputs_tableOps hbusy c [.note .initDone] romTable 0
  rw [sum_waits_romTable, show romTable.length = 14 from rfl] at htable
  simp only [initOps_eq_tableOps, okInputs, List.length_append, List.length_replicate, length_answered, htable,
    List.headD_nil, List.tail_nil, List.length_nil, commandCost]
  ring

/-- Settles O44 (`commandCost` is the model's own function): each list's cost, with the number of data-line writes written
out. -/
theorem commandCostOfLists : Obligations.CommandCost := by
  intro c d h l busy hbusy N strobeWait data reads cost
  have hdata : data = dataLineOps c.busWidth := by cases hbus : c.busWidth <;> simp [data, hbus, dataLineOps]
  rw [hdata]
  refine ⟨?_, ?_, length_okInputs_byteOps hbusy c h l .fixedDelay d, length_okInputs_byteOps hbusy c h l .busyPoll d,
    length_okInputs_initOps hbusy c reads⟩
  · exact (length_okInputs_last hbusy c h _ 0#4 false).trans (by simp only [lastSync, syncCycles, strobeWait, N]; omega)
  · exact (length_okInputs_last hbusy c h _ 0#4 false).trans (by simp only [lastSync, syncCycles, strobeWait, reads]; omega)

end Sys2Proof.Machine
end

section
/-! PROOFS. The text writer (44_text_writer): the encoder's laws (44 R171), WRITE_CHAR, start to end (44 R172 to R174, 70
R237), and the text "Hi" (44 R178). -/

namespace Sys2Proof.Machine

/-! ### The encoder -/

theorem encodeChar_of_ascii {c : Byte} (hascii : c.toNat ≤ 0x7F) : encodeChar c = some (highNibble c, lowNibble c) :=
  if_pos (by simpa [BitVec.ule] using hascii)

theorem toNat_highNibble (b : Byte) : (highNibble b).toNat = b.toNat / 16 := by
  rw [highNibble, BitVec.extractLsb'_toNat]
  have := b.isLt
  omega

theorem toNat_lowNibble (b : Byte) : (lowNibble b).toNat = b.toNat % 16 := by
  simp [lowNibble]

/-- R171's reassembly `(h << 4) | l` puts the nibbles side by side. -/
theorem reassemble_eq_append (h l : Nibble) : (h.setWidth 8 <<< 4) ||| l.setWidth 8 = h ++ l := by
  rw [BitVec.append_def, BitVec.shiftLeftZeroExtend_eq, BitVec.setWidth'_eq]

/-- Settles O7: the nibbles are quotient and remainder by 16, and side by side they are the code. -/
theorem encoderSplitsAscii : Obligations.EncoderSplitsAscii := by
  refine ⟨fun c hascii => ⟨highNibble c, lowNibble c, encodeChar_of_ascii hascii, ?_, ?_, ?_, ?_⟩,
    fun c => (encodeChar_eq_none_iff c).mpr⟩
  · rw [toNat_highNibble, toNat_lowNibble, Nat.div_add_mod]
  · rw [toNat_highNibble]
    omega
  · rw [toNat_lowNibble]
    omega
  · rw [reassemble_eq_append, highNibble_append_lowNibble]

/-! ### The start of WRITE_CHAR -/

/-- R172: a 7-bit code is sent as it is, under every policy. -/
theorem charNibbles_of_ascii (c : Config) {ch : Byte} (hascii : ch.toNat ≤ 0x7F) :
    charNibbles c ch = some (highNibble ch, lowNibble ch) := by
  simp [charNibbles, encodeChar_of_ascii hascii]

/-- R174: SUB_CHAR, itself a 7-bit code, is sent for a code above 0x7F. -/
theorem charNibbles_of_substitute {c : Config} {ch : Byte} (habove : 0x7F < ch.toNat) (hpolicy : c.policy = .substitute) :
    charNibbles c ch = some (highNibble (c.subChar.setWidth 8), lowNibble (c.subChar.setWidth 8)) := by
  have hsub : (c.subChar.setWidth 8).toNat ≤ 0x7F := by
    have := c.subChar.isLt
    rw [BitVec.toNat_setWidth]
    omega
  simp [charNibbles, (encodeChar_eq_none_iff ch).mpr habove, hpolicy, encodeChar_of_ascii hsub]

section
variable {s : State} {sync : Sync} {d : Micros} {ch : Byte} {h l : Nibble}

/-- WRITE_CHAR passes its checks in mode DATA, where the phase is not ODD, unless FAIL refuses its code (R193 to R195). -/
theorem acceptError_writeChar (hwf : (Instr.writeChar sync d ch).wellFormed s.cfg.busWidth = true)
    (hmode : s.mode = .data) (hphase : s.phase ≠ .odd) (hchar : ¬ (0x7F < ch.toNat ∧ s.cfg.policy = .fail)) :
    acceptError (.writeChar sync d ch) s = none := by
  rw [acceptError_eq_none_iff]
  refine ⟨hwf, by simp [modeCheckFails, hmode], by simpa [phaseCheckFails] using hphase, ?_⟩
  simpa [unsupportedInput, BitVec.ule, imp_not_comm] using hchar

/-- A code that has nibbles to send starts their two transmissions (R172, R174). -/
theorem exec_writeChar_sent (hwf : (Instr.writeChar sync d ch).wellFormed s.cfg.busWidth = true) (hmode : s.mode = .data)
    (hphase : s.phase ≠ .odd) (hsent : charNibbles s.cfg ch = some (h, l)) :
    exec (.writeChar sync d ch) s = .next (startSeq (byteOps s.cfg h l sync d) s) := by
  have hchar : ¬ (0x7F < ch.toNat ∧ s.cfg.policy = .fail) := fun ⟨habove, hpolicy⟩ => by
    simp [(charNibbles_eq_none_iff s.cfg ch).mpr ⟨habove, by simp [hpolicy]⟩] at hsent
  exact exec_of_passed rfl (acceptError_writeChar hwf hmode hphase hchar) (by simp [expansion, hsent])

/-- R173: a code that SKIP drops only sets the flag. -/
theorem exec_writeChar_skipped (hwf : (Instr.writeChar sync d ch).wellFormed s.cfg.busWidth = true)
    (hmode : s.mode = .data) (hphase : s.phase ≠ .odd) (habove : 0x7F < ch.toNat) (hpolicy : s.cfg.policy = .skip) :
    exec (.writeChar sync d ch) s = .next { s with skipped := true } := by
  have hpass := acceptError_writeChar hwf hmode hphase (by simp [hpolicy])
  have hdropped := (charNibbles_eq_none_iff s.cfg ch).mpr ⟨habove, by simp [hpolicy]⟩
  simp [exec_eq, lcdValue, hpass, expansion, hdropped]

end

/-- Settles O26: `exec_writeChar_sent` for the code and for SUB_CHAR, and `exec_writeChar_skipped`. -/
theorem writeCharSendsOrSkips : Obligations.WriteCharSendsOrSkips := by
  intro s sync d c hwf hmode hphase sent
  have hsent {code : Byte} (hnib : charNibbles s.cfg c = some (highNibble code, lowNibble code)) :
      exec (.writeChar sync d c) s = .next (sent code) :=
    (exec_writeChar_sent hwf hmode hphase hnib).trans (by cases sync <;> rfl)
  exact ⟨fun hascii => hsent (charNibbles_of_ascii _ hascii), exec_writeChar_skipped hwf hmode hphase,
    fun habove hpolicy => hsent (charNibbles_of_substitute habove hpolicy)⟩

/-! ### The whole of WRITE_CHAR -/

section
variable {s : State} {sync : Sync} {d : Micros} {ch : Byte} {h l : Nibble}

/-- The acceptance cycle and the two transmissions, as those of a byte with these nibbles (R140, R172). -/
theorem runsTo_writeChar_sent (busy late : List Nat) (rest : List PortInput) (hidle : s.st = .idle)
    (hrest : restLegal s = true) (hwf : (Instr.writeChar sync d ch).wellFormed s.cfg.busWidth = true)
    (hmode : s.mode = .data) (hphase : s.phase ≠ .odd) (hsent : charNibbles s.cfg ch = some (h, l)) :
    let w := cmdWord 0x7#4 sync.bit d ch
    let ops := byteOps s.cfg h l sync d
    let env := okInputs busy ops late
    RunsTo (env.length + 1) (offered w (env ++ rest) s)
      { s with
        cmd := w, skipped := false, eSh := .low
        polls := if sync = .busyPoll then BitVec.ofNat 32 (min (busy.length + 1) (2 ^ 32 - 1)) else s.polls
        d7dir := if sync = .busyPoll then .output else s.d7dir
        inputs := rest, cycle := s.cycle + (env.length + 1) }
      ((.idle, none) :: okSchedule busy ops late) := by
  intro w ops env
  have hexec : exec (.writeChar sync d ch) (latchCommand w s) = .next (startSeq ops (latchCommand w s)) :=
    exec_writeChar_sent hwf hmode hphase hsent
  have hrun := runsTo_command busy late rest hidle hrest (Laws.RoundTrip.writeChar sync d ch _ hwf) hexec (by simp)
  obtain ⟨hseq, -⟩ := seq_of_restLegal hrest
  simpa [ops, env, okEffect_byteOps, startSeq, latchCommand, hidle, hseq] using hrun

/-- R173, R237: a dropped character takes its acceptance cycle alone. -/
theorem runsTo_writeChar_skipped (rest : List PortInput) (hidle : s.st = .idle) (hrest : restLegal s = true)
    (hwf : (Instr.writeChar sync d ch).wellFormed s.cfg.busWidth = true) (hmode : s.mode = .data)
    (hphase : s.phase ≠ .odd) (habove : 0x7F < ch.toNat) (hpolicy : s.cfg.policy = .skip) :
    let w := cmdWord 0x7#4 sync.bit d ch
    RunsTo 1 (offered w rest s) { s with cmd := w, skipped := true, inputs := rest, cycle := s.cycle + 1 }
      [(.idle, none)] := by
  intro w
  have hexec : exec (.writeChar sync d ch) (latchCommand w s) = .next { latchCommand w s with skipped := true } :=
    exec_writeChar_skipped hwf hmode hphase habove hpolicy
  have hrun := runsTo_command [] [] rest hidle hrest (Laws.RoundTrip.writeChar sync d ch _ hwf) hexec (by simp [hidle])
  obtain ⟨hseq, -⟩ := seq_of_restLegal hrest
  simpa [okInputs, okEffect, okSchedule, latchCommand, hidle, hseq] using hrun

end

/-- The requests of a byte's schedule (R140). -/
theorem okSchedule_byteOps_requests (c : Config) (h l : Nibble) (sync : Sync) (d : Micros) (busy late : List Nat) :
    (okSchedule busy (byteOps c h l sync d) late).filterMap (·.2) =
      nibbleRequests c.busWidth h ++ nibbleRequests c.busWidth l ++ syncRequests busy.length sync := by
  rw [okSchedule_requests, okRequests_byteOps, List.append_assoc]

/-- Settles O41: the runs `runsTo_writeChar_sent` and `runsTo_writeChar_skipped`, with the requests their logs show. -/
theorem writeCharRunsToTheEnd : Obligations.WriteCharRunsToTheEnd := by
  intro s sync d c busy late rest hidle hrest hwf hmode hphase w
  refine ⟨?_, fun habove hpolicy => ?_⟩
  · intro code hcode env s'
    have hsent : charNibbles s.cfg c = some (highNibble code, lowNibble code) := by
      obtain ⟨hascii, rfl⟩ | ⟨habove, hpolicy, rfl⟩ := hcode
      · exact charNibbles_of_ascii _ hascii
      · exact charNibbles_of_substitute habove hpolicy
    have hrun := runsTo_writeChar_sent busy late rest hidle hrest hwf hmode hphase hsent
    exact ⟨hrun.trace_eq.trans (okSchedule_byteOps_requests ..), hrun.2, hrun.1⟩
  · have hrun := runsTo_writeChar_skipped rest hidle hrest hwf hmode hphase habove hpolicy
    exact ⟨hrun.trace_eq, hrun.2, hrun.1⟩

/-! ### The text "Hi" -/

/-- The block stands between two commands of a WRITE_TEXT whose SEL_DR is done (R176): IDLE in mode DATA, with the
parameters and the phase as they were, and these inputs to come. -/
structure AtCharacter (c : Config) (ph : Phase) (ps : List PortInput) (s : State) : Prop where
  idle : s.st = .idle
  rest : restLegal s = true
  mode : s.mode = .data
  cfg : s.cfg = c
  phase : s.phase = ph
  inputs : s.inputs = ps

theorem offered_eq_self {s : State} {w : CmdWord} {ps : List PortInput} (hin : s.inputs = presents w :: ps) :
    offered w ps s = s := by
  simp [offered, ← hin]

/-- The text's SEL_DR brings the block to the first character. -/
theorem runsTo_textSelect {s : State} {late : Nat} {ps : List PortInput}
    (hin : s.inputs = presents 0x30000000#32 :: (answered late answersOk ++ ps)) (hidle : s.st = .idle)
    (hrest : restLegal s = true) (hphase : s.phase ≠ .odd) :
    ∃ t, RunsTo (late + 3) s t ((.idle, none) :: asked late (.set .rs true)) ∧ AtCharacter s.cfg s.phase ps t := by
  obtain ⟨-, hlog, hrun⟩ := selectRunsToTheEnd s true late ps hidle hrest hphase
  have hselect : RunsTo (late + 3) (offered 0x30000000#32 (answered late answersOk ++ ps) s) _ _ := ⟨hrun, hlog⟩
  rw [offered_eq_self hin] at hselect
  exact ⟨_, hselect, hidle, hrest, rfl, rfl, rfl, rfl⟩

/-- A character that is sent, with a fixed wait, brings the block to the next one. -/
theorem AtCharacter.runsTo_next {c : Config} {ph : Phase} {d : Micros} {ch : Byte} {h l : Nibble} {late : List Nat}
    {ps : List PortInput} {s : State}
    (hs : AtCharacter c ph
      (presents (cmdWord 0x7#4 0#1 d ch) :: (okInputs [] (byteOps c h l .fixedDelay d) late ++ ps)) s)
    (hphase : ph ≠ .odd) (hsent : charNibbles c ch = some (h, l)) :
    ∃ t, RunsTo ((okInputs [] (byteOps c h l .fixedDelay d) late).length + 1) s t
        ((.idle, none) :: okSchedule [] (byteOps c h l .fixedDelay d) late) ∧ AtCharacter c ph ps t := by
  obtain ⟨hidle, hrest, hmode, rfl, rfl, hin⟩ := hs
  have hrun := runsTo_writeChar_sent (sync := .fixedDelay) (d := d) [] late ps hidle hrest rfl hmode hphase hsent
  simp only [Sync.bit, offered_eq_self hin] at hrun
  exact ⟨_, hrun, hidle, hrest, hmode, rfl, rfl, rfl⟩

/-- Settles O50: SEL_DR and then the two characters, each of which brings the block to the next. -/
theorem hiIsFourDataNibbles : Obligations.HiIsFourDataNibbles := by
  intro s d late lateH lateI rest hidle hrest hphase bw envH envI ps s'
  have hin : s'.inputs = presents 0x30000000#32 :: (answered late answersOk ++
      (presents (cmdWord 0x7#4 0#1 d 0x48#8) :: (envH ++
        (presents (cmdWord 0x7#4 0#1 d 0x69#8) :: (envI ++ rest))))) := by
    simp [s', ps]
  have hcycles : ps.length = late + 3 + (envH.length + 1 + (envI.length + 1)) := by
    simp only [ps, List.length_cons, List.length_append, length_answered]
    omega
  obtain ⟨t₁, hselect, h₁⟩ := runsTo_textSelect hin hidle hrest hphase
  obtain ⟨t₂, hH, h₂⟩ := h₁.runsTo_next hphase (charNibbles_of_ascii _ (by decide))
  obtain ⟨t, hI, ht⟩ := h₂.runsTo_next hphase (charNibbles_of_ascii _ (by decide))
  have hrun := hselect.trans (hH.trans hI)
  rw [← hcycles] at hrun
  have htrace : trace ps.length s' =
      .set .rs true :: (nibbleRequests bw 0b0100#4 ++ (nibbleRequests bw 0b1000#4 ++
        (nibbleRequests bw 0b0110#4 ++ nibbleRequests bw 0b1001#4))) := by
    simp [hrun.trace_eq, asked, okSchedule_byteOps_requests, syncRequests, bw, s']
  refine ⟨rfl, htrace, fun l he => ?_, t, hrun.1, ht.idle, ht.mode, ht.phase, ht.inputs⟩
  have hlatched := latched_tableRequests bw [(0b0100#4, d), (0b1000#4, d), (0b0110#4, d), (0b1001#4, d)]
    (l := l.apply (.set .rs true)) he
  simpa [htrace, latched, Lines.apply, tableRequests] using hlatched

end Sys2Proof.Machine
end

section
/-! PROOFS. The checks at acceptance and the entry of an error (60_exceptions): which error each check raises and in which
order (60 R193 to R196), what raising one writes (60 R197), and what executing an instruction leaves unchanged. -/

namespace Sys2Proof.Machine

/-- Settles O12: the tests of `raiseError` on the code, decided. -/
theorem errorEntryWrites : Obligations.ErrorEntryWrites :=
  fun _ _ _ _ _ => ⟨rfl, fun hcode => by simp [raiseError, hcode]⟩

/-! ### Which check fails first -/

section
variable (i : Instr) (s : State)

theorem acceptError_eq_illegalCommand_iff :
    acceptError i s = some .illegalCommand ↔ i.wellFormed s.cfg.busWidth = false := by
  unfold acceptError
  split_ifs <;> simp_all

theorem acceptError_eq_modeError_iff :
    acceptError i s = some .modeError ↔ i.wellFormed s.cfg.busWidth = true ∧ modeCheckFails s.mode i = true := by
  unfold acceptError
  split_ifs <;> simp_all

theorem acceptError_eq_phaseError_iff :
    acceptError i s = some .phaseError ↔
      i.wellFormed s.cfg.busWidth = true ∧ modeCheckFails s.mode i = false ∧ phaseCheckFails s.phase i = true := by
  unfold acceptError
  split_ifs <;> simp_all

theorem acceptError_eq_unsupportedInput_iff :
    acceptError i s = some .unsupportedInput ↔
      i.wellFormed s.cfg.busWidth = true ∧ modeCheckFails s.mode i = false ∧ phaseCheckFails s.phase i = false ∧
        unsupportedInput s.cfg i = true := by
  unfold acceptError
  split_ifs <;> simp_all

/-- R195: only a WRITE_CHAR above 0x7F under FAIL fails the character check. -/
theorem unsupportedInput_iff (c : Config) :
    unsupportedInput c i = true ↔ c.policy = .fail ∧ ∃ sync dly ch, i = .writeChar sync dly ch ∧ 0x7F < ch.toNat := by
  cases i with
  | writeChar sync dly ch => simp [unsupportedInput, BitVec.ule]
  | _ => simp [unsupportedInput]

end

/-! ### The error that executing an instruction leaves -/

section
variable {i : Instr} {s : State} {e : ErrCode}

/-- Controller-side values are not checked. -/
theorem acceptError_of_lcdValue {l : LcdWord} (hlcd : lcdValue i = some l) : acceptError i s = none := by
  cases i with
  | init | selIr | selDr | strobe | sendNibble | sendByte | writeChar => cases hlcd
  | _ => rfl

theorem lcdValue_of_acceptError (herr : acceptError i s = some e) : lcdValue i = none :=
  Option.eq_none_iff_forall_not_mem.mpr fun _ hlcd => by simp [acceptError_of_lcdValue hlcd] at herr

/-- R196: a command that fails a check only enters the error. -/
theorem exec_of_refused (herr : acceptError i s = some e) : exec i s = .next (refuse e s) := by
  rw [exec_eq, lcdValue_of_acceptError herr]
  simp only [herr]

/-- R196: an instruction that passes the checks raises no error. -/
theorem exec_err_of_passed (hpass : acceptError i s = none) : ∃ t, exec i s = .next t ∧ t.err = s.err := by
  refine ⟨_, exec_eq i s, ?_⟩
  split
  next l hlcd => rfl
  next hlcd =>
    rw [hpass]
    cases expansion s.cfg i with
    | some ops => simp
    | none => rfl

/-- Executed in a state without an error, an instruction leaves the error of the first check that fails. -/
theorem errAfter_exec_iff (hnone : s.err = .none) (he : e ≠ .none) :
    errAfter (exec i s) = some e ↔ acceptError i s = some e := by
  cases herr : acceptError i s with
  | some e' => simp [exec_of_refused herr, errAfter]
  | none =>
    obtain ⟨t, hexec, ht⟩ := exec_err_of_passed herr
    simp [hexec, errAfter, ht, hnone, he.symm]

end

/-- Settles O17: the code is that of the first check that fails, by the four `acceptError_eq_…_iff`. -/
theorem checksReportTheFirstError : Obligations.ChecksReportTheFirstError := fun i s _ =>
  ⟨fun hwf => exec_of_refused ((acceptError_eq_illegalCommand_iff i s).mpr hwf),
    fun hwf hmode => exec_of_refused ((acceptError_eq_modeError_iff i s).mpr ⟨hwf, hmode⟩),
    fun hwf hmode hphase => exec_of_refused ((acceptError_eq_phaseError_iff i s).mpr ⟨hwf, hmode, hphase⟩),
    fun hwf hmode hphase hchar =>
      exec_of_refused ((acceptError_eq_unsupportedInput_iff i s).mpr ⟨hwf, hmode, hphase, hchar⟩),
    fun hwf hmode hphase hchar => exec_err_of_passed ((acceptError_eq_none_iff i).mpr ⟨hwf, hmode, hphase, hchar⟩)⟩

/-- Settles O14: MODE_ERROR is left where the command is well formed and its mode check fails. -/
theorem modeErrorRaisedExactly : Obligations.ModeErrorRaisedExactly := by
  intro s hnone
  simp only [ne_eq, errAfter_exec_iff hnone, acceptError_eq_modeError_iff, reduceCtorEq, not_false_eq_true]
  refine ⟨fun dly => ?_, fun sync dly n hwf => ?_, fun sync dly b hwf => ?_, fun sync dly c hwf => ?_, ?_, ?_, ?_⟩
  · simp [Instr.wellFormed, modeCheckFails]
  · simp [hwf, modeCheckFails]
  · simp [hwf, modeCheckFails]
  · simp [hwf, modeCheckFails]
  all_goals simp [modeCheckFails]

/-- Settles O15: PHASE_ERROR is left where the command is well formed, its mode check passes and its phase check fails. -/
theorem phaseErrorRaisedExactly : Obligations.PhaseErrorRaisedExactly := by
  intro s hnone
  simp only [ne_eq, errAfter_exec_iff hnone, acceptError_eq_phaseError_iff, reduceCtorEq, not_false_eq_true]
  refine ⟨?_, ?_, fun sync dly b hwf hmode => ?_, fun sync dly c hwf hmode => ?_, fun dly n hwf hmode => ?_,
    fun dly n => ?_, fun dly => ?_, ?_⟩
  · simp [Instr.wellFormed, modeCheckFails, phaseCheckFails]
  · simp [Instr.wellFormed, modeCheckFails, phaseCheckFails]
  · simp [hwf, hmode, modeCheckFails, phaseCheckFails]
  · simp [hwf, hmode, modeCheckFails, phaseCheckFails]
  · simp [hwf, hmode, modeCheckFails, phaseCheckFails]
  all_goals simp [phaseCheckFails]

/-- Settles O16: UNSUPPORTED_INPUT is left where only the character check fails (`unsupportedInput_iff`). -/
theorem unsupportedInputRaisedExactly : Obligations.UnsupportedInputRaisedExactly := by
  intro s hnone
  simp only [ne_eq, errAfter_exec_iff hnone, acceptError_eq_unsupportedInput_iff, reduceCtorEq, not_false_eq_true]
  refine ⟨fun sync dly c hwf hmode hphase => ?_, fun i ⟨_, _, _, hchar⟩ => ?_⟩
  · simp [hwf, hmode, hphase, modeCheckFails, phaseCheckFails, unsupportedInput_iff, and_comm]
  · obtain ⟨hpolicy, sync, dly, c, hi, -⟩ := (unsupportedInput_iff i s.cfg).mp hchar
    exact ⟨hpolicy, sync, dly, c, hi⟩

/-! ### The frame of an instruction -/

/-- Only a WRITE_CHAR can pass its checks and start no list (R173). -/
theorem writeChar_of_expansion_none {c : Config} {i : Instr} (hlcd : lcdValue i = none) (hops : expansion c i = none) :
    ∃ sync dly ch, i = .writeChar sync dly ch := by
  cases i with
  | writeChar sync dly ch => exact ⟨sync, dly, ch, rfl⟩
  | _ => simp_all [lcdValue, expansion]

theorem beforeSeq_of_ne_init {i : Instr} (hinit : i ≠ .init) (s : State) : beforeSeq i s = s := by
  cases i with
  | init => exact absurd rfl hinit
  | _ => rfl

/-- Settles O29: of the outcomes of `exec_eq`, a value sent and a list started write S.seq and S.st (INIT's also the phase
and INIT_DONE), a refusal enters an error that is no IO_ERROR, and a dropped character is a WRITE_CHAR's. -/
theorem execFrame : Obligations.ExecFrame := by
  intro i s t hexec
  rw [exec_eq, Host.Outcome.next.injEq] at hexec
  subst hexec
  split
  next l hlcd => simp [sendScripted]
  next hlcd =>
    split
    next e herr =>
      obtain ⟨hio, -⟩ := acceptError_ne_ioError herr
      simp [hio]
    next hpass =>
      split
      next ops hops =>
        by_cases hinit : i = .init
        · subst hinit
          simp [beforeSeq]
        · simp [beforeSeq_of_ne_init hinit]
      next hops =>
        obtain ⟨sync, dly, ch, rfl⟩ := writeChar_of_expansion_none hlcd hops
        simp

end Sys2Proof.Machine
end

section
/-! PROOFS. The words R192 lists are those the decoder rejects (30 R80), and what the acceptance of any word ends in
(60 R192, R196, 70 R237). -/

namespace Sys2Proof

/-! ### Illegal words -/

/-- R79 condition (1), on the bit of field `S`. -/
theorem availableOn_ofBit_eq_false_iff (bw : BusWidth) (b : BitVec 1) :
    (Sync.ofBit b).availableOn bw = false ↔ b = 1#1 ∧ bw = .four := by
  revert b
  cases bw <;> decide

/-- R79 condition (2), on the bit of field `S`. -/
theorem nibbleDelayOk_ofBit_eq_false_iff (dly : Micros) (b : BitVec 1) :
    (Sync.ofBit b).nibbleDelayOk dly = false ↔ b = 1#1 ∧ dly ≠ 0#16 := by
  by_cases hb : b = 1#1 <;> simp [Sync.ofBit, hb, Sync.nibbleDelayOk]

/-- SEND_NIBBLE's reserved bits `DATA[7:4]`, masked as in R76 and extracted as in R192. -/
theorem data_and_high_eq_zero_iff (w : CmdWord) : w.data &&& 0xF0#8 = 0#8 ↔ w.extractLsb' 4 4 = 0#4 := by
  have hbyte : ∀ b : Byte, b &&& 0xF0#8 = 0#8 ↔ b.extractLsb' 4 4 = 0#4 := by decide
  have hhigh : w.data.extractLsb' 4 4 = w.extractLsb' 4 4 := by
    apply BitVec.eq_of_getLsbD_eq
    intro i hi
    simp only [CmdWord.data, BitVec.getLsbD_extractLsb']
    interval_cases i <;> simp
  rw [hbyte, hhigh]

/-- R192's list over the named fields, with SEND_NIBBLE's reserved bits as its row of R76 masks them. -/
theorem illegalWord_iff_fields (bw : BusWidth) (w : CmdWord) :
    Machine.illegalWord bw w ↔
      (w.op = 0#4 ∨ 8 ≤ w.op.toNat)
      ∨ ((w.op = 1#4 ∨ w.op = 2#4 ∨ w.op = 3#4) ∧ (w.s ≠ 0#1 ∨ w.rsv ≠ 0#3 ∨ w.dly ≠ 0#16 ∨ w.data ≠ 0#8))
      ∨ (w.op = 4#4 ∧ (w.s ≠ 0#1 ∨ w.rsv ≠ 0#3 ∨ w.data ≠ 0#8))
      ∨ (w.op = 5#4 ∧ (w.rsv ≠ 0#3 ∨ w.data &&& 0xF0#8 ≠ 0#8))
      ∨ ((w.op = 6#4 ∨ w.op = 7#4) ∧ w.rsv ≠ 0#3)
      ∨ ((w.op = 5#4 ∨ w.op = 6#4 ∨ w.op = 7#4) ∧ w.s = 1#1 ∧ bw = .four)
      ∨ (w.op = 5#4 ∧ w.s = 1#1 ∧ w.dly ≠ 0#16) := by
  simp only [ne_eq, data_and_high_eq_zero_iff]
  rfl

/-- A word that decodes has the fields of its row, and the conditions of R79 hold. -/
theorem not_illegalWord_of_decodeCmd {bw : BusWidth} {w : CmdWord} {i : Instr} (h : decodeCmd bw w = .ok i) :
    ¬ Machine.illegalWord bw w := by
  rw [illegalWord_iff_fields]
  simp only [decodeCmd, Bool.not_eq_true', availableOn_ofBit_eq_false_iff, nibbleDelayOk_ofBit_eq_false_iff] at h
  split_ifs at h with hinit hselIr hselDr hstrobe hnibble havail hdly hbyte havail hchar havail
  · simp [(matches_init w).mp hinit]
  · simp [(matches_selIr w).mp hselIr]
  · simp [(matches_selDr w).mp hselDr]
  · simp [(matches_strobe w).mp hstrobe]
  · simp [(matches_sendNibble w).mp hnibble, havail, hdly]
  · simp [(matches_sendByte w).mp hbyte, havail]
  · simp [(matches_writeChar w).mp hchar, havail]

theorem opAssigned_eq_false_iff (w : CmdWord) : w.opAssigned = false ↔ w.op = 0#4 ∨ 8 ≤ w.op.toNat := by
  unfold CmdWord.opAssigned
  generalize w.op = op
  revert op
  decide

theorem opAssigned_iff (w : CmdWord) : w.opAssigned = true ↔
    w.op = 1#4 ∨ w.op = 2#4 ∨ w.op = 3#4 ∨ w.op = 4#4 ∨ w.op = 5#4 ∨ w.op = 6#4 ∨ w.op = 7#4 := by
  unfold CmdWord.opAssigned
  generalize w.op = op
  revert op
  decide

/-- A word of an assigned opcode that is rejected has a reserved bit of its row set or fails a condition of R79. -/
theorem illegalWord_of_decodeCmd_error {bw : BusWidth} {w : CmdWord} {e : Reject} (h : decodeCmd bw w = .error e) :
    Machine.illegalWord bw w := by
  rw [illegalWord_iff_fields]
  simp only [decodeCmd, Bool.not_eq_true', availableOn_ofBit_eq_false_iff, nibbleDelayOk_ofBit_eq_false_iff] at h
  split_ifs at h with hinit hselIr hselDr hstrobe hnibble havail hdly hbyte havail hchar havail hop
  · simp [(matches_sendNibble w).mp hnibble, havail]
  · simp [(matches_sendNibble w).mp hnibble, hdly]
  · simp [(matches_sendByte w).mp hbyte, havail]
  · simp [(matches_writeChar w).mp hchar, havail]
  · obtain hop | hop | hop | hop | hop | hop | hop := (opAssigned_iff w).mp hop
    · simpa [hop, matches_init, imp_iff_not_or] using hinit
    · simpa [hop, matches_selIr, imp_iff_not_or] using hselIr
    · simpa [hop, matches_selDr, imp_iff_not_or] using hselDr
    · simpa [hop, matches_strobe, imp_iff_not_or] using hstrobe
    · have hreserved : ¬ w.rsv = 0#3 ∨ ¬ w.data &&& 0xF0#8 = 0#8 := by
        simpa [hop, matches_sendNibble, imp_iff_not_or] using hnibble
      simp [hop, hreserved]
    · have hreserved : ¬ w.rsv = 0#3 := by simpa [hop, matches_sendByte] using hbyte
      simp [hop, hreserved]
    · have hreserved : ¬ w.rsv = 0#3 := by simpa [hop, matches_writeChar] using hchar
      simp [hop, hreserved]
  · exact .inl ((opAssigned_eq_false_iff w).mp (by simpa using hop))

namespace Machine

/-! ### The acceptance of a word -/

section
variable {s : State} {w : CmdWord} {e : ErrCode} {ps : List PortInput}

/-- The error with which the acceptance of a word ends (R192, R196): that of a word that does not decode, or that of the
first check its command fails. -/
def wordError (w : CmdWord) (s : State) : Option ErrCode :=
  match decodeCmd s.cfg.busWidth w with
  | .ok i => acceptError i s
  | .error _ => some .illegalCommand

theorem wordError_of_ok {i : Instr} (hdec : decodeCmd s.cfg.busWidth w = .ok i) : wordError w s = acceptError i s := by
  simp [wordError, hdec]

theorem wordError_of_error {x : Reject} (hdec : decodeCmd s.cfg.busWidth w = .error x) :
    wordError w s = some .illegalCommand := by
  simp [wordError, hdec]

/-- R192: the checks do not repeat ILLEGAL_COMMAND, since a word that decodes is well formed (R79). -/
theorem wordError_eq_illegalCommand_iff :
    wordError w s = some .illegalCommand ↔ illegalWord s.cfg.busWidth w := by
  cases hdec : decodeCmd s.cfg.busWidth w with
  | ok i =>
    have hwf := wellFormed_of_decodeCmd hdec
    simp only [wordError_of_ok hdec, acceptError_eq_illegalCommand_iff, hwf, not_illegalWord_of_decodeCmd hdec,
      Bool.true_eq_false]
  | error x => simp only [wordError_of_error hdec, illegalWord_of_decodeCmd_error hdec]

/-- R196: a refused word is latched, and its error is entered. -/
theorem accept_of_refused (herr : wordError w s = some e) : accept w s = .next (refuse e (latchCommand w s)) := by
  unfold accept
  split
  next i hdec =>
    rw [wordError_of_ok hdec] at herr
    have hexec : exec i (latchCommand w s) = .next (refuse e (latchCommand w s)) := exec_of_refused herr
    simp [execThenSettle, hexec]
  next x hdec =>
    rw [wordError_of_error hdec, Option.some.injEq] at herr
    rw [herr]

/-- R196: a word that is not refused raises no error. -/
theorem accept_err_of_passed (hidle : s.st = .idle) (hpass : wordError w s = none) :
    ∃ t, accept w s = .next t ∧ t.err = s.err := by
  cases hdec : decodeCmd s.cfg.busWidth w with
  | error x => simp [wordError_of_error hdec] at hpass
  | ok i =>
    rw [wordError_of_ok hdec] at hpass
    simp only [accept, hdec, execThenSettle, exec_eq, lcdValue_of_decodeCmd hdec, acceptError_latchCommand, hpass,
      latchCommand_cfg]
    cases hops : expansion s.cfg i with
    | some ops =>
      obtain ⟨q, n, hq⟩ := settle_expansion hops (startSeq ops (beforeSeq i (latchCommand w s)))
      exact ⟨_, hq, by simp⟩
    | none => exact ⟨{ latchCommand w s with skipped := true }, by simp [hidle], rfl⟩

/-- The cycle in which an IDLE block is offered a word accepts it (R21). -/
theorem step_offered (hidle : s.st = .idle) :
    step (offered w ps s) = accept w { s with inputs := ps, cycle := s.cycle + 1 } := by
  rw [step_of_inputs rfl, clock_accept (s := nextCycle (offered w ps s)) rfl hidle rfl]
  rfl

end

/-- Settles O13: a refused word leaves its own error, any other word the error of before, which is none. -/
theorem illegalCommandRaisedExactly : Obligations.IllegalCommandRaisedExactly := by
  intro s w ps hidle hnone
  rw [step_offered hidle, ← wordError_eq_illegalCommand_iff]
  cases herr : wordError w s with
  | some e => exact ⟨_, accept_of_refused herr, by simp⟩
  | none =>
    obtain ⟨t, haccept, ht⟩ := accept_err_of_passed (s := { s with inputs := ps, cycle := s.cycle + 1 }) hidle herr
    exact ⟨t, haccept, by simp [ht, hnone]⟩

/-- Settles O18: only a refusal leaves an error where none was, and a FAILED block presents no request. -/
theorem refusedCommandIssuesNothing : Obligations.RefusedCommandIssuesNothing := by
  intro s t w ps hidle hstep hfailed hnone
  rw [step_offered hidle] at hstep
  have hsilent : trace 1 (offered w ps s) = [] := by
    rw [trace, portLog_one, lineRequest_of_idle (s := offered w ps s) hidle]
    rfl
  cases herr : wordError w s with
  | some e =>
    have haccept : accept w { s with inputs := ps, cycle := s.cycle + 1 } = _ := accept_of_refused herr
    cases haccept.symm.trans hstep
    exact ⟨rfl, rfl, hsilent, lineRequest_of_not_busy (by simp), rfl⟩
  | none =>
    obtain ⟨u, haccept, hu⟩ := accept_err_of_passed (s := { s with inputs := ps, cycle := s.cycle + 1 }) hidle herr
    cases haccept.symm.trans hstep
    exact absurd (hu.trans hnone) hfailed

end Machine

end Sys2Proof
end

section
/-! PROOFS. The state FAILED: it is final until reset (60 R198), and outside a busy poll an `ERR` answer enters it at once
(60 R191, R197, R199). -/

namespace Sys2Proof.Machine

section
variable {s : State} {p : PortInput} {ps : List PortInput}

/-! ### Cycles in FAILED -/

/-- R198: a FAILED block reads no port but `rst`. -/
theorem step_failed (hfailed : s.st = .failed) (hin : s.inputs = p :: ps) (hrst : p.rst = false) :
    step s = .next (nextCycle s) := by
  rw [step_of_inputs hin, clock_failed (s := nextCycle s) hrst hfailed]

/-- R198, over any number of cycles. -/
theorem runsTo_failed {rest : List PortInput} (hfailed : s.st = .failed) (hin : s.inputs = ps ++ rest)
    (hrst : ∀ p ∈ ps, p.rst = false) :
    RunsTo ps.length s { s with inputs := rest, cycle := s.cycle + ps.length }
      (List.replicate ps.length (.failed, none)) := by
  induction ps generalizing s with
  | nil =>
    obtain rfl : s.inputs = rest := hin
    exact RunsTo.refl s
  | cons p ps ih =>
    obtain ⟨hp, hps⟩ := List.forall_mem_cons.mp hrst
    have hrun := RunsTo.cons (step_failed hfailed hin hp) (ih (s := nextCycle s) hfailed (by simp [hin]) hps)
    rw [lineRequest_of_not_busy (by simp [hfailed]), hfailed] at hrun
    simpa [List.replicate_succ, nextCycle, Nat.add_comm, Nat.add_left_comm] using hrun

end

/-- Settles O19: the run is `runsTo_failed`, whose log shows no request; the status word does not look at what
it changes. -/
theorem failedIsFinalUntilReset : Obligations.FailedIsFinalUntilReset := by
  intro s ps rest hfailed hrst
  have hrun := runsTo_failed (s := { s with inputs := ps ++ rest }) hfailed rfl hrst
  have hsilent : trace ps.length { s with inputs := ps ++ rest } = [] := by simp [hrun.trace_eq]
  exact ⟨_, hrun.1, hfailed, by simp [cmdReady, hfailed], hsilent, lineRequest_of_not_busy (by simp [hfailed]), rfl, rfl⟩

/-! ### ERR answers -/

/-- R32, R100, R101: which shadow an `ERR` answer makes X, by the line and the kind of the request. -/
theorem applyErr_eq (r : LineReq) (s : State) :
    applyErr r s = { s with
      eSh := if r.line = .e ∧ r.kind = .set then .x else s.eSh
      rsSh := if r.line = .rs ∧ r.kind = .set then .x else s.rsSh
      mode := if r.line = .rs ∧ r.kind = .set then .unknown else s.mode
      d7dir := if r.line = .d7 ∧ r.kind = .dir then .x else s.d7dir } := by
  cases r with
  | setv vec => rfl
  | set l v => cases l <;> rfl
  | get l => cases l <;> rfl
  | dirIn l => cases l <;> rfl
  | dirOut l v => cases l <;> rfl

/-- R125, R197: the switch of D7 to input and the reads of it are all that lies inside a poll. -/
theorem restores_eq_false {r : LineReq} (hdir : r ≠ .dirIn .d7) (hget : r ≠ .get .d7) : r.restores = false := by
  unfold LineReq.restores
  split
  · exact absurd rfl hdir
  · exact absurd rfl hget
  · rfl

theorem failRequest_of_not_restores {r : LineReq} (hr : r.restores = false) (k : BitVec 4) (s : State) :
    failRequest r k s = raiseError .ioError r.kind (some r.line) k (applyErr r s) := by
  simp [failRequest, hr]

/-- An `ERR` answer to the outstanding request fails it (R51, R199). -/
theorem step_answer_err {s : State} {r : LineReq} {k : BitVec 4} {ops : List MicroOp} {p : PortInput}
    {ps : List PortInput} (hbusy : s.st = .busy) (hpend : s.pending = some r) (hseq : s.seq = .req r k :: ops)
    (hin : s.inputs = p :: ps) (hrst : p.rst = false) (hresp : p.respValid = true) (herr : p.respErr = true) :
    step s = .next (failRequest r k (nextCycle s)) := by
  rw [step_of_inputs hin, clock_busy (s := nextCycle s) hrst hbusy]
  simp [busyCycle, hpend, answer, hseq, hresp, herr]

/-- Settles O20: outside a poll the failed request enters IO_ERROR (O12) over what the answer wrote (`applyErr_eq`). -/
theorem errorAnswerAborts : Obligations.ErrorAnswerAborts := by
  intro s r k ops p ps hbusy hpend hseq hdir hget hrst hresp herr
  rw [step_answer_err (s := { s with inputs := p :: ps }) hbusy hpend hseq rfl hrst hresp herr,
    failRequest_of_not_restores (restores_eq_false hdir hget), applyErr_eq]
  rfl

end Sys2Proof.Machine
end

section
/-! PROOFS. Reset and hazards (70_reset_and_hazards): a cycle of `rst` (70 R220), and how long a command keeps the block
BUSY (70 R236 to R238). -/

namespace Sys2Proof.Machine

/-! ### Reset -/

/-- Settles O11: `rst` beats everything else (`clock_reset`), and the fields of `resetBlock` are those of the reset
state. -/
theorem resetSetsEveryField : Obligations.ResetSetsEveryField := by
  intro s p ps hrst
  refine ⟨_, (step_of_inputs rfl).trans (clock_reset hrst), ?_⟩
  simp

/-! ### The states a run passes through -/

section
variable {k : Nat} {s t : State} {log : List (SeqState × Option LineReq)}

/-- The first cycle of a run, and what is left of it. -/
theorem RunsTo.uncons (h : RunsTo (k + 1) s t log) :
    ∃ u rest, step s = .next u ∧ log = (s.st, lineRequest s) :: rest ∧ RunsTo k u t rest := by
  obtain ⟨hrun, hlog⟩ := h
  cases hstep : step s with
  | next u =>
    rw [run_succ k hstep] at hrun
    rw [portLog_succ k hstep] at hlog
    exact ⟨u, _, rfl, hlog.symm, hrun, rfl⟩
  | fault f => exact nomatch f
  | refused r => simp [run, Host.Core.run, core, hstep] at hrun

/-- Before its last state, a run is where its log says. -/
theorem RunsTo.exists_run_of_lt (h : RunsTo k s t log) {n : Nat} (hn : n < k) :
    ∃ u, run n s = .next u ∧ log[n]? = some (u.st, lineRequest u) := by
  induction k generalizing s n log with
  | zero => exact absurd hn n.not_lt_zero
  | succ k ih =>
    obtain ⟨v, rest, hstep, rfl, hrest⟩ := h.uncons
    cases n with
    | zero => exact ⟨s, run_zero s, rfl⟩
    | succ n =>
      obtain ⟨u, hrun, hat⟩ := ih hrest (Nat.lt_of_succ_lt_succ hn)
      exact ⟨u, (run_succ n hstep).trans hrun, hat⟩

end

/-! ### BUSY in every cycle of a list -/

theorem busy_of_mem_asked {late : Nat} {r : LineReq} {x : SeqState × Option LineReq} (hx : x ∈ asked late r) :
    x.1 = .busy := by
  obtain rfl | hx := List.mem_cons.mp hx
  · rfl
  · rw [List.eq_of_mem_replicate hx]

/-- The block is BUSY through the requests and the waits of its list (R236). -/
theorem busy_of_mem_okSchedule {busy : List Nat} {ops : List MicroOp} {late : List Nat}
    {x : SeqState × Option LineReq} (hx : x ∈ okSchedule busy ops late) : x.1 = .busy := by
  induction ops generalizing late with
  | nil => exact absurd hx List.not_mem_nil
  | cons o ops ih =>
    cases o with
    | wait n =>
      obtain hwait | hrest := List.mem_append.mp hx
      · rw [List.eq_of_mem_replicate hwait]
      · exact ih hrest
    | note b => exact ih (late := late) hx
    | restore f k => exact ih (late := late) hx
    | rom r => exact ih (late := late) hx
    | req r k =>
      cases r with
      | get l =>
        simp only [okSchedule, List.mem_append, List.mem_flatMap] at hx
        obtain ⟨d, -, hagain⟩ | hlast | hrest := hx
        · exact busy_of_mem_asked hagain
        · exact busy_of_mem_asked hlast
        · exact ih hrest
      | _ =>
        obtain hasked | hrest := List.mem_append.mp hx
        · exact busy_of_mem_asked hasked
        · exact ih hrest

/-! ### The cost of a command -/

/-- The row of each host command in the table of R238, as the length of the inputs its list consumes. -/
theorem length_okInputs_expansion {busy : List Nat} (hbusy : ∀ d ∈ busy, d = 0) {c : Config} {i : Instr}
    {ops : List MicroOp} (hops : expansion c i = some ops) :
    (okInputs busy ops []).length = commandCost c (busy.length + 1) i := by
  cases i with
  | init => cases hops; exact length_okInputs_initOps hbusy c _
  | selIr => cases hops; rfl
  | selDr => cases hops; rfl
  | strobe d =>
    cases hops
    simp only [strobeSeq, strobeHold, List.cons_append, List.nil_append, okInputs, List.length_append, length_answered,
      List.length_replicate, List.headD_nil, List.tail_nil, List.length_nil, commandCost]
    omega
  | sendNibble sync d n =>
    cases hops
    rw [length_okInputs_last hbusy]
    cases sync <;> simp only [lastSync, syncCycles, commandCost] <;> omega
  | sendByte sync d b => cases hops; exact length_okInputs_byteOps hbusy c _ _ sync d
  | writeChar sync d ch =>
    obtain ⟨p, hsent, rfl⟩ := Option.map_eq_some_iff.mp hops
    have hkept : ¬ (0x7F < ch.toNat ∧ c.policy = .skip) := fun ⟨habove, hpolicy⟩ => by
      simp [(charNibbles_eq_none_iff c ch).mpr ⟨habove, by simp [hpolicy]⟩] at hsent
    rw [length_okInputs_byteOps hbusy, commandCost, if_neg hkept]
  | _ => cases hops

/-- R238: what an accepted command leaves to be done takes the cycles of its row, none where the character was dropped. -/
theorem length_okInputs_accepted {busy : List Nat} (hbusy : ∀ d ∈ busy, d = 0) {s t : State} {w : CmdWord} {i : Instr}
    (hseq : s.seq = []) (hdec : decodeCmd s.cfg.busWidth w = .ok i)
    (hexec : exec i (latchCommand w s) = .next t) (halive : t.st ≠ .failed) :
    (okInputs busy t.seq []).length = commandCost s.cfg (busy.length + 1) i := by
  cases hpass : acceptError i s with
  | some e =>
    cases (exec_of_refused (s := latchCommand w s) hpass).symm.trans hexec
    exact absurd rfl halive
  | none =>
    cases hops : expansion s.cfg i with
    | some ops =>
      have hlcd := lcdValue_of_decodeCmd hdec
      cases (exec_of_passed (s := latchCommand w s) hlcd hpass hops).symm.trans hexec
      exact length_okInputs_expansion hbusy hops
    | none =>
      obtain ⟨sync, d, ch, rfl, hmode, hphase, habove, hpolicy⟩ := (dropped_iff hdec).mp ⟨hpass, hops⟩
      have hwf := wellFormed_of_decodeCmd hdec
      cases (exec_writeChar_skipped (s := latchCommand w s) hwf hmode hphase habove hpolicy).symm.trans hexec
      rw [commandCost, if_pos ⟨habove, hpolicy⟩]
      simp [hseq, okInputs]

/-- Settles O60: the run of `runsTo_command` takes the acceptance cycle and the command's cost, and the log after
acceptance shows BUSY only. -/
theorem commandIsBusyForItsCost : Obligations.CommandIsBusyForItsCost := by
  intro s t w i busy rest hidle hrest hdec hexec halive hbusy cost s'
  have hcost : (okInputs busy t.seq []).length = cost :=
    length_okInputs_accepted hbusy (seq_of_restLegal hrest).1 hdec hexec halive
  have hrun := runsTo_command busy [] rest hidle hrest hdec hexec halive
  rw [hcost] at hrun
  refine ⟨fun n hpos hle => ?_, _, hrun.1, rfl, rfl⟩
  obtain ⟨u, hu, hat⟩ := hrun.exists_run_of_lt (Nat.lt_succ_of_le hle)
  obtain ⟨m, rfl⟩ := Nat.exists_eq_add_of_le' hpos
  exact ⟨u, hu, busy_of_mem_okSchedule (List.mem_of_getElem? hat)⟩

end Sys2Proof.Machine
end
